-- ==== Sys2Proof/Word.lean ====
section
/-! DEFINITION. The word types of the core: everything it holds is unsigned (spec/00_scope.md R12). -/

namespace Sys2Proof

/-- A host register, a command word, a DMEM address or length, a leaf weight (00 R10: REG_BITS, ADDR_BITS,
LEAF_WEIGHT_BITS = 32). -/
abbrev Word := BitVec 32

/-- A byte of DMEM, and a symbol (00 R9: SYM_BITS = 8). -/
abbrev Byte := BitVec 8

/-- A node weight (00 R10: NODE_WEIGHT_BITS = 40). -/
abbrev Weight := BitVec 40

/-- A bit sequence, first bit first (00 R14). -/
abbrev Bits := List Bool

end Sys2Proof
end

