-- ==== Sys2Proof/Syntax.lean ====
section
/-! DEFINITION. The 21 commands (spec/30_encoding.md R210), one constructor per row of spec/opcode_table.json, each
with the fields of the command word it uses (R202). -/

namespace Sys2Proof

inductive Instr where
  /-- 0x00 NOP (45 R490). -/
  | nop
  /-- 0x10 FT_CLEAR (40 R252). -/
  | ftClear
  /-- 0x11 FT_ADD, SYM used (40 R253). -/
  | ftAdd (sym : Byte)
  /-- 0x12 FT_GET (40 R256). -/
  | ftGet
  /-- 0x13 TB_BUILD (40 R260). -/
  | tbBuild
  /-- 0x14 TB_NODE (40 R270). -/
  | tbNode
  /-- 0x20 CT_DERIVE (41 R300). -/
  | ctDerive
  /-- 0x21 CT_LOOKUP, SYM used (41 R310). -/
  | ctLookup (sym : Byte)
  /-- 0x30 BP_INIT (42 R353). -/
  | bpInit
  /-- 0x31 BP_APPEND_BIT, BIT used (42 R360). -/
  | bpAppendBit (bit : Bool)
  /-- 0x32 BP_APPEND_SEQ (42 R362). -/
  | bpAppendSeq
  /-- 0x33 BP_APPEND_FIXED, WIDTH used (42 R363). -/
  | bpAppendFixed (width : BitVec 6)
  /-- 0x34 BP_APPEND_CODE, SYM used (42 R364). -/
  | bpAppendCode (sym : Byte)
  /-- 0x35 BP_FINISH (42 R365). -/
  | bpFinish
  /-- 0x40 BR_INIT (43 R403). -/
  | brInit
  /-- 0x41 BR_READ_BIT (43 R411). -/
  | brReadBit
  /-- 0x42 BR_READ_FIXED, WIDTH used (43 R412). -/
  | brReadFixed (width : BitVec 6)
  /-- 0x43 BR_REMAINING (43 R413). -/
  | brRemaining
  /-- 0x44 BR_POSITION (43 R414). -/
  | brPosition
  /-- 0x50 ENC (44 R460). -/
  | enc
  /-- 0x51 DEC (44 R480). -/
  | dec
  deriving DecidableEq, Repr

end Sys2Proof
end

