-- ==== Sys2Proof/WellFormed.lean ====
section
/-! DEFINITION. Which instructions a legal command word stands for: WIDTH is 0 to 32 on the two commands that use it
(spec/30_encoding.md R203). Every other field of a command may hold any value. -/

namespace Sys2Proof

/-- The largest legal WIDTH (30 R203). -/
def maxWidth : Nat := 32

/-- The instruction breaks no check of 30 R203. -/
def Instr.wellFormed : Instr → Bool
  | .nop => true
  | .ftClear => true
  | .ftAdd _ => true
  | .ftGet => true
  | .tbBuild => true
  | .tbNode => true
  | .ctDerive => true
  | .ctLookup _ => true
  | .bpInit => true
  | .bpAppendBit _ => true
  | .bpAppendSeq => true
  | .bpAppendFixed w => decide (w.toNat ≤ maxWidth)
  | .bpAppendCode _ => true
  | .bpFinish => true
  | .brInit => true
  | .brReadBit => true
  | .brReadFixed w => decide (w.toNat ≤ maxWidth)
  | .brRemaining => true
  | .brPosition => true
  | .enc => true
  | .dec => true

end Sys2Proof
end

