-- ==== Sys2Proof/Decode.lean ====
section
/-! DEFINITION. The command word (spec/30_encoding.md R200, R201), the decoder, total on all 2^32 words and rejecting
by name (R212), and the encoder (R200, R220). -/

namespace Sys2Proof

/-- RSV_HI, bits 31:24 of a command word, must be 0 (30 R200). -/
def rsvHiField (w : Word) : BitVec 8 := w.extractLsb' 24 8

/-- SYM, bits 23:16 (30 R201). -/
def symField (w : Word) : Byte := w.extractLsb' 16 8

/-- RSV_MID, bit 15, must be 0 (30 R200). -/
def rsvMidField (w : Word) : Bool := w.getLsbD 15

/-- BIT, bit 14 (30 R201). -/
def bitField (w : Word) : Bool := w.getLsbD 14

/-- WIDTH, bits 13:8, an unsigned 6-bit number (30 R201). -/
def widthField (w : Word) : BitVec 6 := w.extractLsb' 8 6

/-- OPC, bits 7:0 (30 R201). -/
def opcField (w : Word) : BitVec 8 := w.extractLsb' 0 8

/-- Why a word is illegal (30 R204). -/
inductive DecodeError where
  /-- RSV_HI or RSV_MID is not 0: `word & 0xFF008000 ≠ 0` (30 R212). -/
  | reservedBits
  /-- OPC is not in the map of 30 R210 (30 R211). -/
  | reservedOpcode (opc : BitVec 8)
  /-- BP_APPEND_FIXED with a WIDTH of 33 to 63 (30 R203). -/
  | appendWidth (width : BitVec 6)
  /-- BR_READ_FIXED with a WIDTH of 33 to 63 (30 R203). -/
  | readWidth (width : BitVec 6)
  deriving DecidableEq, Repr

/-- The opcode map (30 R210), with the operand check of 30 R203, for a word whose reserved bits are 0. -/
def decodeOpcode (w : Word) : Except DecodeError Instr :=
  match (opcField w).toNat with
  | 0x00 => .ok .nop
  | 0x10 => .ok .ftClear
  | 0x11 => .ok (.ftAdd (symField w))
  | 0x12 => .ok .ftGet
  | 0x13 => .ok .tbBuild
  | 0x14 => .ok .tbNode
  | 0x20 => .ok .ctDerive
  | 0x21 => .ok (.ctLookup (symField w))
  | 0x30 => .ok .bpInit
  | 0x31 => .ok (.bpAppendBit (bitField w))
  | 0x32 => .ok .bpAppendSeq
  | 0x33 =>
    if (widthField w).toNat ≤ maxWidth then .ok (.bpAppendFixed (widthField w))
    else .error (.appendWidth (widthField w))
  | 0x34 => .ok (.bpAppendCode (symField w))
  | 0x35 => .ok .bpFinish
  | 0x40 => .ok .brInit
  | 0x41 => .ok .brReadBit
  | 0x42 =>
    if (widthField w).toNat ≤ maxWidth then .ok (.brReadFixed (widthField w))
    else .error (.readWidth (widthField w))
  | 0x43 => .ok .brRemaining
  | 0x44 => .ok .brPosition
  | 0x50 => .ok .enc
  | 0x51 => .ok .dec
  | _ => .error (.reservedOpcode (opcField w))

/-- The decoder, in the order of 30 R212: reserved bits, then the opcode, then the operand checks. The check on ARG1
of BP_APPEND_SEQ (30 R204) reads a register and stands in that command's meaning. -/
def decode (w : Word) : Except DecodeError Instr :=
  if w &&& 0xFF008000#32 ≠ 0#32 then .error .reservedBits else decodeOpcode w

/-- A command word from its fields, `{8'h00, s, 1'b0, b, w, OPC}` (30 R220). -/
def assembleWord (opc : BitVec 8) (sym : Byte) (bit : Bool) (width : BitVec 6) : Word :=
  0#8 ++ sym ++ 0#1 ++ BitVec.ofBool bit ++ width ++ opc

/-- The word of an instruction; a field the command does not use assembles to 0 (30 R210, R220). -/
def encode : Instr → Word
  | .nop => assembleWord 0x00#8 0#8 false 0#6
  | .ftClear => assembleWord 0x10#8 0#8 false 0#6
  | .ftAdd s => assembleWord 0x11#8 s false 0#6
  | .ftGet => assembleWord 0x12#8 0#8 false 0#6
  | .tbBuild => assembleWord 0x13#8 0#8 false 0#6
  | .tbNode => assembleWord 0x14#8 0#8 false 0#6
  | .ctDerive => assembleWord 0x20#8 0#8 false 0#6
  | .ctLookup s => assembleWord 0x21#8 s false 0#6
  | .bpInit => assembleWord 0x30#8 0#8 false 0#6
  | .bpAppendBit b => assembleWord 0x31#8 0#8 b 0#6
  | .bpAppendSeq => assembleWord 0x32#8 0#8 false 0#6
  | .bpAppendFixed w => assembleWord 0x33#8 0#8 false w
  | .bpAppendCode s => assembleWord 0x34#8 s false 0#6
  | .bpFinish => assembleWord 0x35#8 0#8 false 0#6
  | .brInit => assembleWord 0x40#8 0#8 false 0#6
  | .brReadBit => assembleWord 0x41#8 0#8 false 0#6
  | .brReadFixed w => assembleWord 0x42#8 0#8 false w
  | .brRemaining => assembleWord 0x43#8 0#8 false 0#6
  | .brPosition => assembleWord 0x44#8 0#8 false 0#6
  | .enc => assembleWord 0x50#8 0#8 false 0#6
  | .dec => assembleWord 0x51#8 0#8 false 0#6

/-- The bits of a command word that the command named reads: OPC and the reserved fields for every command, and the
operand fields it uses (30 R202, R210). -/
def usedMask : Instr → Word
  | .ftAdd _ => 0xFFFF80FF#32
  | .ctLookup _ => 0xFFFF80FF#32
  | .bpAppendCode _ => 0xFFFF80FF#32
  | .bpAppendBit _ => 0xFF00C0FF#32
  | .bpAppendFixed _ => 0xFF00BFFF#32
  | .brReadFixed _ => 0xFF00BFFF#32
  | .nop => 0xFF0080FF#32
  | .ftClear => 0xFF0080FF#32
  | .ftGet => 0xFF0080FF#32
  | .tbBuild => 0xFF0080FF#32
  | .tbNode => 0xFF0080FF#32
  | .ctDerive => 0xFF0080FF#32
  | .bpInit => 0xFF0080FF#32
  | .bpAppendSeq => 0xFF0080FF#32
  | .bpFinish => 0xFF0080FF#32
  | .brInit => 0xFF0080FF#32
  | .brReadBit => 0xFF0080FF#32
  | .brRemaining => 0xFF0080FF#32
  | .brPosition => 0xFF0080FF#32
  | .enc => 0xFF0080FF#32
  | .dec => 0xFF0080FF#32

/-- The command word whose low `nbits` bits are those of `w` and whose other bits are 0 (log entry 10). -/
def tableWord (nbits w : Nat) : Word := BitVec.ofNat 32 (w % 2 ^ nbits)

/-- What the decoder reads from an instruction whose bits are `w`, numbered as spec/opcode_table.json numbers them.
A command is one 32-bit word (30 R200), so more than 32 bits is no command. -/
def decodeTableWord (nbits w : Nat) : Option Instr :=
  if nbits ≤ 32 then (decode (tableWord nbits w)).toOption else none

end Sys2Proof
end

