-- ==== Sys2Proof/Config.lean ====
section
/-! DEFINITION. What is fixed for a machine, and the free values (spec/93_implementation_defined.md). -/

namespace Sys2Proof.Config

/-- The parameter DMEM_SIZE of `State.reset` (00 R11). DESIGN CHOICE, log entry 2: the value spec/95 picks. Every
other state carries a DMEM_SIZE of its own. -/
def dmemSize : Nat := 0x1000

/-- What a DMEM byte that no entry lists reads as. DESIGN CHOICE, log entry 3: DMEM_INIT is a parameter (00 R11), and
spec/95 starts every byte at 0x00. -/
def dmemFill : Byte := 0x00#8

/-- The free value of the n-th draw of a register read while BUSY = 1 (10 R65). No body: nothing can know it
(log entry 4). -/
opaque freeWord : Nat → Word

/-- The free value of the n-th draw of a DMEM byte: a changed byte of the reader's buffer (70 R574), a byte of an
aborted command's write range (70 R552). No body (log entry 4). -/
opaque freeByte : Nat → Byte

end Sys2Proof.Config
end

