-- ==== Sys2Proof/Machine/State.lean ====
section
/-! DEFINITION. The state of the core as plain data (spec/10_state.md), its value after reset, and the reasons a step
can stop. -/

namespace Sys2Proof.Machine

/-- The outcome codes of a command (60 R500). Codes 9 to 15 are never reported, so they have no constructor. -/
inductive ErrCode where
  | ok
  | invalidInput
  | range
  | corruptHeader
  | endOfStream
  | illegalCommand
  | stateError
  | capacity
  | address
  deriving DecidableEq, Repr

/-- Why a step stops. No outcome code of the spec is among them (00 R22). -/
inductive Fault where
  /-- Raised by a host DMEM access while BUSY = 1 to a byte the command in flight may use: the host breaks its DMEM
  duty (20 R166, 70 R573). Safe: the spec gives such a run no meaning. -/
  | hostDutyBroken (addr : Nat)
  /-- Raised by a host DMEM access at or past DMEM_SIZE (20 R150, log entry 5). Safe: no such byte exists. -/
  | hostNoSuchByte (addr : Nat)
  /-- Raised by an engine DMEM access at or past DMEM_SIZE (20 R150, log entry 5). Safe: only in states no run
  reaches, since every range is checked when it is latched (20 R157). -/
  | engineNoSuchByte (addr : Nat)
  /-- Raised by a tree walk that meets no node, or is longer than the tree is deep (10 R71, log entry 12). Safe: only
  in states no run reaches. -/
  | nodeUnspecified (index : Nat)
  deriving DecidableEq, Repr

/-- Why a step has no meaning. -/
inductive Refusal where
  /-- Raised by an arm of exec that has no meaning yet; no arm of this model raises it. Safe. -/
  | notModelled (mnemonic : String)
  deriving DecidableEq, Repr

/-- One entry of the frequency table (10 R70). -/
structure FtEntry where
  sym : Byte
  w : Word
  deriving DecidableEq, Repr

/-- One cell of the tree's node memory (10 R71). -/
inductive Node where
  | leaf (sym : Byte) (w : Weight)
  | internal (zero one : BitVec 9) (w : Weight)
  deriving DecidableEq, Repr

/-- The weight of a node (10 R71). -/
def Node.weight : Node → Weight
  | .leaf _ w => w
  | .internal _ _ w => w

/-- The tree (10 R71). `nodes` is the node memory below `tree.nn`; the cells at and past it are unspecified and no
command reveals them (log entries 8 and 12). -/
structure Tree where
  valid : Bool
  root : Nat
  nodes : List Node
  deriving DecidableEq, Repr

/-- `tree.nn`, the node count (10 R71). -/
def Tree.nn (t : Tree) : Nat := t.nodes.length

/-- The contents of the code table: for each symbol its code, or none where `ct.has` is 0 (10 R72). `ct.len` is the
code's length. -/
abbrev Codes := Vector (Option Bits) 256

/-- The code table (10 R72). -/
structure CodeTable where
  valid : Bool
  codes : Codes
  deriving DecidableEq, Repr

/-- The bit packer (10 R73). -/
structure Packer where
  active : Bool
  base : Word
  cap : Word
  bytes : Word
  cur : Byte
  cursor : Fin 8
  deriving DecidableEq, Repr

/-- The bit reader (10 R74). `changed` lists, rising, the addresses of the buffer's bytes that were written since the
buffer was latched (70 R574). -/
structure Reader where
  active : Bool
  base : Word
  len : Word
  pos : Nat
  changed : List Nat
  deriving DecidableEq, Repr

/-- The six kinds of host move (70 R570). A register access has an offset in the 256-byte window and a width in bits
(10 R51, R52). -/
inductive HostMove where
  | regWrite (offset : BitVec 8) (width : Nat) (value : Word)
  | regRead (offset : BitVec 8) (width : Nat)
  | dmemWrite (addr : Word) (value : Byte)
  | dmemRead (addr : Word)
  | hardwareReset
  | observeIrq
  deriving DecidableEq, Repr

/-- Which agent moves (00 R19): the engine, or the host with the move it makes. -/
inductive Turn where
  | engine
  | host (move : HostMove)
  deriving DecidableEq, Repr

/-- What a read or an observation of the host returns (70 R570). -/
inductive HostReply where
  | register (value : Word)
  | byte (value : Byte)
  | line (level : Bool)
  deriving DecidableEq, Repr

/-- DMEM: the bytes that differ from what an unlisted address reads as, by rising address (20 R150). -/
abbrev Memory := List Host.Cell

/-- The whole machine: the host registers that hold state (10 R51 to R64), the internal state (10 R70 to R75), DMEM
(20 R150), and the model's own fields `draws` (log entry 4), `agenda` (log entry 1) and `reply` (log entry 13). -/
structure State where
  irqEn : Bool
  busy : Bool
  done : Bool
  lost : Bool
  errcode : ErrCode
  cmd : Word
  arg0 : Word
  arg1 : Word
  inBase : Word
  inLen : Word
  outBase : Word
  outCap : Word
  outLen : Word
  result0 : Word
  result1 : Word
  result2 : Word
  bitwin : Vector Word 8
  ft : List FtEntry
  tree : Tree
  ct : CodeTable
  bp : Packer
  br : Reader
  dmem : Memory
  dmemSize : Nat
  draws : Nat
  agenda : List Turn
  reply : Option HostReply
  deriving DecidableEq, Repr

/-- The tree after reset (10 R80). -/
def Tree.reset : Tree := { valid := false, root := 0, nodes := [] }

/-- The code table after reset (10 R80). -/
def CodeTable.reset : CodeTable := { valid := false, codes := Vector.replicate 256 none }

/-- The packer after reset (10 R80). -/
def Packer.reset : Packer := { active := false, base := 0, cap := 0, bytes := 0, cur := 0, cursor := 0 }

/-- The reader after reset (10 R80). -/
def Reader.reset : Reader := { active := false, base := 0, len := 0, pos := 0, changed := [] }

/-- The start of a model run with the parameters of 00 R11: the reset state of 10 R80 with DMEM = DMEM_INIT
(70 R554). -/
def State.initial (size : Nat) (init : Memory) : State where
  irqEn := false
  busy := false
  done := false
  lost := false
  errcode := .ok
  cmd := 0
  arg0 := 0
  arg1 := 0
  inBase := 0
  inLen := 0
  outBase := 0
  outCap := 0
  outLen := 0
  result0 := 0
  result1 := 0
  result2 := 0
  bitwin := Vector.replicate 8 0
  ft := []
  tree := Tree.reset
  ct := CodeTable.reset
  bp := Packer.reset
  br := Reader.reset
  dmem := init
  dmemSize := size
  draws := 0
  agenda := []
  reply := none

/-- The machine right after reset, with the parameters log entries 2 and 3 name. -/
def State.reset : State := State.initial Config.dmemSize []

end Sys2Proof.Machine
end

