-- ==== Sys2Proof/Machine/Operands.lean ====
section
/-! DEFINITION. Bit sequences, integer fields and the BITWIN window: how an operand is read and how a result is laid
out (spec/00_scope.md R12 to R14, spec/10_state.md R57, R63, R64). -/

namespace Sys2Proof.Machine

/-- `v[hi:lo]` of an unsigned number, a number of `hi − lo + 1` bits (00 R13). -/
def slice (v hi lo : Nat) : Nat := v / 2 ^ lo % 2 ^ (hi + 1 - lo)

/-- The low 32 bits of a result, `v[31:0]` (10 R63). -/
def lowWord (v : Nat) : Word := BitVec.ofNat 32 (slice v 31 0)

/-- The bits above 31 of a 35-bit count, `zext_32(v[34:32])` (10 R62, R63). -/
def highWord35 (v : Nat) : Word := BitVec.ofNat 32 (slice v 34 32)

/-- The bits above 31 of a 40-bit count, `zext_32(v[39:32])` (10 R63). -/
def highWord40 (v : Nat) : Word := BitVec.ofNat 32 (slice v 39 32)

/-- `msb_bits(v, w)`: the `w` low bits of `v`, most significant first (00 R14). -/
def msbBits (v : Nat) : Nat → Bits
  | 0 => []
  | w + 1 => v.testBit w :: msbBits v w

/-- The number whose bits, most significant first, follow those of `acc`: one `v <- 2·v + bit` per bit
(43 R412). -/
def bitsToNatFrom (acc : Nat) : Bits → Nat
  | [] => acc
  | b :: bs => bitsToNatFrom (2 * acc + b.toNat) bs

/-- The unsigned number a bit sequence spells, most significant bit first (00 R14). -/
def bitsToNat (bs : Bits) : Nat := bitsToNatFrom 0 bs

/-- `v[i] <- b` for a bit of a byte (00 R13, R15). -/
def setByteBit (v : Byte) (i : Nat) (b : Bool) : Byte :=
  if b then v ||| (1#8 <<< i) else v &&& ~~~(1#8 <<< i)

/-- Bit `7 − (p mod 8)` of a byte: the bit at stream position `p` of the byte that holds it (20 R154). -/
def streamBit (v : Byte) (p : Nat) : Bool := v.getLsbD (7 - p % 8)

/-- Bit position `i` of the BITWIN window, bit `31 − (i mod 32)` of BITWIN`(i div 32)` (10 R64). -/
def bitwinBit (win : Vector Word 8) (i : Nat) : Bool := (win.toList.getD (i / 32) 0).getLsbD (31 - i % 32)

/-- The first `len` bit positions of the window (42 R362). -/
def bitwinSeq (win : Vector Word 8) (len : Nat) : Bits := (List.range len).map (bitwinBit win)

/-- The word whose bit 31 is the first of 32 positions of a sequence, with zeros past its end (10 R64). -/
def windowWord (seq : Bits) (first : Nat) : Word :=
  BitVec.ofNat 32 (bitsToNat ((List.range 32).map fun k => seq.getD (first + k) false))

/-- The window that holds a sequence in its first positions and zeros elsewhere (41 R310, 10 R64). -/
def bitwinOf (seq : Bits) : Vector Word 8 := Vector.ofFn fun j => windowWord seq (32 * j.val)

/-- `ceil_div(a, b)` (00 R18). -/
def ceilDiv (a b : Nat) : Nat := (a + b - 1) / b

/-- RESULT1 of TB_NODE: `{leaf, 15'b0, sym, w[39:32]}` (10 R63, 40 R270). -/
def nodeInfoWord : Node → Word
  | .leaf sym w => 1#1 ++ 0#15 ++ sym ++ w.extractLsb' 32 8
  | .internal _ _ w => 0#1 ++ 0#15 ++ 0#8 ++ w.extractLsb' 32 8

/-- RESULT2 of TB_NODE: `{7'b0, one, 7'b0, zero}` of an internal node, 0 of a leaf (10 R63, 40 R270). -/
def nodeLinkWord : Node → Word
  | .leaf _ _ => 0
  | .internal zero one _ => 0#7 ++ one ++ 0#7 ++ zero

end Sys2Proof.Machine
end

