-- ==== Sys2Proof/Machine/Flags.lean ====
section
/-! DEFINITION. STATUS, CTRL, the interrupt line and the validity flags (spec/10_state.md R54, R55, R77;
spec/60_exceptions.md R500, R511 to R513). -/

namespace Sys2Proof.Machine

/-- The number of an outcome code (60 R500). -/
def ErrCode.code : ErrCode → BitVec 4
  | .ok => 0
  | .invalidInput => 1
  | .range => 2
  | .corruptHeader => 3
  | .endOfStream => 4
  | .illegalCommand => 5
  | .stateError => 6
  | .capacity => 7
  | .address => 8

/-- STATUS.ERR, which reads `ERRCODE ≠ 0` (10 R55). -/
def errFlag (s : State) : Bool := s.errcode.code != 0#4

/-- STATUS as a word: ERRCODE at [11:8], then BR_ACTIVE, BP_ACTIVE, CODES_VALID, TREE_VALID, LOST, ERR, DONE and BUSY
from bit 7 down to bit 0; bits 31:12 read 0 (10 R55). -/
def statusWord (s : State) : Word :=
  0#20 ++ s.errcode.code ++ BitVec.ofBool s.br.active ++ BitVec.ofBool s.bp.active ++ BitVec.ofBool s.ct.valid
    ++ BitVec.ofBool s.tree.valid ++ BitVec.ofBool s.lost ++ BitVec.ofBool (errFlag s) ++ BitVec.ofBool s.done
    ++ BitVec.ofBool s.busy

/-- A write to STATUS clears DONE where bit 1 is 1 and LOST where bit 3 is 1; other bits are ignored (10 R55). -/
def writeStatus (v : Word) (s : State) : State :=
  { s with done := s.done && !v.getLsbD 1, lost := s.lost && !v.getLsbD 3 }

/-- CTRL as a word: IRQ_EN at bit 1, every other bit reads 0 (10 R54). -/
def ctrlWord (s : State) : Word := 0#30 ++ BitVec.ofBool s.irqEn ++ 0#1

/-- `irq = STATUS.DONE and CTRL.IRQ_EN`, level-sensitive (60 R512). -/
def irq (s : State) : Bool := s.done && s.irqEn

/-- A change of the frequency table invalidates the tree and the code table (40 R251). -/
def invalidate (s : State) : State :=
  { s with tree := { s.tree with valid := false }, ct := { s.ct with valid := false } }

end Sys2Proof.Machine
end

