-- ==== Sys2Proof/Machine/Ops.lean ====
section
/-! DEFINITION. The named operations every command uses: DMEM (spec/20_memory.md), the issue and completion of a command
(spec/60_exceptions.md R505, R506) and reset (spec/70_reset_and_hazards.md R550 to R552). -/

namespace Sys2Proof.Machine

/-! ### DMEM as a list -/

/-- The byte at an address; an address that is not listed reads as the fill byte (20 R150, log entry 3). -/
def Memory.read : Memory → Nat → Byte
  | [], _ => Config.dmemFill
  | (b, x) :: m, a => if b = a then x else Memory.read m a

/-- Store a byte, keeping the list by rising address and without an entry equal to the fill byte (20 R150). -/
def Memory.write : Memory → Nat → Byte → Memory
  | [], a, v => if v = Config.dmemFill then [] else [(a, v)]
  | (b, x) :: m, a, v =>
    if a < b then (if v = Config.dmemFill then (b, x) :: m else (a, v) :: (b, x) :: m)
    else if a = b then (if v = Config.dmemFill then m else (a, v) :: m)
    else (b, x) :: Memory.write m a v

/-- The canonical form: addresses strictly rising, no entry equal to the fill byte. -/
abbrev Memory.wf (m : Memory) : Prop :=
  m.Pairwise (fun c d => c.1 < d.1) ∧ ∀ c ∈ m, c.2 ≠ Config.dmemFill

/-- Put an address into a rising list of addresses, once. -/
def insertAddr : List Nat → Nat → List Nat
  | [], a => [a]
  | b :: bs, a => if a < b then a :: b :: bs else if a = b then b :: bs else b :: insertAddr bs a

/-! ### What part of a command gives -/

/-- How a part of a command ends: with a value, with an outcome code raised (00 R17), or with a fault of the model. -/
inductive Res (α : Type) where
  | ok (a : α) (s : State)
  | raise (e : ErrCode) (s : State)
  | fault (f : Fault)
  deriving DecidableEq, Repr

/-- Go on with the next part of a command where this one ended with a value. -/
def Res.bind {α β : Type} (r : Res α) (k : α → State → Res β) : Res β :=
  match r with
  | .ok a s => k a s
  | .raise e s => .raise e s
  | .fault f => .fault f

/-- Completion: the outcome code is stored, BUSY falls and DONE rises, together with the command's other effects
(60 R506). This is how every error of the spec is taken: there is no vector and nothing else is saved (60 R508). -/
def complete (e : ErrCode) (s : State) : Host.Outcome State Fault Refusal :=
  .next { s with errcode := e, busy := false, done := true }

/-- The completion of a command whose body ended (60 R506). -/
def conclude {α : Type} : Res α → Host.Outcome State Fault Refusal
  | .ok _ s => complete .ok s
  | .raise e s => complete e s
  | .fault f => .fault f

/-! ### DMEM as the engine reaches it -/

/-- The address lies in the reader's latched buffer (43 R400). -/
def inReaderBuffer (br : Reader) (a : Nat) : Bool := decide (br.base.toNat ≤ a ∧ a < br.base.toNat + br.len.toNat)

/-- A byte is written: whoever writes it, a byte of the reader's buffer is from then on a changed one (70 R574). -/
def storeByte (a : Nat) (v : Byte) (s : State) : State :=
  { s with
    dmem := Memory.write s.dmem a v
    br := { s.br with changed := if inReaderBuffer s.br a then insertAddr s.br.changed a else s.br.changed } }

/-- `MemRead(addr, 1)` (00 R16). -/
def memRead (a : Nat) (s : State) : Res Byte :=
  if a < s.dmemSize then .ok (Memory.read s.dmem a) s else .fault (.engineNoSuchByte a)

/-- `MemWrite(addr, 1, v)` (00 R16). -/
def memWrite (a : Nat) (v : Byte) (s : State) : Res Unit :=
  if a < s.dmemSize then .ok () (storeByte a v s) else .fault (.engineNoSuchByte a)

/-- The bytes at `a`, `a + 1`, …, `n` of them, in order (20 R156). -/
def readBytes (a : Nat) : Nat → State → Res (List Byte)
  | 0, s => .ok [] s
  | n + 1, s => (memRead a s).bind fun b s => (readBytes (a + 1) n s).bind fun bs s => .ok (b :: bs) s

/-- `IN_BASE + IN_LEN ≤ DMEM_SIZE`, the sum exact (20 R157). -/
def inputInRange (s : State) : Bool := decide (s.inBase.toNat + s.inLen.toNat ≤ s.dmemSize)

/-- `OUT_BASE + OUT_CAP ≤ DMEM_SIZE`, the sum exact (20 R157). -/
def outputInRange (s : State) : Bool := decide (s.outBase.toNat + s.outCap.toNat ≤ s.dmemSize)

/-- The input and output ranges share a byte (20 R158). -/
def rangesOverlap (s : State) : Bool :=
  decide (0 < s.inLen.toNat ∧ 0 < s.outCap.toNat ∧ s.inBase.toNat < s.outBase.toNat + s.outCap.toNat
    ∧ s.outBase.toNat < s.inBase.toNat + s.inLen.toNat)

/-! ### Results -/

/-- The three result registers of a query command (10 R63). -/
def setResults (r0 r1 r2 : Word) (s : State) : State := { s with result0 := r0, result1 := r1, result2 := r2 }

/-! ### Issue, fetch, and what an illegal word does -/

/-- Issue: the word is stored in CMD, BUSY rises and DONE falls; ERRCODE keeps its value (60 R505). -/
def issue (w : Word) (s : State) : State := { s with cmd := w, busy := true, done := false }

/-- The command the engine has been issued (30 R212). -/
def fetch (s : State) : Except DecodeError Instr := decode s.cmd

/-- An illegal word completes with IllegalCommand and nothing else changes (30 R204, 60 R507). -/
def illegalWord (s : State) : Host.Outcome State Fault Refusal := complete .illegalCommand s

/-! ### The ranges a command in flight may touch -/

/-- A range of DMEM addresses: its first address and the first past it. -/
structure AddrRange where
  lo : Nat
  hi : Nat
  deriving DecidableEq, Repr

/-- The range holds the address. -/
def AddrRange.has (r : AddrRange) (a : Nat) : Bool := decide (r.lo ≤ a ∧ a < r.hi)

/-- No address. -/
def emptyRange : AddrRange := { lo := 0, hi := 0 }

/-- `[IN_BASE, IN_BASE + IN_LEN)` (10 R58). -/
def inputRange (s : State) : AddrRange := { lo := s.inBase.toNat, hi := s.inBase.toNat + s.inLen.toNat }

/-- `[OUT_BASE, OUT_BASE + OUT_CAP)` (10 R58). -/
def outputRange (s : State) : AddrRange := { lo := s.outBase.toNat, hi := s.outBase.toNat + s.outCap.toNat }

/-- `[br.base, br.base + br.len)` (70 R573). -/
def readerRange (s : State) : AddrRange := { lo := s.br.base.toNat, hi := s.br.base.toNat + s.br.len.toNat }

/-- `[bp.base + bp.bytes, bp.base + bp.cap)` (70 R573). -/
def packerRange (s : State) : AddrRange :=
  { lo := s.bp.base.toNat + s.bp.bytes.toNat, hi := s.bp.base.toNat + s.bp.cap.toNat }

/-- The read range R of a command (70 R573). -/
def readRangeOf (i : Instr) (s : State) : AddrRange :=
  match i with
  | .enc => inputRange s
  | .dec => inputRange s
  | .brReadBit => readerRange s
  | .brReadFixed _ => readerRange s
  | .nop => emptyRange
  | .ftClear => emptyRange
  | .ftAdd _ => emptyRange
  | .ftGet => emptyRange
  | .tbBuild => emptyRange
  | .tbNode => emptyRange
  | .ctDerive => emptyRange
  | .ctLookup _ => emptyRange
  | .bpInit => emptyRange
  | .bpAppendBit _ => emptyRange
  | .bpAppendSeq => emptyRange
  | .bpAppendFixed _ => emptyRange
  | .bpAppendCode _ => emptyRange
  | .bpFinish => emptyRange
  | .brInit => emptyRange
  | .brRemaining => emptyRange
  | .brPosition => emptyRange

/-- The write range W of a command (70 R573). -/
def writeRangeOf (i : Instr) (s : State) : AddrRange :=
  match i with
  | .enc => outputRange s
  | .dec => outputRange s
  | .bpAppendBit _ => packerRange s
  | .bpAppendSeq => packerRange s
  | .bpAppendFixed _ => packerRange s
  | .bpAppendCode _ => packerRange s
  | .bpFinish => packerRange s
  | .nop => emptyRange
  | .ftClear => emptyRange
  | .ftAdd _ => emptyRange
  | .ftGet => emptyRange
  | .tbBuild => emptyRange
  | .tbNode => emptyRange
  | .ctDerive => emptyRange
  | .ctLookup _ => emptyRange
  | .bpInit => emptyRange
  | .brInit => emptyRange
  | .brReadBit => emptyRange
  | .brReadFixed _ => emptyRange
  | .brRemaining => emptyRange
  | .brPosition => emptyRange

/-- R of the command in flight. A word that is illegal only for its WIDTH still names its command (log entry 7). -/
def readRange (s : State) : AddrRange :=
  if s.busy then
    match fetch s with
    | .ok i => readRangeOf i s
    | .error (.readWidth w) => readRangeOf (.brReadFixed w) s
    | .error (.appendWidth w) => readRangeOf (.bpAppendFixed w) s
    | .error .reservedBits => emptyRange
    | .error (.reservedOpcode _) => emptyRange
  else emptyRange

/-- W of the command in flight (log entry 7). -/
def writeRange (s : State) : AddrRange :=
  if s.busy then
    match fetch s with
    | .ok i => writeRangeOf i s
    | .error (.readWidth w) => writeRangeOf (.brReadFixed w) s
    | .error (.appendWidth w) => writeRangeOf (.bpAppendFixed w) s
    | .error .reservedBits => emptyRange
    | .error (.reservedOpcode _) => emptyRange
  else emptyRange

/-! ### Reset -/

/-- Every piece of core state takes its reset value; DMEM does not change, and the model's own fields stay
(10 R80, 70 R550, 20 R159). -/
def resetCore (s : State) : State :=
  { State.initial s.dmemSize s.dmem with draws := s.draws, agenda := s.agenda, reply := s.reply }

/-- Replace `n` bytes from `a` upward by draws (70 R552). -/
def drawBytes (a : Nat) : Nat → State → State
  | 0, s => s
  | n + 1, s =>
    drawBytes (a + 1) n
      { s with dmem := Memory.write s.dmem a (Config.freeByte s.draws), draws := s.draws + 1 }

/-- Reset, hardware or soft. While BUSY the command in flight is discarded, and every byte of DMEM in its write range
holds a draw (70 R550 to R552, log entry 6). -/
def reset (s : State) : State :=
  let w := writeRange s
  resetCore (drawBytes w.lo (min w.hi s.dmemSize - w.lo) s)

end Sys2Proof.Machine
end

