-- ==== Sys2Proof/Machine/FreqTable.lean ====
section
/-! DEFINITION. The frequency table: FT_CLEAR, FT_ADD and FT_GET (spec/40_tree_builder.md section 1). -/

namespace Sys2Proof.Machine

/-- Some entry of the table has this symbol (40 R253). -/
def ftHas (ft : List FtEntry) (sym : Byte) : Bool := ft.any fun e => e.sym == sym

/-- The table is emptied, and with it the tree and the code table become invalid (40 R251, R252). -/
def clearTable (s : State) : State := invalidate { s with ft := [] }

/-- FT_CLEAR (40 R252). -/
def execFtClear (s : State) : Host.Outcome State Fault Refusal := complete .ok (clearTable s)

/-- The body of FT_ADD: a symbol already in the table is refused (40 R253). -/
def ftAddBody (sym : Byte) (s : State) : Res Unit :=
  if ftHas s.ft sym then .raise .invalidInput s
  else .ok () (invalidate { s with ft := s.ft ++ [{ sym := sym, w := s.arg0 }] })

/-- FT_ADD (40 R253). -/
def execFtAdd (sym : Byte) (s : State) : Host.Outcome State Fault Refusal := conclude (ftAddBody sym s)

/-- The body of FT_GET: no entry at the index is a StateError (40 R254, R256). -/
def ftGetBody (s : State) : Res Unit :=
  match s.ft[s.arg0.toNat]? with
  | none => .raise .stateError s
  | some e => .ok () (setResults e.w (e.sym.setWidth 32) 0 s)

/-- FT_GET (40 R256). -/
def execFtGet (s : State) : Host.Outcome State Fault Refusal := conclude (ftGetBody s)

end Sys2Proof.Machine
end

