-- ==== Sys2Proof/Machine/TreeBuilder.lean ====
section
/-! DEFINITION. The tree builder: TB_BUILD and TB_NODE (spec/40_tree_builder.md section 2). -/

namespace Sys2Proof.Machine

/-- The leaves, in table order, each weight widened to 40 bits (40 R261). -/
def leavesOf (ft : List FtEntry) : List Node := ft.map fun e => .leaf e.sym (e.w.setWidth 40)

/-- `tree.node[j].w`. -/
def nodeWeight (nodes : List Node) (j : Nat) : Weight :=
  match nodes[j]? with
  | some nd => nd.weight
  | none => 0

/-- The leftmost index of minimal weight of the list `best :: js`: a later index replaces the best one so far only if
it is strictly lighter (40 R263). -/
def leftmostMin (nodes : List Node) (best : Nat) : List Nat → Nat
  | [] => best
  | j :: js => leftmostMin nodes (if nodeWeight nodes j < nodeWeight nodes best then j else best) js

/-- One merge: the two removals, the new node at the end of the node memory and of the working list (40 R263 to
R265). A list of fewer than two trees is left alone. -/
def mergeOnce (nodes : List Node) (work : List Nat) : List Node × List Nat :=
  match work with
  | [] => (nodes, work)
  | x :: xs =>
    let m1 := leftmostMin nodes x xs
    match work.erase m1 with
    | [] => (nodes, work)
    | y :: ys =>
      let m2 := leftmostMin nodes y ys
      (nodes ++ [.internal (BitVec.ofNat 9 m1) (BitVec.ofNat 9 m2) (nodeWeight nodes m1 + nodeWeight nodes m2)],
        ((y :: ys).erase m2) ++ [nodes.length])

/-- The merge loop, `while len(W) > 1` (40 R260); each merge makes the list one shorter, so as many turns as there are
leaves are enough. -/
def mergeLoop : Nat → List Node → List Nat → List Node × List Nat
  | 0, nodes, work => (nodes, work)
  | k + 1, nodes, work =>
    if work.length > 1 then
      let r := mergeOnce nodes work
      mergeLoop k r.1 r.2
    else (nodes, work)

/-- The tree of a frequency table (40 R260, R266). It depends on the ordered table alone (40 R268). -/
def buildTree (ft : List FtEntry) : Tree :=
  let r := mergeLoop ft.length (leavesOf ft) (List.range ft.length)
  { valid := true, root := r.2.headD 0, nodes := r.1 }

/-- The body of TB_BUILD, which ENC and DEC run too (40 R260, R267). -/
def tbBuildBody (s : State) : Res Unit :=
  if s.ft.isEmpty then .raise .invalidInput s
  else .ok () { s with tree := buildTree s.ft, ct := { s.ct with valid := false } }

/-- TB_BUILD (40 R260). -/
def execTbBuild (s : State) : Host.Outcome State Fault Refusal := conclude (tbBuildBody s)

/-- What TB_NODE reads of a node (40 R270). -/
def nodeResults (nd : Node) (s : State) : State :=
  setResults (nd.weight.setWidth 32) (nodeInfoWord nd) (nodeLinkWord nd) s

/-- The body of TB_NODE: no valid tree, or no node at the index, is a StateError (40 R254, R255, R270). -/
def tbNodeBody (s : State) : Res Unit :=
  if s.tree.valid then
    match s.tree.nodes[s.arg0.toNat]? with
    | none => .raise .stateError s
    | some nd => .ok () (nodeResults nd s)
  else .raise .stateError s

/-- TB_NODE (40 R270). -/
def execTbNode (s : State) : Host.Outcome State Fault Refusal := conclude (tbNodeBody s)

end Sys2Proof.Machine
end

