-- ==== Sys2Proof/Machine/CodeTable.lean ====
section
/-! DEFINITION. The code table: CT_DERIVE and CT_LOOKUP (spec/41_code_table.md). -/

namespace Sys2Proof.Machine

/-- A code table with no code: `ct.has[s] <- 0` for every symbol (41 R300). -/
def noCodes : Codes := Vector.replicate 256 none

/-- The code of a symbol, or none where `ct.has` is 0 (10 R72). -/
def codeOf (codes : Codes) (sym : Byte) : Option Bits := codes[sym.toNat]

/-- `ct.has[s] <- 1`, `ct.len[s] <- len(p)`, `ct.code[s] <- p` (41 R300). -/
def setCode (codes : Codes) (sym : Byte) (p : Bits) : Codes := codes.set sym.toNat (some p)

/-- `walk(i, p)` of 41 R300, to the depth the first argument allows. A node that is not there, or a walk that is
deeper than the tree has nodes, is no node of a tree the builder made (log entry 12). -/
def walkCodes (nodes : List Node) : Nat → Nat → Bits → Codes → Except Fault Codes
  | 0, i, _, _ => .error (.nodeUnspecified i)
  | depth + 1, i, p, acc =>
    match nodes[i]? with
    | none => .error (.nodeUnspecified i)
    | some (.leaf sym _) => .ok (setCode acc sym p)
    | some (.internal zero one _) =>
      match walkCodes nodes depth zero.toNat (p ++ [false]) acc with
      | .error f => .error f
      | .ok acc => walkCodes nodes depth one.toNat (p ++ [true]) acc

/-- The codes of a tree: `deriveCodes(tree)` (41 R300, R301). A pure function of the tree (41 R304). -/
def deriveCodes (t : Tree) : Except Fault Codes := walkCodes t.nodes t.nodes.length t.root [] noCodes

/-- The body of CT_DERIVE, which ENC runs too (41 R300). -/
def ctDeriveBody (s : State) : Res Unit :=
  if s.tree.valid then
    match deriveCodes s.tree with
    | .error f => .fault f
    | .ok codes => .ok () { s with ct := { valid := true, codes := codes } }
  else .raise .stateError s

/-- CT_DERIVE (41 R300). -/
def execCtDerive (s : State) : Host.Outcome State Fault Refusal := conclude (ctDeriveBody s)

/-- The code of a symbol in a valid code table, or none (41 R310, 42 R364). -/
def validCode (s : State) (sym : Byte) : Option Bits := if s.ct.valid then codeOf s.ct.codes sym else none

/-- The body of CT_LOOKUP: the code's length to RESULT0, the code to BITWIN (41 R310). -/
def ctLookupBody (sym : Byte) (s : State) : Res Unit :=
  match validCode s sym with
  | none => .raise .stateError s
  | some code => .ok () { setResults (BitVec.ofNat 32 code.length) 0 0 s with bitwin := bitwinOf code }

/-- CT_LOOKUP (41 R310). -/
def execCtLookup (sym : Byte) (s : State) : Host.Outcome State Fault Refusal := conclude (ctLookupBody sym s)

end Sys2Proof.Machine
end

