-- ==== Sys2Proof/Machine/BitPacker.lean ====
section
/-! DEFINITION. The bit packer: BP_INIT, the four append commands and BP_FINISH (spec/42_bit_packer.md). -/

namespace Sys2Proof.Machine

/-- The address the packer's next complete byte goes to, `bp.base + bp.bytes` (42 R351). -/
def packerAddr (s : State) : Nat := s.bp.base.toNat + s.bp.bytes.toNat

/-- The number of bits appended since BP_INIT, `8·bp.bytes + bp.cursor` (42 R350). -/
def packerBits (bp : Packer) : Nat := 8 * bp.bytes.toNat + bp.cursor.val

/-- `bp.cur` is written out and a new, empty partial byte starts (42 R351, R365). -/
def nextByte (bp : Packer) : Packer := { bp with bytes := bp.bytes + 1, cur := 0, cursor := 0 }

/-- The partial byte goes to DMEM and a new one starts (42 R351, R365). -/
def flushByte (v : Byte) (s : State) : Res Unit :=
  (memWrite (packerAddr s) v s).bind fun _ s => .ok () { s with bp := nextByte s.bp }

/-- `put(b)`: one bit at the cursor; the eighth bit of a byte sends it to DMEM (42 R350, R351). -/
def putBit (b : Bool) (s : State) : Res Unit :=
  let cur := setByteBit s.bp.cur (7 - s.bp.cursor.val) b
  if s.bp.cursor.val = 7 then flushByte cur s
  else .ok () { s with bp := { s.bp with cur := cur, cursor := s.bp.cursor + 1 } }

/-- `put` of each bit of a sequence, in order (42 R361). -/
def putBits : Bits → State → Res Unit
  | [], s => .ok () s
  | b :: bs, s => (putBit b s).bind fun _ s => putBits bs s

/-- `room(L)`: `ceil_div(8·bp.bytes + bp.cursor + L, 8) ≤ bp.cap` (42 R352). -/
def room (len : Nat) (s : State) : Bool := decide (ceilDiv (packerBits s.bp + len) 8 ≤ s.bp.cap.toNat)

/-- A sequence is appended whole, or not at all where it does not fit (42 R352, R361). -/
def appendSeq (seq : Bits) (s : State) : Res Unit :=
  if room seq.length s then putBits seq s else .raise .capacity s

/-- An empty packer on a range (42 R353). -/
def freshPacker (base cap : Word) : Packer :=
  { active := true, base := base, cap := cap, bytes := 0, cur := 0, cursor := 0 }

/-- The body of BP_INIT: the output range is checked, then latched (42 R353, 20 R157). -/
def bpInitBody (s : State) : Res Unit :=
  if outputInRange s then .ok () { s with bp := freshPacker s.outBase s.outCap } else .raise .address s

/-- BP_INIT (42 R353). -/
def execBpInit (s : State) : Host.Outcome State Fault Refusal := conclude (bpInitBody s)

/-- The body of BP_APPEND_BIT (42 R360, R354). -/
def bpAppendBitBody (bit : Bool) (s : State) : Res Unit :=
  if s.bp.active then appendSeq [bit] s else .raise .stateError s

/-- BP_APPEND_BIT (42 R360). -/
def execBpAppendBit (bit : Bool) (s : State) : Host.Outcome State Fault Refusal := conclude (bpAppendBitBody bit s)

/-- The longest sequence BP_APPEND_SEQ takes (30 R204, 42 R362). -/
def maxSeq : Nat := 255

/-- The body of BP_APPEND_SEQ: the first ARG1 bits of the BITWIN window (42 R362). -/
def bpAppendSeqBody (s : State) : Res Unit :=
  if maxSeq < s.arg1.toNat then .raise .illegalCommand s
  else if s.bp.active then appendSeq (bitwinSeq s.bitwin s.arg1.toNat) s
  else .raise .stateError s

/-- BP_APPEND_SEQ (42 R362). -/
def execBpAppendSeq (s : State) : Host.Outcome State Fault Refusal := conclude (bpAppendSeqBody s)

/-- The body of BP_APPEND_FIXED: ARG0 as `width` bits, most significant first; the checks in the order of 42 R363.
The decoder lets no width over 32 through (30 R203), and here too such a width is IllegalCommand (log entry 11). -/
def bpAppendFixedBody (width : BitVec 6) (s : State) : Res Unit :=
  if maxWidth < width.toNat then .raise .illegalCommand s
  else if !s.bp.active then .raise .stateError s
  else if 2 ^ width.toNat ≤ s.arg0.toNat then .raise .range s
  else appendSeq (msbBits s.arg0.toNat width.toNat) s

/-- BP_APPEND_FIXED (42 R363). -/
def execBpAppendFixed (width : BitVec 6) (s : State) : Host.Outcome State Fault Refusal :=
  conclude (bpAppendFixedBody width s)

/-- The body of BP_APPEND_CODE: no packer, no valid code table or no code is a StateError (42 R364). -/
def bpAppendCodeBody (sym : Byte) (s : State) : Res Unit :=
  if s.bp.active then
    match validCode s sym with
    | none => .raise .stateError s
    | some code => appendSeq code s
  else .raise .stateError s

/-- BP_APPEND_CODE (42 R364). -/
def execBpAppendCode (sym : Byte) (s : State) : Host.Outcome State Fault Refusal := conclude (bpAppendCodeBody sym s)

/-- The end of BP_FINISH: OUT_LEN is written and the packer is inactive (42 R365, R366). -/
def closePacker (s : State) : State := { s with outLen := s.bp.bytes, bp := { s.bp with active := false } }

/-- The body of BP_FINISH, which ENC runs too: a partial byte goes out, its open bits already 0 (42 R365). -/
def bpFinishBody (s : State) : Res Unit :=
  if s.bp.active then
    if 0 < s.bp.cursor.val then (flushByte s.bp.cur s).bind fun _ s => .ok () (closePacker s)
    else .ok () (closePacker s)
  else .raise .stateError s

/-- BP_FINISH (42 R365). -/
def execBpFinish (s : State) : Host.Outcome State Fault Refusal := conclude (bpFinishBody s)

end Sys2Proof.Machine
end

