-- ==== Sys2Proof/Machine/BitReader.lean ====
section
/-! DEFINITION. The bit reader: BR_INIT, the two reads, BR_REMAINING and BR_POSITION (spec/43_bit_reader.md). -/

namespace Sys2Proof.Machine

/-- `remaining() = 8·br.len − br.pos` (43 R402). -/
def remaining (s : State) : Nat := 8 * s.br.len.toNat - s.br.pos

/-- The address of the byte that holds the next bit, `br.base + (br.pos div 8)` (43 R400). -/
def readerAddr (s : State) : Nat := s.br.base.toNat + s.br.pos / 8

/-- The byte the reader gets from an address: what DMEM holds there, or a draw where the byte was written after the
buffer was latched (43 R401, 70 R574). -/
def readerByte (a : Nat) (s : State) : Res Byte :=
  (memRead a s).bind fun v s =>
    if a ∈ s.br.changed then .ok (Config.freeByte s.draws) { s with draws := s.draws + 1 } else .ok v s

/-- `get()`: the next bit, consumed (43 R400, R401). -/
def getBit (s : State) : Res Bool :=
  (readerByte (readerAddr s) s).bind fun v t =>
    .ok (streamBit v t.br.pos) { t with br := { t.br with pos := t.br.pos + 1 } }

/-- `v <- 2·v + get()`, as many times as the first argument says (43 R412). -/
def readFixedFrom : Nat → Nat → State → Res Nat
  | 0, v, s => .ok v s
  | w + 1, v, s => (getBit s).bind fun b s => readFixedFrom w (2 * v + b.toNat) s

/-- `readfixed(w)`: an unsigned number of `w` bits, most significant first (43 R412, 44 R480). -/
def readFixed (w : Nat) (s : State) : Res Nat := readFixedFrom w 0 s

/-- A reader at the start of a range, none of whose bytes has changed (43 R403, 70 R574). -/
def freshReader (base len : Word) : Reader := { active := true, base := base, len := len, pos := 0, changed := [] }

/-- The body of BR_INIT: the input range is checked, then latched (43 R403, 20 R157). -/
def brInitBody (s : State) : Res Unit :=
  if inputInRange s then .ok () { s with br := freshReader s.inBase s.inLen } else .raise .address s

/-- BR_INIT (43 R403). -/
def execBrInit (s : State) : Host.Outcome State Fault Refusal := conclude (brInitBody s)

/-- The body of BR_READ_BIT (43 R404, R405, R411). -/
def brReadBitBody (s : State) : Res Unit :=
  if !s.br.active then .raise .stateError s
  else if remaining s = 0 then .raise .endOfStream s
  else (getBit s).bind fun b s => .ok () (setResults (BitVec.ofNat 32 b.toNat) 0 0 s)

/-- BR_READ_BIT (43 R411). -/
def execBrReadBit (s : State) : Host.Outcome State Fault Refusal := conclude (brReadBitBody s)

/-- The body of BR_READ_FIXED; the checks in the order of 43 R412. The decoder lets no width over 32 through
(30 R203), and here too such a width is IllegalCommand (log entry 11). -/
def brReadFixedBody (width : BitVec 6) (s : State) : Res Unit :=
  if maxWidth < width.toNat then .raise .illegalCommand s
  else if !s.br.active then .raise .stateError s
  else if remaining s < width.toNat then .raise .endOfStream s
  else (readFixed width.toNat s).bind fun v s => .ok () (setResults (BitVec.ofNat 32 v) 0 0 s)

/-- BR_READ_FIXED (43 R412). -/
def execBrReadFixed (width : BitVec 6) (s : State) : Host.Outcome State Fault Refusal :=
  conclude (brReadFixedBody width s)

/-- A count of bits, up to 35 bits wide, to the result registers (43 R413, R414). -/
def countResults (n : Nat) (s : State) : State := setResults (lowWord n) (highWord35 n) 0 s

/-- The body of BR_REMAINING (43 R413). -/
def brRemainingBody (s : State) : Res Unit :=
  if s.br.active then .ok () (countResults (remaining s) s) else .raise .stateError s

/-- BR_REMAINING (43 R413). -/
def execBrRemaining (s : State) : Host.Outcome State Fault Refusal := conclude (brRemainingBody s)

/-- The body of BR_POSITION (43 R414). -/
def brPositionBody (s : State) : Res Unit :=
  if s.br.active then .ok () (countResults s.br.pos s) else .raise .stateError s

/-- BR_POSITION (43 R414). -/
def execBrPosition (s : State) : Host.Outcome State Fault Refusal := conclude (brPositionBody s)

end Sys2Proof.Machine
end

