-- ==== Sys2Proof/Machine/Codec.lean ====
section
/-! DEFINITION. The encoder and the decoder, ENC and DEC (spec/44_codec.md), over the units of the other files. -/

namespace Sys2Proof.Machine

/-- `fail E`: OUT_LEN is 0 and the code is raised (44 R460, R470, R480, R487). -/
def failCodec {α : Type} (e : ErrCode) (s : State) : Res α := .raise e { s with outLen := 0 }

/-- The range checks of ENC and DEC pass: both ranges lie in DMEM and they do not overlap (20 R157, R158). -/
def codecRangesOk (s : State) : Bool := inputInRange s && outputInRange s && !rangesOverlap s

/-! ### ENC -/

/-- One byte counted: its entry's weight grows by 1, or a new entry with weight 1 is added at the end (44 R461). -/
def countByte : List FtEntry → Byte → List FtEntry
  | [], c => [{ sym := c, w := 1 }]
  | e :: es, c => if e.sym = c then { e with w := e.w + 1 } :: es else e :: countByte es c

/-- The frequency table of an input, in the order of first occurrence (44 R461). -/
def countBytes (input : List Byte) : List FtEntry := input.foldl countByte []

/-- The code of an input byte; every input byte has one (44 R467). -/
def codeBits (codes : Codes) (c : Byte) : Bits := (codeOf codes c).getD []

/-- `P`, the payload length in bits: `Σ ft.w[i] · ct.len[ft.sym[i]]`, exact (44 R467). -/
def payloadBits (ft : List FtEntry) (codes : Codes) : Nat :=
  (ft.map fun e => e.w.toNat * (codeBits codes e.sym).length).sum

/-- The length of a container in bytes (44 R451). -/
def containerLen (n p : Nat) : Nat := 1 + 8 * n + ceilDiv p 8

/-- The two fields of a table entry in a header: its symbol, then its weight (44 R450, R466). -/
def entryBits (e : FtEntry) : Bits := msbBits e.sym.toNat 32 ++ msbBits e.w.toNat 32

/-- The header of a container: the count, then each symbol and weight in table order (44 R450, R466). -/
def headerBits (ft : List FtEntry) : Bits := msbBits ft.length 8 ++ ft.flatMap entryBits

/-- The payload: the code of each input byte, in order (44 R467). -/
def payloadSeq (codes : Codes) (input : List Byte) : Bits := input.flatMap (codeBits codes)

/-- Steps 4 to 6 of ENC: a new packer, header, payload, finish, results (44 R460, R466 to R469). -/
def encWrite (p : Nat) (s : State) : Res Unit :=
  (putBits (headerBits s.ft) { s with bp := freshPacker s.outBase s.outCap }).bind fun _ s =>
  (readBytes s.inBase.toNat s.inLen.toNat s).bind fun input s =>
  (putBits (payloadSeq s.ct.codes input) s).bind fun _ s =>
  (bpFinishBody s).bind fun _ s =>
  .ok () (setResults (lowWord p) (highWord40 p) 0 s)

/-- The checks between steps 3 and 4 of ENC, and what follows them: the count field (44 R464), then the capacity
(44 R465). -/
def encChecked (s : State) : Res Unit :=
  let p := payloadBits s.ft s.ct.codes
  if 255 < s.ft.length then failCodec .range s
  else if s.outCap.toNat < containerLen s.ft.length p then failCodec .capacity s
  else encWrite p s

/-- The body of ENC (44 R460). -/
def encBody (s : State) : Res Unit :=
  if !codecRangesOk s then .raise .address s
  else
    (readBytes s.inBase.toNat s.inLen.toNat (clearTable s)).bind fun input s =>
    let s := { s with ft := countBytes input }
    if s.ft.isEmpty then failCodec .invalidInput s
    else
      (tbBuildBody s).bind fun _ s =>
      (ctDeriveBody s).bind fun _ s =>
      encChecked s

/-- ENC (44 R460). -/
def execEnc (s : State) : Host.Outcome State Fault Refusal := conclude (encBody s)

/-! ### DEC -/

/-- The largest symbol (44 R482). -/
def maxSymbol : Nat := 255

/-- Step 2 of DEC: the (symbol, weight) pairs of the header, as many as the first argument says (44 R481, R482). -/
def decPairs : Nat → State → Res Unit
  | 0, s => .ok () s
  | n + 1, s =>
    if remaining s < 32 then failCodec .corruptHeader s
    else
      (readFixed 32 s).bind fun sym s =>
      if maxSymbol < sym then failCodec .range s
      else if ftHas s.ft (BitVec.ofNat 8 sym) then failCodec .corruptHeader s
      else if remaining s < 32 then failCodec .corruptHeader s
      else
        (readFixed 32 s).bind fun wt s =>
        decPairs n { s with ft := s.ft ++ [{ sym := BitVec.ofNat 8 sym, w := BitVec.ofNat 32 wt }] }

/-- Steps 1 and 2 of DEC: the count, then the pairs (44 R481). -/
def decHeader (s : State) : Res Unit :=
  if remaining s < 8 then failCodec .corruptHeader s
  else (readFixed 8 s).bind fun count s => decPairs count s

/-- One walk from a node to a leaf, one bit read at each internal node, to the depth the first argument allows
(44 R484). The tree is one the builder just made, so every walk ends at a leaf (40 R269, log entry 12). -/
def decWalk : Nat → Nat → State → Res Byte
  | 0, i, _ => .fault (.nodeUnspecified i)
  | depth + 1, i, s =>
    match s.tree.nodes[i]? with
    | none => .fault (.nodeUnspecified i)
    | some (.leaf sym _) => .ok sym s
    | some (.internal zero one _) =>
      if remaining s = 0 then failCodec .endOfStream s
      else (getBit s).bind fun b s => decWalk depth (if b then one.toNat else zero.toNat) s

/-- One symbol decoded, from the root (44 R484). -/
def decSymbol (s : State) : Res Byte := decWalk s.tree.nodes.length s.tree.root s

/-- Step 4 of DEC: as many symbols as the first argument says, to the addresses from `a` upward (44 R484). -/
def decPayload : Nat → Nat → State → Res Unit
  | 0, _, s => .ok () s
  | n + 1, a, s =>
    (decSymbol s).bind fun sym s =>
    (memWrite a sym s).bind fun _ s => decPayload n (a + 1) s

/-- `S`, the total weight of a table, exact (00 R23, 44 R484). -/
def totalWeight (ft : List FtEntry) : Nat := (ft.map fun e => e.w.toNat).sum

/-- Step 5 of DEC: OUT_LEN and the number of payload bits consumed (44 R485). -/
def decResult (count start : Nat) (s : State) : State :=
  countResults (s.br.pos - start) { s with outLen := BitVec.ofNat 32 count }

/-- Steps 3 to 5 of DEC: the tree (44 R483), the capacity, the payload (44 R484) and the result (44 R485). -/
def decRest (s : State) : Res Unit :=
  if s.ft.isEmpty then failCodec .invalidInput s
  else
    (tbBuildBody s).bind fun _ s =>
    let total := totalWeight s.ft
    if s.outCap.toNat < total then failCodec .capacity s
    else
      let start := s.br.pos
      (decPayload total s.outBase.toNat s).bind fun _ s => .ok () (decResult total start s)

/-- The body of DEC (44 R480). -/
def decBody (s : State) : Res Unit :=
  if !codecRangesOk s then .raise .address s
  else
    (decHeader { clearTable s with br := freshReader s.inBase s.inLen }).bind fun _ s => decRest s

/-- DEC (44 R480). -/
def execDec (s : State) : Host.Outcome State Fault Refusal := conclude (decBody s)

end Sys2Proof.Machine
end

