-- ==== Sys2Proof/Machine/Control.lean ====
section
/-! DEFINITION. The control command NOP (spec/45_control.md). -/

namespace Sys2Proof.Machine

/-- NOP does nothing but complete (45 R490). -/
def execNop (s : State) : Host.Outcome State Fault Refusal := complete .ok s

end Sys2Proof.Machine
end

