-- ==== Sys2Proof/Machine/Dispatch.lean ====
section
/-! DEFINITION. One arm per command (spec/30_encoding.md R210). -/

namespace Sys2Proof.Machine

/-- The engine step of one decoded command: its whole effect and its completion (00 R21, 60 R506). -/
def exec (i : Instr) (s : State) : Host.Outcome State Fault Refusal :=
  match i with
  | .nop => Sys2Proof.Machine.execNop s
  | .ftClear => Sys2Proof.Machine.execFtClear s
  | .ftAdd sym => Sys2Proof.Machine.execFtAdd sym s
  | .ftGet => Sys2Proof.Machine.execFtGet s
  | .tbBuild => Sys2Proof.Machine.execTbBuild s
  | .tbNode => Sys2Proof.Machine.execTbNode s
  | .ctDerive => Sys2Proof.Machine.execCtDerive s
  | .ctLookup sym => Sys2Proof.Machine.execCtLookup sym s
  | .bpInit => Sys2Proof.Machine.execBpInit s
  | .bpAppendBit bit => Sys2Proof.Machine.execBpAppendBit bit s
  | .bpAppendSeq => Sys2Proof.Machine.execBpAppendSeq s
  | .bpAppendFixed width => Sys2Proof.Machine.execBpAppendFixed width s
  | .bpAppendCode sym => Sys2Proof.Machine.execBpAppendCode sym s
  | .bpFinish => Sys2Proof.Machine.execBpFinish s
  | .brInit => Sys2Proof.Machine.execBrInit s
  | .brReadBit => Sys2Proof.Machine.execBrReadBit s
  | .brReadFixed width => Sys2Proof.Machine.execBrReadFixed width s
  | .brRemaining => Sys2Proof.Machine.execBrRemaining s
  | .brPosition => Sys2Proof.Machine.execBrPosition s
  | .enc => Sys2Proof.Machine.execEnc s
  | .dec => Sys2Proof.Machine.execDec s

end Sys2Proof.Machine
end

