-- ==== Sys2Proof/Machine/HostRegs.lean ====
section
/-! DEFINITION. The register map and what a host read or write of each register does (spec/10_state.md R51 to R65). -/

namespace Sys2Proof.Machine

/-- The registers of the map (10 R51). -/
inductive HostReg where
  | id | ctrl | status | cmd | arg0 | arg1 | inBase | inLen | outBase | outCap | outLen | ftCount | tbRoot | tbNodes
  | bpBytes | bpState | brPosLo | brPosHi | result0 | result1 | result2
  | bitwin (j : Fin 8)
  deriving DecidableEq, Repr

/-- The offset of a register in the window (10 R51). -/
def regOffset : HostReg → BitVec 8
  | .id => 0x00#8
  | .ctrl => 0x04#8
  | .status => 0x08#8
  | .cmd => 0x0C#8
  | .arg0 => 0x10#8
  | .arg1 => 0x14#8
  | .inBase => 0x18#8
  | .inLen => 0x1C#8
  | .outBase => 0x20#8
  | .outCap => 0x24#8
  | .outLen => 0x28#8
  | .ftCount => 0x2C#8
  | .tbRoot => 0x30#8
  | .tbNodes => 0x34#8
  | .bpBytes => 0x38#8
  | .bpState => 0x3C#8
  | .brPosLo => 0x40#8
  | .brPosHi => 0x44#8
  | .result0 => 0x48#8
  | .result1 => 0x4C#8
  | .result2 => 0x50#8
  | .bitwin j => 0x60#8 + BitVec.ofNat 8 (4 * j.val)

/-- The register at an offset; the other offsets are reserved (10 R51). -/
def regAt (offset : BitVec 8) : Option HostReg :=
  match offset.toNat with
  | 0x00 => some .id
  | 0x04 => some .ctrl
  | 0x08 => some .status
  | 0x0C => some .cmd
  | 0x10 => some .arg0
  | 0x14 => some .arg1
  | 0x18 => some .inBase
  | 0x1C => some .inLen
  | 0x20 => some .outBase
  | 0x24 => some .outCap
  | 0x28 => some .outLen
  | 0x2C => some .ftCount
  | 0x30 => some .tbRoot
  | 0x34 => some .tbNodes
  | 0x38 => some .bpBytes
  | 0x3C => some .bpState
  | 0x40 => some .brPosLo
  | 0x44 => some .brPosHi
  | 0x48 => some .result0
  | 0x4C => some .result1
  | 0x50 => some .result2
  | 0x60 => some (.bitwin 0)
  | 0x64 => some (.bitwin 1)
  | 0x68 => some (.bitwin 2)
  | 0x6C => some (.bitwin 3)
  | 0x70 => some (.bitwin 4)
  | 0x74 => some (.bitwin 5)
  | 0x78 => some (.bitwin 6)
  | 0x7C => some (.bitwin 7)
  | _ => none

/-- The access is a 32-bit one at an offset that is a multiple of 4; the core ignores every other (10 R52). -/
def accessOk (offset : BitVec 8) (width : Nat) : Bool := decide (width = 32 ∧ offset.toNat % 4 = 0)

/-- ID reads the constant "HUFF" (10 R53). -/
def idWord : Word := 0x48554646#32

/-- BP_STATE: the cursor at [2:0], the partial byte at [15:8] (10 R61). -/
def bpStateWord (bp : Packer) : Word := 0#16 ++ bp.cur ++ 0#5 ++ BitVec.ofNat 3 bp.cursor.val

/-- What a register reads while BUSY = 0 (10 R53 to R64). -/
def regValue (r : HostReg) (s : State) : Word :=
  match r with
  | .id => idWord
  | .ctrl => ctrlWord s
  | .status => statusWord s
  | .cmd => s.cmd
  | .arg0 => s.arg0
  | .arg1 => s.arg1
  | .inBase => s.inBase
  | .inLen => s.inLen
  | .outBase => s.outBase
  | .outCap => s.outCap
  | .outLen => s.outLen
  | .ftCount => BitVec.ofNat 32 (slice s.ft.length 8 0)
  | .tbRoot => if s.tree.valid then BitVec.ofNat 32 (slice s.tree.root 8 0) else 0
  | .tbNodes => if s.tree.valid then BitVec.ofNat 32 (slice s.tree.nn 9 0) else 0
  | .bpBytes => s.bp.bytes
  | .bpState => bpStateWord s.bp
  | .brPosLo => lowWord s.br.pos
  | .brPosHi => highWord35 s.br.pos
  | .result0 => s.result0
  | .result1 => s.result1
  | .result2 => s.result2
  | .bitwin j => s.bitwin[j]

/-- The registers that read their current value even while BUSY = 1 (10 R65). -/
def readableWhileBusy : HostReg → Bool
  | .id => true
  | .ctrl => true
  | .status => true
  | .cmd => true
  | .arg0 => true
  | .arg1 => true
  | .inBase => true
  | .inLen => true
  | .outBase => true
  | .outCap => true
  | .outLen => false
  | .ftCount => false
  | .tbRoot => false
  | .tbNodes => false
  | .bpBytes => false
  | .bpState => false
  | .brPosLo => false
  | .brPosHi => false
  | .result0 => false
  | .result1 => false
  | .result2 => false
  | .bitwin _ => false

/-- A value goes back to the host. -/
def answer (r : HostReply) (s : State) : State := { s with reply := some r }

/-- A 32-bit read of a register: its value, or a draw (10 R65, 70 R575). -/
def readReg (r : HostReg) (s : State) : State :=
  if s.busy && !readableWhileBusy r then
    { answer (.register (Config.freeWord s.draws)) s with draws := s.draws + 1 }
  else answer (.register (regValue r s)) s

/-- A host read of the register window: reserved offsets and other accesses read 0 (10 R51, R52). -/
def hostRegRead (offset : BitVec 8) (width : Nat) (s : State) : State :=
  if accessOk offset width then
    match regAt offset with
    | some r => readReg r s
    | none => answer (.register 0) s
  else answer (.register 0) s

/-- A write of a register that is closed while BUSY = 1: dropped then, and LOST is set (10 R52, 70 R561); so is a command
statement issued while an earlier command is still BUSY (30 R221). -/
def writeWhenIdle (s t : State) : State := if s.busy then { s with lost := true } else t

/-- A write to CTRL: bit 0 resets the core, whatever the other bits are; else bit 1 goes to IRQ_EN (10 R54,
70 R551). -/
def writeCtrl (v : Word) (s : State) : State :=
  if v.getLsbD 0 then reset s else { s with irqEn := v.getLsbD 1 }

/-- A 32-bit write of a register; a read-only register ignores it (10 R52). -/
def writeReg (r : HostReg) (v : Word) (s : State) : State :=
  match r with
  | .id => s
  | .ctrl => writeCtrl v s
  | .status => writeStatus v s
  | .cmd => writeWhenIdle s (issue v s)
  | .arg0 => writeWhenIdle s { s with arg0 := v }
  | .arg1 => writeWhenIdle s { s with arg1 := v }
  | .inBase => writeWhenIdle s { s with inBase := v }
  | .inLen => writeWhenIdle s { s with inLen := v }
  | .outBase => writeWhenIdle s { s with outBase := v }
  | .outCap => writeWhenIdle s { s with outCap := v }
  | .outLen => s
  | .ftCount => s
  | .tbRoot => s
  | .tbNodes => s
  | .bpBytes => s
  | .bpState => s
  | .brPosLo => s
  | .brPosHi => s
  | .result0 => s
  | .result1 => s
  | .result2 => s
  | .bitwin j => writeWhenIdle s { s with bitwin := s.bitwin.set j v }

/-- A host write of the register window: reserved offsets and other accesses change nothing (10 R51, R52). -/
def hostRegWrite (offset : BitVec 8) (width : Nat) (v : Word) (s : State) : State :=
  if accessOk offset width then
    match regAt offset with
    | some r => writeReg r v s
    | none => s
  else s

end Sys2Proof.Machine
end

