-- ==== Sys2Proof/Machine/HostMove.lean ====
section
/-! DEFINITION. The six moves of the host and the core's response to each (spec/70_reset_and_hazards.md R570). -/

namespace Sys2Proof.Machine

/-- A host write of one byte of DMEM. While BUSY it must miss the ranges R and W of the command in flight
(70 R573, 20 R166); a byte of the reader's buffer becomes a changed one (70 R574). -/
def hostDmemWrite (a : Nat) (v : Byte) (s : State) : Host.Outcome State Fault Refusal :=
  if s.dmemSize ≤ a then .fault (.hostNoSuchByte a)
  else if (readRange s).has a || (writeRange s).has a then .fault (.hostDutyBroken a)
  else .next (storeByte a v s)

/-- A host read of one byte of DMEM. While BUSY it must miss the range W of the command in flight (70 R573). -/
def hostDmemRead (a : Nat) (s : State) : Host.Outcome State Fault Refusal :=
  if s.dmemSize ≤ a then .fault (.hostNoSuchByte a)
  else if (writeRange s).has a then .fault (.hostDutyBroken a)
  else .next (answer (.byte (Memory.read s.dmem a)) s)

/-- One host move, an atomic step of the host (70 R570). -/
def hostMove (m : HostMove) (s : State) : Host.Outcome State Fault Refusal :=
  match m with
  | .regWrite offset width v => .next (hostRegWrite offset width v s)
  | .regRead offset width => .next (hostRegRead offset width s)
  | .dmemWrite a v => hostDmemWrite a.toNat v s
  | .dmemRead a => hostDmemRead a.toNat s
  | .hardwareReset => .next (reset s)
  | .observeIrq => .next (answer (.line (irq s)) s)

end Sys2Proof.Machine
end

