-- ==== Sys2Proof/Machine/Engine.lean ====
section
/-! DEFINITION. The engine's step, the turn that comes next, and how a command word comes to be the next one
(spec/00_scope.md R21, spec/60_exceptions.md R505 to R507). -/

namespace Sys2Proof.Machine

/-- The engine's step is enabled while BUSY = 1: the command in flight, whole; an illegal word completes with
IllegalCommand (60 R506, R507). While BUSY = 0 the engine does nothing (60 R523). -/
def engineStep (s : State) : Host.Outcome State Fault Refusal :=
  if s.busy then
    match fetch s with
    | .ok i => exec i s
    | .error _ => illegalWord s
  else .next s

/-- The next turn of the agenda. With none left the host makes no move, and the engine takes its step if it is
enabled: that is the fairness of 70 R580 (log entry 1). -/
def takeTurn (s : State) : Host.Outcome State Fault Refusal :=
  match s.agenda with
  | [] => engineStep s
  | .engine :: rest => engineStep { s with agenda := rest }
  | .host m :: rest => hostMove m { s with agenda := rest }

/-- The command word is issued and the engine moves next (log entry 9). -/
def issueNext (w : Word) (s : State) : State := { issue w s with agenda := .engine :: s.agenda }

end Sys2Proof.Machine
end

