-- ==== Sys2Proof/Machine/Step.lean ====
section
/-! DEFINITION. One step of the machine: one agent's turn (spec/00_scope.md R19, R21). -/

namespace Sys2Proof.Machine

/-- One step: the turn that comes next (00 R21, 70 R570). -/
def step (s : State) : Host.Outcome State Fault Refusal := takeTurn s

/-- The command word is in CMD, issued, and the engine's turn is next, so that the next step runs it. The core fetches
nothing from memory: a command comes only through CMD (20 R169, log entry 9). -/
def State.withFetchWord (s : State) (nbits w : Nat) : State := issueNext (tableWord nbits w) s

end Sys2Proof.Machine
end

