-- ==== Sys2Proof/Machine/HostProgram.lean ====
section
/-! DEFINITION. The host-program notation (spec/30_encoding.md R220, R221): each statement as the turns it stands
for. -/

namespace Sys2Proof.Machine

/-- A statement of a host program: the four of 30 R220, and the pseudo-instructions of R221. -/
inductive Stmt where
  /-- `WR <REG>, <value>`. -/
  | wr (reg : HostReg) (value : Word)
  /-- `RD <REG>`. -/
  | rd (reg : HostReg)
  /-- `MEM <addr>: <byte> …`, the host writing bytes from `addr` upward. -/
  | mem (addr : Word) (bytes : List Byte)
  /-- A command statement: one write of the command word to CMD; while BUSY it is dropped, as `writeWhenIdle` says
  (30 R221, 10 R52). -/
  | command (instr : Instr)
  /-- `WAIT`: RD STATUS until BUSY reads 0. -/
  | wait
  /-- `CHECK <code>`: RD STATUS, whose ERRCODE must be `code`. -/
  | check (code : ErrCode)
  /-- `ADD <s>, <weight>`. -/
  | add (sym : Byte) (weight : Word)
  /-- `PUTFIXED <value>, <w>`. -/
  | putfixed (value : Word) (width : BitVec 6)
  /-- `CLRDONE`. -/
  | clrdone
  /-- `SRESET`. -/
  | sreset
  /-- `SETIN <base>, <len>`. -/
  | setin (base len : Word)
  /-- `SETOUT <base>, <cap>`. -/
  | setout (base cap : Word)
  deriving DecidableEq, Repr

/-- A 32-bit write of a register (30 R220). -/
def wrTurn (reg : HostReg) (v : Word) : Turn := .host (.regWrite (regOffset reg) 32 v)

/-- A 32-bit read of a register (30 R220). -/
def rdTurn (reg : HostReg) : Turn := .host (.regRead (regOffset reg) 32)

/-- The write of a command word to CMD (30 R220). -/
def commandTurn (i : Instr) : Turn := wrTurn .cmd (encode i)

/-- The writes of `MEM`, from an address upward (30 R220). DESIGN CHOICE, log entry 25: the next address is counted in 32
bits, so a byte after the one at 0xFFFFFFFF goes to address 0. -/
def memTurns (a : Word) : List Byte → List Turn
  | [] => []
  | b :: bs => .host (.dmemWrite a b) :: memTurns (a + 1) bs

/-- `WAIT`, in the interleaving in which the engine's step comes before the poll that ends the loop; every poll before
it is an `RD STATUS` of its own (30 R221, log entry 19). -/
def waitTurns : List Turn := [.engine, rdTurn .status]

/-- The turns of one statement (30 R220, R221). -/
def Stmt.turns : Stmt → List Turn
  | .wr r v => [wrTurn r v]
  | .rd r => [rdTurn r]
  | .mem a bs => memTurns a bs
  | .command i => [commandTurn i]
  | .wait => waitTurns
  | .check _ => [rdTurn .status]
  | .add sym w => [wrTurn .arg0 w, commandTurn (.ftAdd sym)] ++ waitTurns
  | .putfixed v w => [wrTurn .arg0 v, commandTurn (.bpAppendFixed w)] ++ waitTurns
  | .clrdone => [wrTurn .status 0x00000002#32]
  | .sreset => [wrTurn .ctrl 0x00000001#32]
  | .setin base len => [wrTurn .inBase base, wrTurn .inLen len]
  | .setout base cap => [wrTurn .outBase base, wrTurn .outCap cap]

/-- What `CHECK <code>` asserts of the reply to its read: ERRCODE, bits 11:8, is the code (30 R221). -/
def checkHolds (code : ErrCode) (s : State) : Bool :=
  match s.reply with
  | some (.register v) => v.extractLsb' 8 4 == code.code
  | _ => false

/-- A host program placed on the agenda, after what stands there (30 R220). -/
def loadProgram (prog : List Stmt) (s : State) : State := { s with agenda := s.agenda ++ prog.flatMap Stmt.turns }

/-- The end of a run: the host has made its last move and BUSY = 0 (70 R576). -/
def runEnded (s : State) : Bool := s.agenda.isEmpty && !s.busy

end Sys2Proof.Machine
end

