-- ==== Sys2Proof/Safety.lean ====
section
/-! DEFINITION. What a good state is, what a safe run is, and the words claims use: the invariant every step keeps, whose
turn it is, and the host's duty (spec/70_reset_and_hazards.md R573). -/

namespace Sys2Proof.Machine

/-- DMEM has a legal size (00 R11) and is in canonical form, every listed byte below DMEM_SIZE (20 R150). -/
structure DmemOk (s : State) : Prop where
  sizePos : 1 ≤ s.dmemSize
  sizeLe : s.dmemSize ≤ 2 ^ 32
  canonical : Memory.wf s.dmem
  bounded : ∀ c ∈ s.dmem, c.1 < s.dmemSize

/-- The symbols of the frequency table are pairwise distinct (10 R70). -/
def FtOk (s : State) : Prop := (s.ft.map FtEntry.sym).Nodup

/-- A valid tree is the tree of the current, not empty table (40 R251, 10 R71). -/
def TreeOk (s : State) : Prop := s.tree.valid = true → s.ft ≠ [] ∧ s.tree = buildTree s.ft

/-- A valid code table holds the codes of the current, valid tree (41 R304, 10 R72). -/
def CtOk (s : State) : Prop := s.ct.valid = true → s.tree.valid = true ∧ deriveCodes s.tree = .ok s.ct.codes

/-- The packer's range lies in DMEM, its bits fit its capacity, and the bits of the partial byte at or after the cursor
are 0 (10 R73, 42 R352). -/
structure PackerOk (s : State) : Prop where
  inDmem : s.bp.base.toNat + s.bp.cap.toNat ≤ s.dmemSize
  fits : packerBits s.bp ≤ 8 * s.bp.cap.toNat
  openBits : ∀ i, i + s.bp.cursor.val < 8 → s.bp.cur.getLsbD i = false

/-- The reader's buffer lies in DMEM, its cursor in the buffer, and its changed bytes are bytes of the buffer, each
listed once by rising address (10 R74, 70 R574). -/
structure ReaderOk (s : State) : Prop where
  inDmem : s.br.base.toNat + s.br.len.toNat ≤ s.dmemSize
  posLe : s.br.pos ≤ 8 * s.br.len.toNat
  rising : s.br.changed.Pairwise (· < ·)
  inBuffer : ∀ a ∈ s.br.changed, inReaderBuffer s.br a = true

/-- DONE is 0 while a command is in flight: issue clears it and completion sets it as BUSY falls (60 R505, R506). -/
def StatusOk (s : State) : Prop := s.busy = true → s.done = false

/-- The invariant of the core: it holds at reset and every step keeps it. -/
structure Inv (s : State) : Prop where
  dmem : DmemOk s
  ft : FtOk s
  tree : TreeOk s
  ct : CtOk s
  bp : PackerOk s
  br : ReaderOk s
  status : StatusOk s

/-- The engine has the next turn: the agenda says so, or the host has no move left (log entry 1). -/
def engineNext (s : State) : Bool :=
  match s.agenda with
  | [] => true
  | .engine :: _ => true
  | .host _ :: _ => false

/-- The state a turn starts from: the turn is off the agenda. -/
def afterTurn (s : State) : State := { s with agenda := s.agenda.tail }

/-- What completion leaves of a state: the outcome code is stored, BUSY is 0 and DONE is 1 (60 R506). -/
def completed (e : ErrCode) (s : State) : State := { s with errcode := e, busy := false, done := true }

/-- The four validity and activity flags (10 R77). -/
structure Flags where
  tree : Bool
  ct : Bool
  bp : Bool
  br : Bool
  deriving DecidableEq, Repr

/-- The flags of a state (10 R77). -/
def flagsOf (s : State) : Flags :=
  { tree := s.tree.valid, ct := s.ct.valid, bp := s.bp.active, br := s.br.active }

/-- The flags after a command with an outcome code, from the flags before it: the table of 70 R556, row by row. -/
def flagsAfter (i : Instr) (e : ErrCode) (f : Flags) : Flags :=
  match i, e with
  | .ftClear, .ok => { f with tree := false, ct := false }
  | .ftAdd _, .ok => { f with tree := false, ct := false }
  | .tbBuild, .ok => { f with tree := true, ct := false }
  | .ctDerive, .ok => { f with ct := true }
  | .bpInit, .ok => { f with bp := true }
  | .bpFinish, .ok => { f with bp := false }
  | .brInit, .ok => { f with br := true }
  | .enc, .ok => { f with tree := true, ct := true, bp := false }
  | .enc, .invalidInput => { f with tree := false, ct := false }
  | .enc, .range => { f with tree := true, ct := true }
  | .enc, .capacity => { f with tree := true, ct := true }
  | .dec, .ok => { f with tree := true, ct := false, br := true }
  | .dec, .corruptHeader => { f with tree := false, ct := false, br := true }
  | .dec, .range => { f with tree := false, ct := false, br := true }
  | .dec, .invalidInput => { f with tree := false, ct := false, br := true }
  | .dec, .capacity => { f with tree := true, ct := false, br := true }
  | .dec, .endOfStream => { f with tree := true, ct := false, br := true }
  | _, _ => f

/-- The outcome codes a command can report once its word is legal (60 R500, R504). -/
def outcomes : Instr → List ErrCode
  | .nop => [.ok]
  | .ftClear => [.ok]
  | .ftAdd _ => [.ok, .invalidInput]
  | .ftGet => [.ok, .stateError]
  | .tbBuild => [.ok, .invalidInput]
  | .tbNode => [.ok, .stateError]
  | .ctDerive => [.ok, .stateError]
  | .ctLookup _ => [.ok, .stateError]
  | .bpInit => [.ok, .address]
  | .bpAppendBit _ => [.ok, .stateError, .capacity]
  | .bpAppendSeq => [.ok, .illegalCommand, .stateError, .capacity]
  | .bpAppendFixed _ => [.ok, .illegalCommand, .stateError, .range, .capacity]
  | .bpAppendCode _ => [.ok, .stateError, .capacity]
  | .bpFinish => [.ok, .stateError]
  | .brInit => [.ok, .address]
  | .brReadBit => [.ok, .stateError, .endOfStream]
  | .brReadFixed _ => [.ok, .illegalCommand, .stateError, .endOfStream]
  | .brRemaining => [.ok, .stateError]
  | .brPosition => [.ok, .stateError]
  | .enc => [.ok, .address, .invalidInput, .range, .capacity]
  | .dec => [.ok, .address, .corruptHeader, .range, .invalidInput, .capacity, .endOfStream]

/-- The command may read the byte: it lies in the read range R of the table of 70 R573. -/
def mayRead (i : Instr) (s : State) (a : Nat) : Prop :=
  match i with
  | .enc | .dec => s.inBase.toNat ≤ a ∧ a < s.inBase.toNat + s.inLen.toNat
  | .brReadBit | .brReadFixed _ => s.br.base.toNat ≤ a ∧ a < s.br.base.toNat + s.br.len.toNat
  | _ => False

/-- The command may write the byte: it lies in the write range W of the table of 70 R573. -/
def mayWrite (i : Instr) (s : State) (a : Nat) : Prop :=
  match i with
  | .enc | .dec => s.outBase.toNat ≤ a ∧ a < s.outBase.toNat + s.outCap.toNat
  | .bpAppendBit _ | .bpAppendSeq | .bpAppendFixed _ | .bpAppendCode _ | .bpFinish =>
    s.bp.base.toNat + s.bp.bytes.toNat ≤ a ∧ a < s.bp.base.toNat + s.bp.cap.toNat
  | _ => False

/-- A host move keeps the host's duty: it reaches only bytes that exist and that the command in flight leaves alone
(70 R573). Every other kind of move is a liberty of the host (70 R572). -/
def moveKeepsDuty (m : HostMove) (s : State) : Bool :=
  match m with
  | .dmemWrite a _ => decide (a.toNat < s.dmemSize) && !(readRange s).has a.toNat && !(writeRange s).has a.toNat
  | .dmemRead a => decide (a.toNat < s.dmemSize) && !(writeRange s).has a.toNat
  | .regWrite _ _ _ => true
  | .regRead _ _ => true
  | .hardwareReset => true
  | .observeIrq => true

/-- The next turn keeps the host's duty. -/
def dutyKept (s : State) : Bool :=
  match s.agenda with
  | .host m :: _ => moveKeepsDuty m s
  | _ => true

/-- The bit at stream position `q` of the packer's buffer: in DMEM once its byte is complete, else in the partial byte
(42 R350, R351). -/
def packedBit (s : State) (q : Nat) : Bool :=
  if q / 8 < s.bp.bytes.toNat then streamBit (Memory.read s.dmem (s.bp.base.toNat + q / 8)) q
  else streamBit s.bp.cur q

/-- The addresses of the bytes the packer completed between two states. -/
def packedNow (s t : State) (a : Nat) : Prop := packerAddr s ≤ a ∧ a < packerAddr t

/-- What appending a sequence to the packer does (42 R350, R351, R361, R367): the stream grows by the sequence and keeps
its earlier bits, DMEM changes only at the bytes completed, those of them in the reader's buffer become changed ones, and
nothing else changes. -/
structure Appended (seq : Bits) (s t : State) : Prop where
  rest : t = { s with bp := t.bp, dmem := t.dmem, br := { s.br with changed := t.br.changed } }
  latched : t.bp.active = s.bp.active ∧ t.bp.base = s.bp.base ∧ t.bp.cap = s.bp.cap
  count : packerBits t.bp = packerBits s.bp + seq.length
  earlier : ∀ q, q < packerBits s.bp → packedBit t q = packedBit s q
  appended : ∀ i, i < seq.length → packedBit t (packerBits s.bp + i) = seq.getD i false
  otherBytes : ∀ a, ¬packedNow s t a → Memory.read t.dmem a = Memory.read s.dmem a
  changedBytes : ∀ a, a ∈ t.br.changed ↔ a ∈ s.br.changed ∨ (inReaderBuffer s.br a = true ∧ packedNow s t a)

/-- The bit at stream position `p` of the bytes that start at an address of DMEM (20 R154). -/
def dmemBit (s : State) (base p : Nat) : Bool := streamBit (Memory.read s.dmem (base + p / 8)) p

/-- What finishing the packer does (42 R365): the stream goes out with zero bits up to a byte boundary, OUT_LEN is its
number of bytes, the packer is inactive with an empty partial byte, DMEM changes at no other byte, and nothing else
changes. -/
structure Finished (s t : State) : Prop where
  rest : t = { s with bp := t.bp, outLen := t.outLen, dmem := t.dmem,
                      br := { s.br with changed := t.br.changed } }
  latched : t.bp.base = s.bp.base ∧ t.bp.cap = s.bp.cap
  closed : t.bp.active = false ∧ t.bp.cur = 0 ∧ t.bp.cursor = 0
  length : t.bp.bytes.toNat = ceilDiv (packerBits s.bp) 8 ∧ t.outLen = t.bp.bytes
  stream : ∀ q, q < packerBits s.bp → dmemBit t s.bp.base.toNat q = packedBit s q
  padding : ∀ q, packerBits s.bp ≤ q → q < 8 * t.bp.bytes.toNat → dmemBit t s.bp.base.toNat q = false
  otherBytes : ∀ a, ¬packedNow s t a → Memory.read t.dmem a = Memory.read s.dmem a
  changedBytes : ∀ a, a ∈ t.br.changed ↔ a ∈ s.br.changed ∨ (inReaderBuffer s.br a = true ∧ packedNow s t a)

/-- The input bytes of ENC and DEC, `[IN_BASE, IN_BASE + IN_LEN)` (10 R58). -/
def inputBytes (s : State) : List Byte := (List.range s.inLen.toNat).map fun k => Memory.read s.dmem (s.inBase.toNat + k)

/-- The address lies in the first `n` bytes from OUT_BASE on. -/
def inOutput (s : State) (n a : Nat) : Prop := s.outBase.toNat ≤ a ∧ a < s.outBase.toNat + n

/-- What a successful ENC does (44 R460 to R469), `codes` being the code table it derives: the table, the tree and the
codes are those of the input; the bits of the container are the header, the payload and zero bits to a byte boundary, at
OUT_BASE; OUT_LEN, RESULT and the packer are as R468 and R469 say; DMEM changes at no other byte, and nothing else
changes. -/
structure Encoded (codes : Codes) (s t : State) : Prop where
  rest : t = { s with
    ft := countBytes (inputBytes s), tree := buildTree (countBytes (inputBytes s)),
    ct := { valid := true, codes := codes }, bp := t.bp, outLen := t.outLen, dmem := t.dmem,
    br := { s.br with changed := t.br.changed },
    result0 := lowWord (payloadSeq codes (inputBytes s)).length,
    result1 := highWord40 (payloadSeq codes (inputBytes s)).length, result2 := 0 }
  derived : deriveCodes (buildTree (countBytes (inputBytes s))) = .ok codes
  packer : t.bp.active = false ∧ t.bp.base = s.outBase ∧ t.bp.cap = s.outCap ∧ t.bp.bytes = t.outLen ∧ t.bp.cur = 0 ∧
    t.bp.cursor = 0
  length : t.outLen.toNat =
    containerLen (countBytes (inputBytes s)).length (payloadSeq codes (inputBytes s)).length
  container : ∀ q, q < 8 * t.outLen.toNat → dmemBit t s.outBase.toNat q =
    (headerBits (countBytes (inputBytes s)) ++ payloadSeq codes (inputBytes s)).getD q false
  otherBytes : ∀ a, ¬inOutput s t.outLen.toNat a → Memory.read t.dmem a = Memory.read s.dmem a
  changedBytes : ∀ a, a ∈ t.br.changed ↔
    a ∈ s.br.changed ∨ (inReaderBuffer s.br a = true ∧ inOutput s t.outLen.toNat a)

/-- The input range of ENC and DEC as a bit stream, first bit first (20 R154). -/
def inputBits (s : State) : Bits := (List.range (8 * s.inLen.toNat)).map (dmemBit s s.inBase.toNat)

/-- The ranges of ENC and DEC: both lie in DMEM and they share no byte (20 R157, R158). -/
def codecRanges (s : State) : Prop :=
  s.inBase.toNat + s.inLen.toNat ≤ s.dmemSize ∧ s.outBase.toNat + s.outCap.toNat ≤ s.dmemSize ∧
    ¬(0 < s.inLen.toNat ∧ 0 < s.outCap.toNat ∧ s.inBase.toNat < s.outBase.toNat + s.outCap.toNat ∧
      s.outBase.toNat < s.inBase.toNat + s.inLen.toNat)

/-- The reader as DEC latches it, `pos` bits on (44 R480). -/
def latchedAt (s : State) (pos : Nat) : Reader :=
  { active := true, base := s.inBase, len := s.inLen, pos := pos, changed := [] }

/-- What DEC leaves when it stops in the header with an error: the entries read, no tree, no codes, the reader at `pos`,
OUT_LEN 0, and nothing else changed (44 R487). -/
def headerStopped (ft : List FtEntry) (pos : Nat) (s : State) : State :=
  { s with ft := ft, tree := { s.tree with valid := false }, ct := { s.ct with valid := false },
           br := latchedAt s pos, outLen := 0 }

/-- What DEC leaves once it decoded `out` of a container whose table is `ft`: the table and its tree, no codes, the reader
`pos` bits on, the symbols at OUT_BASE, and no other byte of DMEM, and nothing else but OUT_LEN and RESULT, changed
(44 R484 to R487). -/
structure Decoded (ft : List FtEntry) (pos : Nat) (out : List Byte) (s t : State) : Prop where
  rest : t = { s with ft := ft, tree := buildTree ft, ct := { s.ct with valid := false }, br := latchedAt s pos,
                      dmem := t.dmem, outLen := t.outLen, result0 := t.result0, result1 := t.result1,
                      result2 := t.result2 }
  output : ∀ k, k < out.length → Memory.read t.dmem (s.outBase.toNat + k) = out.getD k 0
  otherBytes : ∀ a, ¬inOutput s out.length a → Memory.read t.dmem a = Memory.read s.dmem a

/-- The bit at stream position `p` of the reader's buffer, as DMEM holds it (43 R400). -/
def bufferBit (s : State) (p : Nat) : Bool := streamBit (Memory.read s.dmem (s.br.base.toNat + p / 8)) p

/-- The `n` bits of the reader's buffer from stream position `p` on. -/
def bufferSeq (s : State) (p n : Nat) : Bits := (List.range n).map fun i => bufferBit s (p + i)

/-- None of the bytes that hold the `n` bits from stream position `p` on was written since the buffer was latched
(70 R574). -/
def unchangedBits (s : State) (p n : Nat) : Prop := ∀ i, i < n → s.br.base.toNat + (p + i) / 8 ∉ s.br.changed

/-- The state after the reader consumed `n` bits without a draw (43 R401). -/
def consumed (n : Nat) (s : State) : State := { s with br := { s.br with pos := s.br.pos + n } }

/-- Tree `j` is in the working set when node `k` is made: it is a node below `k`, and no node below `k` has it as a
child (40 R262, R265). -/
def inWorkingSet (nodes : List Node) (k j : Nat) : Prop :=
  j < k ∧ ∀ i zero one w, i < k → nodes[i]? = some (.internal zero one w) → j ≠ zero.toNat ∧ j ≠ one.toNat

/-- The key order of 40 R265: smaller weight, and among equal weights smaller index. -/
def keyLe (nodes : List Node) (i j : Nat) : Prop :=
  (nodeWeight nodes i).toNat < (nodeWeight nodes j).toNat ∨
    ((nodeWeight nodes i).toNat = (nodeWeight nodes j).toNat ∧ i ≤ j)

/-- Node `k` is the merge the rules ask for: its zero-branch is the least tree of the working set, its one-branch the
least of what remains, and its weight their exact sum (40 R263 to R265). -/
def mergedAt (nodes : List Node) (k : Nat) : Prop :=
  ∃ zero one w, nodes[k]? = some (.internal zero one w) ∧ zero ≠ one ∧
    inWorkingSet nodes k zero.toNat ∧ inWorkingSet nodes k one.toNat ∧
    (∀ j, inWorkingSet nodes k j → keyLe nodes zero.toNat j) ∧
    (∀ j, inWorkingSet nodes k j → j ≠ zero.toNat → keyLe nodes one.toNat j) ∧
    w.toNat = (nodeWeight nodes zero.toNat).toNat + (nodeWeight nodes one.toNat).toNat

/-- The node a bit sequence leads to from a node, the zero-branch on 0 and the one-branch on 1 (41 R301, 44 R484). -/
def follow (nodes : List Node) : Nat → Bits → Option Nat
  | i, [] => some i
  | i, b :: bs =>
    match nodes[i]? with
    | some (.internal zero one _) => follow nodes (if b then one.toNat else zero.toNat) bs
    | _ => none

/-- The bit sequence leads from the root of a tree to a leaf of the symbol (41 R301). -/
def leadsTo (t : Tree) (code : Bits) (sym : Byte) : Prop :=
  ∃ l w, follow t.nodes t.root code = some l ∧ t.nodes[l]? = some (.leaf sym w)

/-- A safe step ends in a next state. -/
def StepIsSafe (s : State) : Prop := ∃ t, step s = .next t

end Sys2Proof.Machine
end

