-- ==== Sys2Proof/Certificates/Slice0/Obligations.lean ====
section
/-! DEFINITION. The statements for the provers. Each docstring names the rules of spec/ its statement rests on. -/

open Sys2Proof Sys2Proof.Machine

/-! ### The command word (spec/30_encoding.md) -/

/-- Decoding the word of a well-formed instruction gives the instruction, at every value of its fields (30 R200, R210,
R220). -/
def Obligations.DecodeOfEncode : Prop :=
  ∀ i : Instr, i.wellFormed = true → decode (encode i) = .ok i

/-- The opcode map: `match` under the mask 0xFF0080FF, and the operand fields of the pattern (30 R210, R201). -/
def Obligations.OpcodeMap : Prop :=
  ∀ w : Word,
    (w &&& 0xFF0080FF#32 = 0x00#32 → decode w = .ok .nop) ∧
    (w &&& 0xFF0080FF#32 = 0x10#32 → decode w = .ok .ftClear) ∧
    (w &&& 0xFF0080FF#32 = 0x11#32 → decode w = .ok (.ftAdd (w.extractLsb' 16 8))) ∧
    (w &&& 0xFF0080FF#32 = 0x12#32 → decode w = .ok .ftGet) ∧
    (w &&& 0xFF0080FF#32 = 0x13#32 → decode w = .ok .tbBuild) ∧
    (w &&& 0xFF0080FF#32 = 0x14#32 → decode w = .ok .tbNode) ∧
    (w &&& 0xFF0080FF#32 = 0x20#32 → decode w = .ok .ctDerive) ∧
    (w &&& 0xFF0080FF#32 = 0x21#32 → decode w = .ok (.ctLookup (w.extractLsb' 16 8))) ∧
    (w &&& 0xFF0080FF#32 = 0x30#32 → decode w = .ok .bpInit) ∧
    (w &&& 0xFF0080FF#32 = 0x31#32 → decode w = .ok (.bpAppendBit (w.getLsbD 14))) ∧
    (w &&& 0xFF0080FF#32 = 0x32#32 → decode w = .ok .bpAppendSeq) ∧
    (w &&& 0xFF0080FF#32 = 0x33#32 → (w.extractLsb' 8 6).toNat ≤ 32 →
      decode w = .ok (.bpAppendFixed (w.extractLsb' 8 6))) ∧
    (w &&& 0xFF0080FF#32 = 0x34#32 → decode w = .ok (.bpAppendCode (w.extractLsb' 16 8))) ∧
    (w &&& 0xFF0080FF#32 = 0x35#32 → decode w = .ok .bpFinish) ∧
    (w &&& 0xFF0080FF#32 = 0x40#32 → decode w = .ok .brInit) ∧
    (w &&& 0xFF0080FF#32 = 0x41#32 → decode w = .ok .brReadBit) ∧
    (w &&& 0xFF0080FF#32 = 0x42#32 → (w.extractLsb' 8 6).toNat ≤ 32 →
      decode w = .ok (.brReadFixed (w.extractLsb' 8 6))) ∧
    (w &&& 0xFF0080FF#32 = 0x43#32 → decode w = .ok .brRemaining) ∧
    (w &&& 0xFF0080FF#32 = 0x44#32 → decode w = .ok .brPosition) ∧
    (w &&& 0xFF0080FF#32 = 0x50#32 → decode w = .ok .enc) ∧
    (w &&& 0xFF0080FF#32 = 0x51#32 → decode w = .ok .dec)

/-- Two words with the same opcode and reserved fields decode alike if they agree on the operand field the opcode uses:
SYM for FT_ADD, CT_LOOKUP and BP_APPEND_CODE, BIT for BP_APPEND_BIT, WIDTH for BP_APPEND_FIXED and BR_READ_FIXED; every
other field may hold any value (30 R202). -/
def Obligations.UnusedFieldsAreIgnored : Prop :=
  ∀ w w' : Word, w &&& 0xFF0080FF#32 = w' &&& 0xFF0080FF#32 →
    ((w.extractLsb' 0 8).toNat ∈ [0x11, 0x21, 0x34] → w.extractLsb' 16 8 = w'.extractLsb' 16 8) →
    ((w.extractLsb' 0 8).toNat = 0x31 → w.getLsbD 14 = w'.getLsbD 14) →
    ((w.extractLsb' 0 8).toNat ∈ [0x33, 0x42] → w.extractLsb' 8 6 = w'.extractLsb' 8 6) →
    decode w = decode w'

/-- The decoder is total, and refuses exactly the words with a reserved bit set, an opcode outside the map, or a WIDTH
over 32 on the two commands that use it (30 R203, R211, R212). -/
def Obligations.IllegalWords : Prop :=
  ∀ w : Word, (∃ e, decode w = .error e) ↔
    (w &&& 0xFF008000#32 ≠ 0#32 ∨
      (w.extractLsb' 0 8).toNat ∉ [0x00, 0x10, 0x11, 0x12, 0x13, 0x14, 0x20, 0x21, 0x30, 0x31, 0x32, 0x33, 0x34, 0x35,
        0x40, 0x41, 0x42, 0x43, 0x44, 0x50, 0x51] ∨
      ((w.extractLsb' 0 8).toNat ∈ [0x33, 0x42] ∧ 32 < (w.extractLsb' 8 6).toNat))

/-- Words written out from 30 R200 and R210, one of each family, and the instruction each stands for. -/
def Obligations.SampleWords : Prop :=
  decode 0x00FF7F00#32 = .ok .nop ∧ decode 0x00610011#32 = .ok (.ftAdd 0x61#8) ∧
    decode 0x00000014#32 = .ok .tbNode ∧ decode 0x00620021#32 = .ok (.ctLookup 0x62#8) ∧
    decode 0x00004031#32 = .ok (.bpAppendBit true) ∧ decode 0x00002033#32 = .ok (.bpAppendFixed 32#6) ∧
    decode 0x00000342#32 = .ok (.brReadFixed 3#6) ∧ decode 0x00000050#32 = .ok .enc ∧
    decode 0x01000000#32 = .error .reservedBits ∧ decode 0x00000052#32 = .error (.reservedOpcode 0x52#8)

/-! ### Turns (spec/00_scope.md R21, spec/60_exceptions.md R505 to R507) -/

/-- The engine's step runs the decoded command whole, on the state with the turn taken off the agenda (00 R21,
60 R506). Whose turn it is rests on log entry 1. -/
def Obligations.StepRunsDecodedCommand : Prop :=
  ∀ (s : State) (i : Instr), engineNext s = true → s.busy = true → decode s.cmd = .ok i →
    step s = exec i (afterTurn s)

/-- The other turns: a host move is made whole in one step, and the idle engine does nothing (70 R570, 60 R523). The
agenda is the model's own (log entry 1). -/
def Obligations.OtherTurns : Prop :=
  ∀ s : State,
    (∀ m rest, s.agenda = .host m :: rest → step s = hostMove m (afterTurn s)) ∧
    (engineNext s = true → s.busy = false → step s = .next (afterTurn s))

/-- An illegal word completes with IllegalCommand, and nothing else changes (60 R507). -/
def Obligations.IllegalWordCompletes : Prop :=
  ∀ (s : State) (e : DecodeError), engineNext s = true → s.busy = true → decode s.cmd = .error e →
    step s = .next (completed .illegalCommand (afterTurn s))

/-- WIDTH is legal from 0 to 32 on BP_APPEND_FIXED and BR_READ_FIXED; from 33 to 63 the command completes with
IllegalCommand and no other effect (30 R203). -/
def Obligations.WidthCheck : Prop :=
  ∀ s : State, s.cmd &&& 0xFF0080FF#32 = 0x33#32 ∨ s.cmd &&& 0xFF0080FF#32 = 0x42#32 →
    ((s.cmd.extractLsb' 8 6).toNat ≤ 32 → ∃ i, i.wellFormed = true ∧ decode s.cmd = .ok i) ∧
    (33 ≤ (s.cmd.extractLsb' 8 6).toNat → engineNext s = true → s.busy = true →
      step s = .next (completed .illegalCommand (afterTurn s)))

/-! ### The host registers (spec/10_state.md section 2) -/

/-- Issue: a 32-bit write to CMD while BUSY = 0 stores the word, sets BUSY and clears DONE; ERRCODE keeps its value and
the engine's step is then enabled (60 R505). -/
def Obligations.CmdWriteIssues : Prop :=
  ∀ (s : State) (w : Word), s.busy = false →
    hostMove (.regWrite 0x0C#8 32 w) s = .next { s with cmd := w, busy := true, done := false }

/-- A write to an operand register while BUSY = 0 stores the value, and that is all (10 R52, R57, R58, R64). -/
def Obligations.OperandWrites : Prop :=
  ∀ (s : State) (v : Word), s.busy = false →
    hostMove (.regWrite 0x10#8 32 v) s = .next { s with arg0 := v } ∧
    hostMove (.regWrite 0x14#8 32 v) s = .next { s with arg1 := v } ∧
    hostMove (.regWrite 0x18#8 32 v) s = .next { s with inBase := v } ∧
    hostMove (.regWrite 0x1C#8 32 v) s = .next { s with inLen := v } ∧
    hostMove (.regWrite 0x20#8 32 v) s = .next { s with outBase := v } ∧
    hostMove (.regWrite 0x24#8 32 v) s = .next { s with outCap := v } ∧
    ∀ j : Fin 8, hostMove (.regWrite (BitVec.ofNat 8 (0x60 + 4 * j.val)) 32 v) s =
      .next { s with bitwin := s.bitwin.set j v }

/-- A write to CMD, an operand register or BITWIN while BUSY = 1 is dropped and sets LOST: it is neither stored nor queued
(10 R52, 60 R509, 70 R561). -/
def Obligations.WritesWhileBusyAreDropped : Prop :=
  ∀ (s : State) (o : BitVec 8) (v : Word), s.busy = true →
    o.toNat ∈ [0x0C, 0x10, 0x14, 0x18, 0x1C, 0x20, 0x24, 0x60, 0x64, 0x68, 0x6C, 0x70, 0x74, 0x78, 0x7C] →
    hostMove (.regWrite o 32 v) s = .next { s with lost := true }

/-- Writes to STATUS and CTRL take effect whether or not BUSY is 1: bit 1 of a STATUS write clears DONE and bit 3 clears
LOST; a CTRL write with bit 0 = 0 sets IRQ_EN from bit 1; all other bits are ignored (10 R52, R54, R55). -/
def Obligations.StatusAndCtrlWrites : Prop :=
  ∀ (s : State) (v : Word),
    hostMove (.regWrite 0x08#8 32 v) s =
      .next { s with done := s.done && !v.getLsbD 1, lost := s.lost && !v.getLsbD 3 } ∧
    (v.getLsbD 0 = false → hostMove (.regWrite 0x04#8 32 v) s = .next { s with irqEn := v.getLsbD 1 })

/-- Accesses that do nothing: of another width or alignment, at an offset the map does not list, or a write to a read-only
register; such a read answers 0 where no register answers it (10 R51, R52). That such an access while BUSY = 1 leaves LOST
alone is the model's reading (log entry 15). -/
def Obligations.IgnoredAccesses : Prop :=
  ∀ (s : State) (o : BitVec 8) (width : Nat) (v : Word),
    (width ≠ 32 ∨ o.toNat % 4 ≠ 0 ∨ (0x54 ≤ o.toNat ∧ o.toNat ≤ 0x5F) ∨ 0x80 ≤ o.toNat →
      hostMove (.regWrite o width v) s = .next s ∧
      hostMove (.regRead o width) s = .next { s with reply := some (.register 0#32) }) ∧
    (o.toNat ∈ [0x00, 0x28, 0x2C, 0x30, 0x34, 0x38, 0x3C, 0x40, 0x44, 0x48, 0x4C, 0x50] →
      hostMove (.regWrite o width v) s = .next s)

/-- STATUS reads, at any time, BUSY, DONE, ERR, LOST, the four flags and ERRCODE, bit by bit, with zeros above; the
numbers of the outcome codes (10 R55, 60 R500). -/
def Obligations.StatusRead : Prop :=
  (∀ s : State, ∃ w : Word,
    hostMove (.regRead 0x08#8 32) s = .next { s with reply := some (.register w) } ∧
    w.getLsbD 0 = s.busy ∧ w.getLsbD 1 = s.done ∧ w.getLsbD 2 = decide (s.errcode ≠ .ok) ∧ w.getLsbD 3 = s.lost ∧
    w.getLsbD 4 = s.tree.valid ∧ w.getLsbD 5 = s.ct.valid ∧ w.getLsbD 6 = s.bp.active ∧ w.getLsbD 7 = s.br.active ∧
    w.extractLsb' 8 4 = s.errcode.code ∧ w.extractLsb' 12 20 = 0#20) ∧
  ErrCode.ok.code = 0#4 ∧ ErrCode.invalidInput.code = 1#4 ∧ ErrCode.range.code = 2#4 ∧
  ErrCode.corruptHeader.code = 3#4 ∧ ErrCode.endOfStream.code = 4#4 ∧ ErrCode.illegalCommand.code = 5#4 ∧
  ErrCode.stateError.code = 6#4 ∧ ErrCode.capacity.code = 7#4 ∧ ErrCode.address.code = 8#4

/-- The registers that hold a word read it back, and reading changes nothing: ID, CTRL and the operand registers at any
time, OUT_LEN, RESULT and BITWIN while BUSY = 0 (10 R53, R54, R56 to R59, R63, R64, 20 R161). -/
def Obligations.PlainReads : Prop :=
  ∀ s : State,
    hostMove (.regRead 0x00#8 32) s = .next { s with reply := some (.register 0x48554646#32) } ∧
    hostMove (.regRead 0x04#8 32) s = .next { s with reply := some (.register (if s.irqEn then 2#32 else 0#32)) } ∧
    hostMove (.regRead 0x0C#8 32) s = .next { s with reply := some (.register s.cmd) } ∧
    hostMove (.regRead 0x10#8 32) s = .next { s with reply := some (.register s.arg0) } ∧
    hostMove (.regRead 0x14#8 32) s = .next { s with reply := some (.register s.arg1) } ∧
    hostMove (.regRead 0x18#8 32) s = .next { s with reply := some (.register s.inBase) } ∧
    hostMove (.regRead 0x1C#8 32) s = .next { s with reply := some (.register s.inLen) } ∧
    hostMove (.regRead 0x20#8 32) s = .next { s with reply := some (.register s.outBase) } ∧
    hostMove (.regRead 0x24#8 32) s = .next { s with reply := some (.register s.outCap) } ∧
    (s.busy = false →
      hostMove (.regRead 0x28#8 32) s = .next { s with reply := some (.register s.outLen) } ∧
      hostMove (.regRead 0x48#8 32) s = .next { s with reply := some (.register s.result0) } ∧
      hostMove (.regRead 0x4C#8 32) s = .next { s with reply := some (.register s.result1) } ∧
      hostMove (.regRead 0x50#8 32) s = .next { s with reply := some (.register s.result2) } ∧
      ∀ j : Fin 8, hostMove (.regRead (BitVec.ofNat 8 (0x60 + 4 * j.val)) 32) s =
        .next { s with reply := some (.register s.bitwin[j]) })

/-- The view registers while BUSY = 0: FT_COUNT, TB_ROOT and TB_NODES (0 without a valid tree), BP_BYTES, the fields of
BP_STATE, and the 35 bits of `br.pos` in BR_POS_LO and BR_POS_HI (10 R60, R61, R62). The premises are the invariant's
bounds on the table, the tree and the cursor. -/
def Obligations.ViewReads : Prop :=
  ∀ s : State, s.busy = false → FtOk s → TreeOk s → ReaderOk s →
    ∃ count root nodes bytes state lo hi : Word,
      hostMove (.regRead 0x2C#8 32) s = .next { s with reply := some (.register count) } ∧
      count.toNat = s.ft.length ∧
      hostMove (.regRead 0x30#8 32) s = .next { s with reply := some (.register root) } ∧
      root.toNat = (if s.tree.valid then s.tree.root else 0) ∧
      hostMove (.regRead 0x34#8 32) s = .next { s with reply := some (.register nodes) } ∧
      nodes.toNat = (if s.tree.valid then s.tree.nn else 0) ∧
      hostMove (.regRead 0x38#8 32) s = .next { s with reply := some (.register bytes) } ∧
      bytes = s.bp.bytes ∧
      hostMove (.regRead 0x3C#8 32) s = .next { s with reply := some (.register state) } ∧
      state.toNat = s.bp.cursor.val + 256 * s.bp.cur.toNat ∧
      hostMove (.regRead 0x40#8 32) s = .next { s with reply := some (.register lo) } ∧
      hostMove (.regRead 0x44#8 32) s = .next { s with reply := some (.register hi) } ∧
      lo.toNat + 2 ^ 32 * hi.toNat = s.br.pos

/-- While BUSY = 1 a read of OUT_LEN, a view register, RESULT or BITWIN answers a free draw, and nothing but the draw's
number changes; ID, CTRL, STATUS, CMD and the operand registers draw nothing (10 R65, 70 R575; log entry 4). -/
def Obligations.ReadsWhileBusy : Prop :=
  ∀ (s : State) (o : BitVec 8), s.busy = true →
    (o.toNat ∈ [0x28, 0x2C, 0x30, 0x34, 0x38, 0x3C, 0x40, 0x44, 0x48, 0x4C, 0x50, 0x60, 0x64, 0x68, 0x6C, 0x70, 0x74,
        0x78, 0x7C] →
      hostMove (.regRead o 32) s =
        .next { s with reply := some (.register (Config.freeWord s.draws)), draws := s.draws + 1 }) ∧
    (o.toNat ∈ [0x00, 0x04, 0x08, 0x0C, 0x10, 0x14, 0x18, 0x1C, 0x20, 0x24] →
      ∃ w, hostMove (.regRead o 32) s = .next { s with reply := some (.register w) })

/-- The line is `DONE and IRQ_EN`: a function of the registers, raised at once by setting IRQ_EN while DONE = 1, masked
without clearing DONE by clearing it, lowered by an issue or by clearing DONE, and raised by a completion whatever its
outcome (60 R512, R513). -/
def Obligations.IrqLine : Prop :=
  ∀ s : State,
    hostMove .observeIrq s = .next { s with reply := some (.line (s.done && s.irqEn)) } ∧
    (∀ v : Word, v.getLsbD 0 = false → ∃ t, hostMove (.regWrite 0x04#8 32 v) s = .next t ∧
      t.done = s.done ∧ irq t = (s.done && v.getLsbD 1)) ∧
    (∀ v : Word, ∃ t, hostMove (.regWrite 0x08#8 32 v) s = .next t ∧ irq t = (irq s && !v.getLsbD 1)) ∧
    (∀ w : Word, s.busy = false → ∃ t, hostMove (.regWrite 0x0C#8 32 w) s = .next t ∧ irq t = false) ∧
    (∀ (i : Instr) (t : State), exec i s = .next t → irq t = s.irqEn)

/-! ### DMEM as the host reaches it (spec/20_memory.md, spec/70_reset_and_hazards.md R570 to R574) -/

/-- While the core is idle the host reads the bytes of DMEM and writes them: the byte written reads back, every other byte
and everything else is as before, but for a byte of the reader's buffer, which is a changed one from then on (20 R150,
R161, 70 R570, R574). -/
def Obligations.HostDmem : Prop :=
  ∀ (s : State) (a : Word) (v : Byte), DmemOk s → s.busy = false → a.toNat < s.dmemSize →
    hostMove (.dmemRead a) s = .next { s with reply := some (.byte (Memory.read s.dmem a.toNat)) } ∧
    ∃ t, hostMove (.dmemWrite a v) s = .next t ∧
      t = { s with dmem := t.dmem, br := { s.br with changed := t.br.changed } } ∧
      (∀ b, Memory.read t.dmem b = if b = a.toNat then v else Memory.read s.dmem b) ∧
      (∀ b, b ∈ t.br.changed ↔ b ∈ s.br.changed ∨
        (b = a.toNat ∧ s.br.base.toNat ≤ b ∧ b < s.br.base.toNat + s.br.len.toNat))

/-- The host's DMEM duty while a command is in flight: a write to a byte of its read or write range, or a read of a byte
of its write range, is a fault of the run; every other access to a byte that exists is allowed (70 R573). -/
def Obligations.HostDuty : Prop :=
  ∀ (s : State) (i : Instr) (a : Word) (v : Byte), s.busy = true → decode s.cmd = .ok i → a.toNat < s.dmemSize →
    (mayRead i s a.toNat ∨ mayWrite i s a.toNat →
      hostMove (.dmemWrite a v) s = .fault (.hostDutyBroken a.toNat)) ∧
    (¬mayRead i s a.toNat → ¬mayWrite i s a.toNat →
      hostMove (.dmemWrite a v) s = .next (storeByte a.toNat v s)) ∧
    (mayWrite i s a.toNat → hostMove (.dmemRead a) s = .fault (.hostDutyBroken a.toNat)) ∧
    (¬mayWrite i s a.toNat →
      hostMove (.dmemRead a) s = .next { s with reply := some (.byte (Memory.read s.dmem a.toNat)) })

/-! ### Reset (spec/70_reset_and_hazards.md section 1) -/

/-- After a hardware reset or a soft reset, at any time, every piece of core state has the value of the table of 10 R80,
every register of the map reads its reset value, and the line is deasserted; DMEM is not changed (10 R80, R51, 70 R550,
R551), but for a reset while a command is in flight (70 R552). -/
def Obligations.ResetValues : Prop :=
  ∀ (s : State) (m : HostMove),
    m = .hardwareReset ∨ (∃ v : Word, v.getLsbD 0 = true ∧ m = .regWrite 0x04#8 32 v) → ∃ t, hostMove m s = .next t ∧
    t.irqEn = false ∧ t.busy = false ∧ t.done = false ∧ t.lost = false ∧ t.errcode = .ok ∧ irq t = false ∧
    t.cmd = 0#32 ∧ t.arg0 = 0#32 ∧ t.arg1 = 0#32 ∧ t.inBase = 0#32 ∧ t.inLen = 0#32 ∧ t.outBase = 0#32 ∧
    t.outCap = 0#32 ∧ t.outLen = 0#32 ∧ t.result0 = 0#32 ∧ t.result1 = 0#32 ∧ t.result2 = 0#32 ∧
    (∀ j : Fin 8, t.bitwin[j] = 0#32) ∧ t.ft.length = 0 ∧
    t.tree.valid = false ∧ t.tree.nn = 0 ∧ t.tree.root = 0 ∧ t.ct.valid = false ∧
    t.bp.active = false ∧ t.bp.base = 0#32 ∧ t.bp.cap = 0#32 ∧ t.bp.bytes = 0#32 ∧ t.bp.cur = 0#8 ∧
    t.bp.cursor = 0 ∧ t.br.active = false ∧ t.br.base = 0#32 ∧ t.br.len = 0#32 ∧ t.br.pos = 0 ∧
    (s.busy = false → t.dmem = s.dmem) ∧ t.dmemSize = s.dmemSize ∧
    ∀ o : BitVec 8, hostMove (.regRead o 32) t =
      .next { t with reply := some (.register (if o = 0x00#8 then 0x48554646#32 else 0#32)) }

/-- A soft reset has exactly the effect of a hardware reset, at any time and whatever the other written bits are; bit 0 of
CTRL reads 0 at all times (70 R551). -/
def Obligations.SoftReset : Prop :=
  (∀ (s : State) (v : Word), v.getLsbD 0 = true →
    hostMove (.regWrite 0x04#8 32 v) s = hostMove .hardwareReset s) ∧
  (∀ s : State, ∃ w : Word, hostMove (.regRead 0x04#8 32) s = .next { s with reply := some (.register w) } ∧
    w.getLsbD 0 = false)

/-- A reset while a command is in flight: the core is reset and reports nothing, every byte of the command's write range
that exists holds a draw of its own, and every other byte keeps its value (70 R552; log entries 4 and 6). -/
def Obligations.ResetDuringCommand : Prop :=
  ∀ (s : State) (i : Instr), DmemOk s → s.busy = true → decode s.cmd = .ok i →
    ∃ (t : State) (draw : Nat → Nat), hostMove .hardwareReset s = .next t ∧
      t = { State.initial s.dmemSize t.dmem with draws := t.draws, agenda := s.agenda, reply := s.reply } ∧
      (∀ a, ¬mayWrite i s a → Memory.read t.dmem a = Memory.read s.dmem a) ∧
      (∀ a, a < s.dmemSize → mayWrite i s a →
        s.draws ≤ draw a ∧ draw a < t.draws ∧ Memory.read t.dmem a = Config.freeByte (draw a)) ∧
      (∀ a b, a < s.dmemSize → mayWrite i s a → b < s.dmemSize → mayWrite i s b → draw a = draw b → a = b)

/-! ### The machine as a whole -/

/-- The invariant holds at the start of every run, whatever DMEM_SIZE and DMEM_INIT are, and so at the model's reset state
(70 R554, 00 R11; log entries 2 and 3 name the parameters of `State.reset`). -/
def Obligations.InvAtReset : Prop :=
  (∀ (size : Nat) (init : Memory), 1 ≤ size → size ≤ 2 ^ 32 → Memory.wf init → (∀ c ∈ init, c.1 < size) →
    Inv (State.initial size init)) ∧
  Inv State.reset

/-- Every step keeps the invariant (10 R70 to R74, 20 R157, 40 R251, 41 R304, 42 R352, 43 R402, 70 R574). -/
def Obligations.StepKeepsInv : Prop :=
  ∀ s t : State, Inv s → step s = .next t → Inv t

/-- No step stops: while the host keeps its DMEM duty every turn, of the engine or of the host, ends in a next state
(00 R22, 70 R572). -/
def Obligations.DutifulStepsComplete : Prop :=
  ∀ s : State, Inv s → dutyKept s = true → ∃ t, step s = .next t

/-- An issued command always completes: the engine's step ends with BUSY = 0, DONE = 1 and the next command may issue
(60 R502, R506, 70 R576). -/
def Obligations.CommandsComplete : Prop :=
  ∀ s : State, Inv s → s.busy = true → engineNext s = true →
    ∃ t, step s = .next t ∧ t.busy = false ∧ t.done = true ∧ t.lost = s.lost ∧ t.cmd = s.cmd

/-- The outcome of a command is one of those its rule names (60 R500, R504). -/
def Obligations.CommandOutcomes : Prop :=
  ∀ (i : Instr) (s t : State), exec i s = .next t → t.errcode ∈ outcomes i

/-- A command that fails changes nothing but STATUS, but for ENC and DEC; RESULT is never changed by a failing command,
and an ENC or DEC that fails after its range checks sets OUT_LEN to 0 (60 R503, 10 R59, R63). -/
def Obligations.FailingCommands : Prop :=
  ∀ (i : Instr) (s t : State), exec i s = .next t → t.errcode ≠ .ok →
    (i ≠ .enc → i ≠ .dec → t = completed t.errcode s) ∧
    (t.errcode = .address → t = completed .address s) ∧
    t.result0 = s.result0 ∧ t.result1 = s.result1 ∧ t.result2 = s.result2 ∧
    (i = .enc ∨ i = .dec → t.errcode ≠ .address → t.outLen = 0#32) ∧
    (i = .enc → t.dmem = s.dmem ∧ t.bp = s.bp)

/-- The frame of every command: what it leaves unchanged when it completes. The operand registers, CMD, IRQ_EN and LOST by
every command; BITWIN, OUT_LEN, RESULT, the table, the tree, the codes, the packer, the reader and DMEM by every command
but those named (10 R57, R58, R59, R63, R64, R70, R72, R77, 20 R153). -/
def Obligations.CommandFrame : Prop :=
  ∀ (i : Instr) (s t : State), exec i s = .next t →
    (t.irqEn = s.irqEn ∧ t.lost = s.lost ∧ t.cmd = s.cmd ∧ t.arg0 = s.arg0 ∧ t.arg1 = s.arg1 ∧ t.inBase = s.inBase ∧
      t.inLen = s.inLen ∧ t.outBase = s.outBase ∧ t.outCap = s.outCap ∧ t.dmemSize = s.dmemSize ∧
      t.agenda = s.agenda ∧ t.reply = s.reply ∧ t.busy = false ∧ t.done = true) ∧
    ((∀ c, i ≠ .ctLookup c) → t.bitwin = s.bitwin) ∧
    (i ≠ .bpFinish → i ≠ .enc → i ≠ .dec → t.outLen = s.outLen) ∧
    (i ∉ [.ftGet, .tbNode, .brReadBit, .brRemaining, .brPosition, .enc, .dec] → (∀ c, i ≠ .ctLookup c) →
      (∀ w, i ≠ .brReadFixed w) → t.result0 = s.result0 ∧ t.result1 = s.result1 ∧ t.result2 = s.result2) ∧
    (i ∉ [.ftClear, .enc, .dec] → (∀ c, i ≠ .ftAdd c) → t.ft = s.ft) ∧
    (i ∉ [.ftClear, .tbBuild, .enc, .dec] → (∀ c, i ≠ .ftAdd c) → t.tree = s.tree) ∧
    (i ∉ [.ftClear, .tbBuild, .ctDerive, .enc, .dec] → (∀ c, i ≠ .ftAdd c) → t.ct = s.ct) ∧
    (i ∉ [.bpInit, .bpAppendSeq, .bpFinish, .enc] → (∀ b, i ≠ .bpAppendBit b) → (∀ w, i ≠ .bpAppendFixed w) →
      (∀ c, i ≠ .bpAppendCode c) → t.bp = s.bp) ∧
    (i ∉ [.brInit, .brReadBit, .dec] → (∀ w, i ≠ .brReadFixed w) →
      t.br = { s.br with changed := t.br.changed } ∧ t.draws = s.draws) ∧
    (i ∉ [.bpAppendSeq, .bpFinish, .enc, .dec] → (∀ b, i ≠ .bpAppendBit b) → (∀ w, i ≠ .bpAppendFixed w) →
      (∀ c, i ≠ .bpAppendCode c) → t.dmem = s.dmem)

/-- The bytes a command may change: the packer's lie in the range from its next byte to the end of its capacity, those of
ENC and DEC in the output range; every other byte of DMEM reads as before (20 R153, 42 R367, 44 R468, 70 R573). -/
def Obligations.DmemFrame : Prop :=
  ∀ (i : Instr) (s t : State), Inv s → exec i s = .next t →
    ∀ a, ¬mayWrite i s a → Memory.read t.dmem a = Memory.read s.dmem a

/-- The validity and activity flags change as the table of 70 R556 says, command by command and outcome by outcome, and
all are 0 after a reset. -/
def Obligations.FlagsTable : Prop :=
  (∀ (i : Instr) (s t : State), exec i s = .next t → flagsOf t = flagsAfter i t.errcode (flagsOf s)) ∧
  (∀ s t : State, hostMove .hardwareReset s = .next t →
    flagsOf t = { tree := false, ct := false, bp := false, br := false })

/-! ### The frequency table and the tree (spec/40_tree_builder.md, spec/45_control.md) -/

/-- NOP only completes, and FT_CLEAR empties the table and clears both valid flags; neither can fail (45 R490,
40 R252). -/
def Obligations.NopAndFtClear : Prop :=
  ∀ s : State,
    exec .nop s = .next (completed .ok s) ∧
    exec .ftClear s = .next (completed .ok { s with
      ft := [], tree := { s.tree with valid := false }, ct := { s.ct with valid := false } })

/-- FT_ADD appends the symbol with the weight in ARG0 at the end of the table and clears both valid flags; a symbol that is
in the table is InvalidInputError (40 R253). -/
def Obligations.FtAdd : Prop :=
  ∀ (sym : Byte) (s : State),
    ((∀ e ∈ s.ft, e.sym ≠ sym) → exec (.ftAdd sym) s = .next (completed .ok { s with
      ft := s.ft ++ [{ sym := sym, w := s.arg0 }],
      tree := { s.tree with valid := false }, ct := { s.ct with valid := false } })) ∧
    ((∃ e ∈ s.ft, e.sym = sym) → exec (.ftAdd sym) s = .next (completed .invalidInput s))

/-- FT_GET reads the entry at the index in ARG0; an index at or past the end is StateError (40 R256, R254). -/
def Obligations.FtGet : Prop :=
  ∀ s : State,
    (∀ e, s.ft[s.arg0.toNat]? = some e → exec .ftGet s = .next (completed .ok { s with
      result0 := e.w, result1 := e.sym.zeroExtend 32, result2 := 0#32 })) ∧
    (s.ft.length ≤ s.arg0.toNat → exec .ftGet s = .next (completed .stateError s))

/-- TB_BUILD of a table of n ≥ 1 entries: a valid tree of 2n − 1 nodes with root 2n − 2, its first n nodes the leaves in
table order, the codes invalid, nothing else changed; an empty table is InvalidInputError (40 R260, R261, R266, R267). -/
def Obligations.TbBuild : Prop :=
  ∀ s : State, FtOk s →
    (s.ft ≠ [] → ∃ tree, exec .tbBuild s = .next (completed .ok { s with
        tree := tree, ct := { s.ct with valid := false } }) ∧
      tree.valid = true ∧ tree.nn = 2 * s.ft.length - 1 ∧ tree.root = 2 * s.ft.length - 2 ∧
      ∀ i, i < s.ft.length → tree.nodes[i]? = s.ft[i]?.map fun e => .leaf e.sym (e.w.zeroExtend 40)) ∧
    (s.ft = [] → exec .tbBuild s = .next (completed .invalidInput s))

/-- TB_BUILD merges as the rules ask: the zero-branch of each node it makes is the least tree of the working set by weight,
then by index, the one-branch the least of what remains, and its weight their exact sum (40 R263, R264, R265, R268). -/
def Obligations.TreeMerges : Prop :=
  ∀ s : State, FtOk s → s.ft ≠ [] → ∃ t, exec .tbBuild s = .next t ∧
    ∀ k, s.ft.length ≤ k → k < t.tree.nn → mergedAt t.tree.nodes k

/-- The shape of a valid tree: an internal node has two different children of lower index, every node but the root is the
child of exactly one internal node, and a leaf is at most n − 1 ≤ 255 deep (40 R269). -/
def Obligations.TreeShape : Prop :=
  ∀ s : State, FtOk s → TreeOk s → s.tree.valid = true →
    1 ≤ s.ft.length ∧ s.ft.length - 1 ≤ 255 ∧
    (∀ (i : Nat) zero one w, s.tree.nodes[i]? = some (Node.internal zero one w) →
      zero.toNat < i ∧ one.toNat < i ∧ zero ≠ one) ∧
    (∀ j, j < s.tree.nn → j ≠ s.tree.root →
      ∃! i : Nat, ∃ zero one w, s.tree.nodes[i]? = some (Node.internal zero one w) ∧ (j = zero.toNat ∨ j = one.toNat)) ∧
    (∀ (i : Nat) zero one w, s.tree.nodes[i]? = some (Node.internal zero one w) →
      s.tree.root ≠ zero.toNat ∧ s.tree.root ≠ one.toNat) ∧
    (∀ path (leaf : Nat) sym w, follow s.tree.nodes s.tree.root path = some leaf →
      s.tree.nodes[leaf]? = some (Node.leaf sym w) → path.length ≤ s.ft.length - 1)

/-- TB_NODE reads the node at the index in ARG0: the weight's low word, the leaf flag with the symbol and the weight's top
byte, and the two branches; no valid tree or an index at or past the node count is StateError (40 R270, R254, R255). -/
def Obligations.TbNode : Prop :=
  ∀ s : State,
    (∀ sym w, s.tree.valid = true → s.tree.nodes[s.arg0.toNat]? = some (.leaf sym w) →
      exec .tbNode s = .next (completed .ok { s with
        result0 := w.extractLsb' 0 32, result1 := 1#1 ++ 0#15 ++ sym ++ w.extractLsb' 32 8, result2 := 0#32 })) ∧
    (∀ zero one w, s.tree.valid = true → s.tree.nodes[s.arg0.toNat]? = some (.internal zero one w) →
      exec .tbNode s = .next (completed .ok { s with
        result0 := w.extractLsb' 0 32, result1 := 0#24 ++ w.extractLsb' 32 8,
        result2 := 0#7 ++ one ++ 0#7 ++ zero })) ∧
    (s.tree.valid = false ∨ s.tree.nn ≤ s.arg0.toNat → exec .tbNode s = .next (completed .stateError s))

/-! ### The code table (spec/41_code_table.md) -/

/-- CT_DERIVE gives each symbol the path from the root to its leaf, gives a code exactly to the symbols of the table, and
changes nothing but the code table; without a valid tree it is StateError (41 R300, R301, R302, R304). -/
def Obligations.CtDerive : Prop :=
  ∀ s : State,
    (FtOk s → TreeOk s → s.tree.valid = true → ∃ codes : Codes,
      exec .ctDerive s = .next (completed .ok { s with ct := { valid := true, codes := codes } }) ∧
      (∀ sym p, codes[sym.toNat]'sym.isLt = some p ↔ leadsTo s.tree p sym) ∧
      (∀ sym, codes[sym.toNat]'sym.isLt ≠ none ↔ ∃ e ∈ s.ft, e.sym = sym)) ∧
    (s.tree.valid = false → exec .ctDerive s = .next (completed .stateError s))

/-- The codes of a valid code table: none is a prefix of another symbol's, each is at most 255 bits long, with two or more
symbols each has a bit, and with one symbol it is empty (41 R302, R303, R305). -/
def Obligations.CodesArePrefixFree : Prop :=
  ∀ s : State, FtOk s → TreeOk s → CtOk s → s.ct.valid = true →
    (∀ a b p q, codeOf s.ct.codes a = some p → codeOf s.ct.codes b = some q → p <+: q → a = b) ∧
    (∀ a p, codeOf s.ct.codes a = some p → p.length ≤ 255) ∧
    (∀ a p, codeOf s.ct.codes a = some p → 2 ≤ s.ft.length → 1 ≤ p.length) ∧
    (∀ a p, codeOf s.ct.codes a = some p → s.ft.length = 1 → p = [])

/-- CT_LOOKUP gives the code's length, and the code in the first positions of the window with zeros after it; no valid code
table or no code is StateError (41 R310). The premise on the length is 41 R305's bound. -/
def Obligations.CtLookup : Prop :=
  ∀ (sym : Byte) (s : State),
    (∀ p, s.ct.valid = true → codeOf s.ct.codes sym = some p → p.length ≤ 255 → ∃ len win,
      exec (.ctLookup sym) s = .next (completed .ok { s with
        result0 := len, result1 := 0#32, result2 := 0#32, bitwin := win }) ∧
      len.toNat = p.length ∧
      ∀ i : Fin 256, (win[i.val / 32]'(by omega)).getLsbD (31 - i.val % 32) = p.getD i.val false) ∧
    (s.ct.valid = false ∨ codeOf s.ct.codes sym = none →
      exec (.ctLookup sym) s = .next (completed .stateError s))

/-! ### The bit packer (spec/42_bit_packer.md) -/

/-- How the model spells a bit sequence: `msb_bits(v, w)` bit by bit, and bit position i of the window as bit 31 − (i mod 32)
of BITWIN(i div 32) (00 R14, 10 R64). -/
def Obligations.BitSequences : Prop :=
  (∀ v w i : Nat, i < w → (msbBits v w).length = w ∧ (msbBits v w).getD i false = v.testBit (w - 1 - i)) ∧
  (∀ (win : Vector Word 8) (len : Nat) (i : Fin 256), i.val < len →
    (bitwinSeq win len).length = len ∧
    (bitwinSeq win len).getD i.val false = (win[i.val / 32]'(by omega)).getLsbD (31 - i.val % 32))

/-- BP_INIT and BR_INIT latch the output and the input range, empty and at position 0; a range that passes the end of DMEM,
the sum exact, is AddressError (42 R353, 43 R403, 20 R157). -/
def Obligations.InitCommands : Prop :=
  ∀ s : State,
    (s.outBase.toNat + s.outCap.toNat ≤ s.dmemSize → exec .bpInit s = .next (completed .ok { s with
      bp := { active := true, base := s.outBase, cap := s.outCap, bytes := 0#32, cur := 0#8, cursor := 0 } })) ∧
    (s.dmemSize < s.outBase.toNat + s.outCap.toNat → exec .bpInit s = .next (completed .address s)) ∧
    (s.inBase.toNat + s.inLen.toNat ≤ s.dmemSize → exec .brInit s = .next (completed .ok { s with
      br := { active := true, base := s.inBase, len := s.inLen, pos := 0, changed := [] } })) ∧
    (s.dmemSize < s.inBase.toNat + s.inLen.toNat → exec .brInit s = .next (completed .address s))

/-- BP_APPEND_BIT appends its bit; no active packer is StateError, and no room for a bit is CapacityError (42 R360, R350,
R351, R352). -/
def Obligations.BpAppendBit : Prop :=
  ∀ (b : Bool) (s : State),
    (s.bp.active = false → exec (.bpAppendBit b) s = .next (completed .stateError s)) ∧
    (s.bp.active = true → s.bp.cap.toNat < ceilDiv (8 * s.bp.bytes.toNat + s.bp.cursor.val + 1) 8 →
      exec (.bpAppendBit b) s = .next (completed .capacity s)) ∧
    (DmemOk s → PackerOk s → s.bp.active = true →
      ceilDiv (8 * s.bp.bytes.toNat + s.bp.cursor.val + 1) 8 ≤ s.bp.cap.toNat →
      ∃ t, exec (.bpAppendBit b) s = .next (completed .ok t) ∧ Appended [b] s t)

/-- BP_APPEND_SEQ appends the first ARG1 bits of the window, all or nothing; its checks in their order: a length over 255
is IllegalCommand, no active packer StateError, no room CapacityError (42 R362, R361, R352). -/
def Obligations.BpAppendSeq : Prop :=
  ∀ s : State,
    (255 < s.arg1.toNat → exec .bpAppendSeq s = .next (completed .illegalCommand s)) ∧
    (s.arg1.toNat ≤ 255 → s.bp.active = false → exec .bpAppendSeq s = .next (completed .stateError s)) ∧
    (s.arg1.toNat ≤ 255 → s.bp.active = true →
      s.bp.cap.toNat < ceilDiv (8 * s.bp.bytes.toNat + s.bp.cursor.val + s.arg1.toNat) 8 →
      exec .bpAppendSeq s = .next (completed .capacity s)) ∧
    (DmemOk s → PackerOk s → s.arg1.toNat ≤ 255 → s.bp.active = true →
      ceilDiv (8 * s.bp.bytes.toNat + s.bp.cursor.val + s.arg1.toNat) 8 ≤ s.bp.cap.toNat →
      ∃ t, exec .bpAppendSeq s = .next (completed .ok t) ∧ Appended (bitwinSeq s.bitwin s.arg1.toNat) s t)

/-- BP_APPEND_FIXED appends the value in ARG0 as `width` bits, most significant first, all or nothing; its checks in their
order: a width over 32 is IllegalCommand, no active packer StateError, a value of 2^width or more RangeError, no room
CapacityError (42 R363, R361, R352). -/
def Obligations.BpAppendFixed : Prop :=
  ∀ (w : BitVec 6) (s : State),
    (32 < w.toNat → exec (.bpAppendFixed w) s = .next (completed .illegalCommand s)) ∧
    (w.toNat ≤ 32 → s.bp.active = false → exec (.bpAppendFixed w) s = .next (completed .stateError s)) ∧
    (w.toNat ≤ 32 → s.bp.active = true → 2 ^ w.toNat ≤ s.arg0.toNat →
      exec (.bpAppendFixed w) s = .next (completed .range s)) ∧
    (w.toNat ≤ 32 → s.bp.active = true → s.arg0.toNat < 2 ^ w.toNat →
      s.bp.cap.toNat < ceilDiv (8 * s.bp.bytes.toNat + s.bp.cursor.val + w.toNat) 8 →
      exec (.bpAppendFixed w) s = .next (completed .capacity s)) ∧
    (DmemOk s → PackerOk s → w.toNat ≤ 32 → s.bp.active = true → s.arg0.toNat < 2 ^ w.toNat →
      ceilDiv (8 * s.bp.bytes.toNat + s.bp.cursor.val + w.toNat) 8 ≤ s.bp.cap.toNat →
      ∃ t, exec (.bpAppendFixed w) s = .next (completed .ok t) ∧ Appended (msbBits s.arg0.toNat w.toNat) s t)

/-- BP_APPEND_CODE appends the symbol's code, all or nothing, an empty code as no bit; no active packer, no valid code table
or no code is StateError, no room CapacityError (42 R364, R355, R361, R352). -/
def Obligations.BpAppendCode : Prop :=
  ∀ (sym : Byte) (s : State),
    (s.bp.active = false ∨ s.ct.valid = false ∨ codeOf s.ct.codes sym = none →
      exec (.bpAppendCode sym) s = .next (completed .stateError s)) ∧
    (∀ p, s.bp.active = true → s.ct.valid = true → codeOf s.ct.codes sym = some p →
      s.bp.cap.toNat < ceilDiv (8 * s.bp.bytes.toNat + s.bp.cursor.val + p.length) 8 →
      exec (.bpAppendCode sym) s = .next (completed .capacity s)) ∧
    (∀ p, DmemOk s → PackerOk s → s.bp.active = true → s.ct.valid = true → codeOf s.ct.codes sym = some p →
      ceilDiv (8 * s.bp.bytes.toNat + s.bp.cursor.val + p.length) 8 ≤ s.bp.cap.toNat →
      ∃ t, exec (.bpAppendCode sym) s = .next (completed .ok t) ∧ Appended p s t)

/-- BP_FINISH sends the partial byte out, padded with zeros, gives the number of bytes in OUT_LEN and makes the packer
inactive; no active packer is StateError (42 R365, R366). -/
def Obligations.BpFinish : Prop :=
  ∀ s : State,
    (s.bp.active = false → exec .bpFinish s = .next (completed .stateError s)) ∧
    (DmemOk s → PackerOk s → s.bp.active = true →
      ∃ t, exec .bpFinish s = .next (completed .ok t) ∧ Finished s t)

/-! ### The bit reader (spec/43_bit_reader.md) -/

/-- BR_READ_BIT consumes the next bit of the buffer, or a bit of a draw where its byte was written after the buffer was
latched; no active reader is StateError, and no bit left EndOfStreamError with nothing consumed (43 R411, R401, R404, R405,
70 R574). -/
def Obligations.BrReadBit : Prop :=
  ∀ s : State,
    (s.br.active = false → exec .brReadBit s = .next (completed .stateError s)) ∧
    (s.br.active = true → 8 * s.br.len.toNat ≤ s.br.pos → exec .brReadBit s = .next (completed .endOfStream s)) ∧
    (ReaderOk s → s.br.active = true → s.br.pos < 8 * s.br.len.toNat →
      (s.br.base.toNat + s.br.pos / 8 ∉ s.br.changed →
        exec .brReadBit s = .next (completed .ok { consumed 1 s with
          result0 := if bufferBit s s.br.pos then 1#32 else 0#32, result1 := 0#32, result2 := 0#32 })) ∧
      (s.br.base.toNat + s.br.pos / 8 ∈ s.br.changed →
        exec .brReadBit s = .next (completed .ok { consumed 1 s with
          draws := s.draws + 1,
          result0 := if streamBit (Config.freeByte s.draws) s.br.pos then 1#32 else 0#32,
          result1 := 0#32, result2 := 0#32 })))

/-- BR_READ_FIXED consumes `width` bits and gives the number they spell, most significant bit first; a bit of a changed byte
may be any, and the others are the buffer's. Its checks in their order: a width over 32 is IllegalCommand, no active reader
StateError, too few bits EndOfStreamError with nothing consumed (43 R412, R404, R405, 70 R574). -/
def Obligations.BrReadFixed : Prop :=
  ∀ (w : BitVec 6) (s : State),
    (32 < w.toNat → exec (.brReadFixed w) s = .next (completed .illegalCommand s)) ∧
    (w.toNat ≤ 32 → s.br.active = false → exec (.brReadFixed w) s = .next (completed .stateError s)) ∧
    (w.toNat ≤ 32 → s.br.active = true → 8 * s.br.len.toNat - s.br.pos < w.toNat →
      exec (.brReadFixed w) s = .next (completed .endOfStream s)) ∧
    (ReaderOk s → w.toNat ≤ 32 → s.br.active = true → s.br.pos + w.toNat ≤ 8 * s.br.len.toNat →
      ∃ (v : Word) (d : Nat), exec (.brReadFixed w) s = .next (completed .ok { consumed w.toNat s with
          draws := d, result0 := v, result1 := 0#32, result2 := 0#32 }) ∧
        v.toNat < 2 ^ w.toNat ∧
        (∀ i, i < w.toNat → s.br.base.toNat + (s.br.pos + i) / 8 ∉ s.br.changed →
          v.getLsbD (w.toNat - 1 - i) = bufferBit s (s.br.pos + i)) ∧
        s.draws ≤ d ∧ (unchangedBits s s.br.pos w.toNat → d = s.draws))

/-- BR_REMAINING gives the count of unread bits and BR_POSITION that of consumed bits, 35 bits in RESULT0 and RESULT1, and
the reader is unchanged; no active reader is StateError (43 R413, R414, R404). -/
def Obligations.BrCounts : Prop :=
  ∀ s : State,
    (s.br.active = false → exec .brRemaining s = .next (completed .stateError s) ∧
      exec .brPosition s = .next (completed .stateError s)) ∧
    (ReaderOk s → s.br.active = true →
      (∃ lo hi : Word, exec .brRemaining s = .next (completed .ok { s with
          result0 := lo, result1 := hi, result2 := 0#32 }) ∧
        hi.toNat < 8 ∧ lo.toNat + 2 ^ 32 * hi.toNat + s.br.pos = 8 * s.br.len.toNat) ∧
      (∃ lo hi : Word, exec .brPosition s = .next (completed .ok { s with
          result0 := lo, result1 := hi, result2 := 0#32 }) ∧
        hi.toNat < 8 ∧ lo.toNat + 2 ^ 32 * hi.toNat = s.br.pos))

/-! ### The encoder and the decoder (spec/44_codec.md) -/

/-- The table ENC counts, whatever its outcome once the ranges pass: each byte value of the input once, in the order in which
it first occurs, with its number of occurrences as weight; the total weight is the input's length (44 R461, R462). -/
def Obligations.EncTable : Prop :=
  ∀ s : State, DmemOk s → codecRanges s → ∃ t, exec .enc s = .next t ∧
    (t.ft.map FtEntry.sym).Nodup ∧
    (∀ c, (∃ e ∈ t.ft, e.sym = c) ↔ c ∈ inputBytes s) ∧
    (∀ e ∈ t.ft, e.w.toNat = (inputBytes s).count e.sym) ∧
    (t.ft.map fun e => (inputBytes s).idxOf e.sym).Pairwise (· < ·) ∧
    (t.ft.map fun e => e.w.toNat).sum = s.inLen.toNat

/-- ENC of an input that is not empty, has at most 255 distinct byte values and whose container fits OUT_CAP: it succeeds,
and leaves the container, the table, the tree, the codes, OUT_LEN, RESULT and the packer that the rules give (44 R460 to
R469). -/
def Obligations.EncSucceeds : Prop :=
  ∀ s : State, DmemOk s → codecRanges s → 0 < s.inLen.toNat → (inputBytes s).dedup.length ≤ 255 →
    ∃ codes, deriveCodes (buildTree (countBytes (inputBytes s))) = .ok codes ∧
      (containerLen (inputBytes s).dedup.length (payloadSeq codes (inputBytes s)).length ≤ s.outCap.toNat →
        ∃ t, exec .enc s = .next (completed .ok t) ∧ Encoded codes s t)

/-- The errors of ENC and what each leaves, in their order of precedence: AddressError changes nothing; InvalidInputError
on an empty input, RangeError on 256 byte values and CapacityError on a container over OUT_CAP leave the table, and with the
last two the tree and the codes, set OUT_LEN to 0, and leave the packer, RESULT and DMEM alone (44 R470, R464, R465,
R471). -/
def Obligations.EncErrors : Prop :=
  ∀ s : State,
    (¬codecRanges s → exec .enc s = .next (completed .address s)) ∧
    (codecRanges s → s.inLen.toNat = 0 → exec .enc s = .next (completed .invalidInput { s with
      ft := [], tree := { s.tree with valid := false }, ct := { s.ct with valid := false }, outLen := 0#32 })) ∧
    (codecRanges s → 0 < s.inLen.toNat → ∃ codes,
      deriveCodes (buildTree (countBytes (inputBytes s))) = .ok codes ∧
      ((inputBytes s).dedup.length = 256 → exec .enc s = .next (completed .range { s with
        ft := countBytes (inputBytes s), tree := buildTree (countBytes (inputBytes s)),
        ct := { valid := true, codes := codes }, outLen := 0#32 })) ∧
      ((inputBytes s).dedup.length ≤ 255 →
        s.outCap.toNat < containerLen (inputBytes s).dedup.length (payloadSeq codes (inputBytes s)).length →
        exec .enc s = .next (completed .capacity { s with
          ft := countBytes (inputBytes s), tree := buildTree (countBytes (inputBytes s)),
          ct := { valid := true, codes := codes }, outLen := 0#32 })))

/-- DEC of a header, of pairwise distinct symbols, followed by the codes of as many of its symbols as its weights sum to,
whatever comes after them: it succeeds, and leaves the symbols at OUT_BASE, OUT_LEN, the payload bits consumed in RESULT,
the reader just after them, and the table and its tree (44 R480 to R486). -/
def Obligations.DecSucceeds : Prop :=
  ∀ (s : State) (ft : List FtEntry) (codes : Codes) (out : List Byte),
    DmemOk s → codecRanges s → ft ≠ [] → ft.length ≤ 255 → (ft.map FtEntry.sym).Nodup →
    deriveCodes (buildTree ft) = .ok codes → (∀ c ∈ out, ∃ e ∈ ft, e.sym = c) →
    out.length = totalWeight ft → out.length ≤ s.outCap.toNat →
    headerBits ft ++ payloadSeq codes out <+: inputBits s →
    ∃ t, exec .dec s = .next (completed .ok t) ∧
      Decoded ft (8 + 64 * ft.length + (payloadSeq codes out).length) out s t ∧
      t.outLen.toNat = out.length ∧
      t.result0.toNat + 2 ^ 32 * t.result1.toNat = (payloadSeq codes out).length ∧ t.result2 = 0#32

/-- The errors of DEC and what each leaves (44 R487, R481, R482): AddressError changes nothing; a header that ends early, or
repeats a symbol, is CorruptHeaderError and a symbol over 255 RangeError, with the entries read so far and the reader at the
failed read or after the symbol; a count of 0 is InvalidInputError; weights that sum to more than OUT_CAP are CapacityError;
a payload that ends inside a walk is EndOfStreamError, with the symbols decoded so far in DMEM. OUT_LEN is then 0 and RESULT
unchanged. -/
def Obligations.DecErrors : Prop :=
  ∀ s : State,
    (¬codecRanges s → exec .dec s = .next (completed .address s)) ∧
    (codecRanges s → s.inLen.toNat = 0 → exec .dec s = .next (completed .corruptHeader (headerStopped [] 0 s))) ∧
    (codecRanges s → msbBits 0 8 <+: inputBits s →
      exec .dec s = .next (completed .invalidInput (headerStopped [] 8 s))) ∧
    (∀ (count : Nat) (ft : List FtEntry) (rest : Bits), codecRanges s → count ≤ 255 → ft.length < count →
      (ft.map FtEntry.sym).Nodup → inputBits s = msbBits count 8 ++ ft.flatMap entryBits ++ rest →
      (rest.length < 32 →
        exec .dec s = .next (completed .corruptHeader (headerStopped ft (8 + 64 * ft.length) s))) ∧
      (∀ v, v < 2 ^ 32 → msbBits v 32 <+: rest →
        (255 < v → exec .dec s = .next (completed .range (headerStopped ft (8 + 64 * ft.length + 32) s))) ∧
        ((∃ e ∈ ft, e.sym.toNat = v) →
          exec .dec s = .next (completed .corruptHeader (headerStopped ft (8 + 64 * ft.length + 32) s))) ∧
        (v ≤ 255 → (∀ e ∈ ft, e.sym.toNat ≠ v) → rest.length < 64 →
          exec .dec s = .next (completed .corruptHeader (headerStopped ft (8 + 64 * ft.length + 32) s))))) ∧
    (∀ ft : List FtEntry, codecRanges s → ft ≠ [] → ft.length ≤ 255 → (ft.map FtEntry.sym).Nodup →
      headerBits ft <+: inputBits s →
      (s.outCap.toNat < totalWeight ft →
        exec .dec s = .next (completed .capacity { headerStopped ft (8 + 64 * ft.length) s with
          tree := buildTree ft })) ∧
      (∀ (codes : Codes) (out : List Byte) (tail : Bits), DmemOk s → totalWeight ft ≤ s.outCap.toNat →
        deriveCodes (buildTree ft) = .ok codes → (∀ c ∈ out, ∃ e ∈ ft, e.sym = c) → out.length < totalWeight ft →
        inputBits s = headerBits ft ++ payloadSeq codes out ++ tail →
        (∃ i zero one w, follow (buildTree ft).nodes (buildTree ft).root tail = some i ∧
          (buildTree ft).nodes[i]? = some (.internal zero one w)) →
        ∃ t, exec .dec s = .next (completed .endOfStream t) ∧ Decoded ft (8 * s.inLen.toNat) out s t ∧
          t.outLen = 0#32 ∧ t.result0 = s.result0 ∧ t.result1 = s.result1 ∧ t.result2 = s.result2))

/-- Round trip: a container that ENC wrote, read by DEC wherever it stands and with room for the input, gives back exactly
the input (44 R488). -/
def Obligations.RoundTrip : Prop :=
  ∀ s t u : State, DmemOk s → exec .enc s = .next t → t.errcode = .ok →
    DmemOk u → codecRanges u → u.inLen = t.outLen → s.inLen.toNat ≤ u.outCap.toNat →
    (∀ k, k < t.outLen.toNat →
      Memory.read u.dmem (u.inBase.toNat + k) = Memory.read t.dmem (s.outBase.toNat + k)) →
    ∃ v, exec .dec u = .next v ∧ v.errcode = .ok ∧ v.outLen = s.inLen ∧
      ∀ k, k < s.inLen.toNat →
        Memory.read v.dmem (u.outBase.toNat + k) = Memory.read s.dmem (s.inBase.toNat + k)

/-- Header fidelity: DEC of a container that ENC wrote, even one that ends with an error for want of room, leaves the table
ENC computed, entry for entry and in order, and FT_COUNT and FT_GET read it (44 R489). -/
def Obligations.HeaderFidelity : Prop :=
  ∀ s t u : State, DmemOk s → exec .enc s = .next t → t.errcode = .ok →
    DmemOk u → codecRanges u → u.inLen = t.outLen →
    (∀ k, k < t.outLen.toNat →
      Memory.read u.dmem (u.inBase.toNat + k) = Memory.read t.dmem (s.outBase.toNat + k)) →
    ∃ v, exec .dec u = .next v ∧ v.ft = t.ft ∧
      (∃ w : Word, hostMove (.regRead 0x2C#8 32) v = .next { v with reply := some (.register w) } ∧
        w.toNat = t.ft.length) ∧
      ∀ i e, t.ft[i]? = some e → ∃ r, exec .ftGet { v with arg0 := BitVec.ofNat 32 i } = .next r ∧
        r.errcode = .ok ∧ r.result0 = e.w ∧ r.result1 = e.sym.zeroExtend 32
end

