-- ==== Sys2Proof/Laws/Bits.lean ====
section
/-! SUPPORT. The laws of bit sequences and of the BITWIN window. -/

namespace Sys2Proof.Machine

@[simp] theorem msbBits_length (v w : Nat) : (msbBits v w).length = w := by
  induction w with
  | zero => rfl
  | succ w ih => simp [msbBits, ih]

theorem msbBits_getD (v w i : Nat) (h : i < w) : (msbBits v w).getD i false = v.testBit (w - 1 - i) := by
  induction w generalizing i with
  | zero => omega
  | succ w ih =>
    cases i with
    | zero => simp [msbBits]
    | succ i =>
      simp only [msbBits, List.getD_cons_succ]
      rw [ih i (by omega)]
      congr 1
      omega

theorem bitsToNatFrom_eq (acc : Nat) (bs : Bits) : bitsToNatFrom acc bs = acc * 2 ^ bs.length + bitsToNat bs := by
  induction bs generalizing acc with
  | nil => simp [bitsToNatFrom, bitsToNat]
  | cons b bs ih =>
    simp only [bitsToNatFrom, bitsToNat, List.length_cons]
    rw [ih, ih (2 * 0 + b.toNat)]
    rw [pow_succ]
    ring

@[simp] theorem bitsToNat_nil : bitsToNat [] = 0 := rfl

theorem bitsToNat_cons (b : Bool) (bs : Bits) : bitsToNat (b :: bs) = b.toNat * 2 ^ bs.length + bitsToNat bs := by
  show bitsToNatFrom (2 * 0 + b.toNat) bs = _
  rw [bitsToNatFrom_eq]
  simp

theorem bitsToNat_lt (bs : Bits) : bitsToNat bs < 2 ^ bs.length := by
  induction bs with
  | nil => simp
  | cons b bs ih =>
    rw [bitsToNat_cons, List.length_cons, pow_succ]
    cases b <;> simp <;> omega

/-- A number is spelt by its own bits: reading back what `msbBits` gives loses only what does not fit. -/
theorem bitsToNat_msbBits (v w : Nat) : bitsToNat (msbBits v w) = v % 2 ^ w := by
  induction w with
  | zero => simp [msbBits, Nat.mod_one]
  | succ w ih =>
    rw [msbBits, bitsToNat_cons, ih, msbBits_length, Nat.testBit_eq_decide_div_mod_eq, pow_succ, Nat.mod_mul]
    rcases Nat.mod_two_eq_zero_or_one (v / 2 ^ w) with h | h <;> (simp [h]; try ring)

theorem bitsToNat_testBit (bs : Bits) (i : Nat) (h : i < bs.length) :
    (bitsToNat bs).testBit i = bs.getD (bs.length - 1 - i) false := by
  induction bs with
  | nil => simp at h
  | cons b bs ih =>
    rw [bitsToNat_cons, List.length_cons]
    rw [List.length_cons] at h
    have hlt := bitsToNat_lt bs
    by_cases hi : i = bs.length
    · subst hi
      have : bs.length + 1 - 1 - bs.length = 0 := by omega
      rw [this, List.getD_cons_zero, mul_comm, Nat.testBit_two_pow_mul_add _ hlt]
      cases b <;> simp
    · have hi' : i < bs.length := by omega
      have : bs.length + 1 - 1 - i = (bs.length - 1 - i) + 1 := by omega
      rw [this, List.getD_cons_succ, ← ih hi', mul_comm, Nat.testBit_two_pow_mul_add _ hlt, if_pos hi']

theorem setByteBit_getLsbD (v : Byte) (i j : Nat) (b : Bool) (hi : i < 8) :
    (setByteBit v i b).getLsbD j = if j = i then b else v.getLsbD j := by
  by_cases hj : j < 8
  · cases b
    · simp only [setByteBit, Bool.false_eq_true, if_false, BitVec.getLsbD_and, BitVec.getLsbD_not,
        BitVec.getLsbD_shiftLeft, BitVec.getLsbD_one]
      split_ifs with h
      · subst h; simp [hj]
      · rcases Nat.lt_or_ge j i with h' | h'
        · simp [hj, h']
        · have : ¬ (j - i = 0) := by omega
          simp [hj, this]
    · simp only [setByteBit, if_true, BitVec.getLsbD_or, BitVec.getLsbD_shiftLeft, BitVec.getLsbD_one]
      split_ifs with h
      · subst h; simp [hj]
      · rcases Nat.lt_or_ge j i with h' | h'
        · simp [hj, h']
        · have : ¬ (j - i = 0) := by omega
          simp [hj, this]
  · have h1 : (setByteBit v i b).getLsbD j = false := BitVec.getLsbD_of_ge _ _ (by omega)
    have h2 : v.getLsbD j = false := BitVec.getLsbD_of_ge _ _ (by omega)
    rw [h1, h2, if_neg (by omega)]

theorem windowWord_getLsbD (seq : Bits) (first k : Nat) (h : k < 32) :
    (windowWord seq first).getLsbD (31 - k) = seq.getD (first + k) false := by
  have hlen : ((List.range 32).map fun k => seq.getD (first + k) false).length = 32 := by simp
  simp only [windowWord, BitVec.getLsbD_ofNat]
  rw [bitsToNat_testBit _ _ (by rw [hlen]; omega), hlen]
  have : 32 - 1 - (31 - k) = k := by omega
  rw [this]
  simp [List.getD_eq_getElem?_getD, h]
  omega

/-- Bit position `i` of the window that holds a sequence is the sequence's bit there, 0 past its end (10 R64, 41 R310). -/
theorem bitwinBit_bitwinOf (seq : Bits) (i : Nat) (h : i < 256) : bitwinBit (bitwinOf seq) i = seq.getD i false := by
  have hl : (bitwinOf seq).toList.getD (i / 32) 0 = windowWord seq (32 * (i / 32)) := by
    have h8 : i / 32 < 8 := by omega
    simp [bitwinOf, List.getD_eq_getElem?_getD, h8]
  simp only [bitwinBit]
  rw [hl, windowWord_getLsbD _ _ _ (Nat.mod_lt _ (by omega)), Nat.div_add_mod]

@[simp] theorem bitwinSeq_length (win : Vector Word 8) (n : Nat) : (bitwinSeq win n).length = n := by
  simp [bitwinSeq]

theorem bitwinSeq_getD (win : Vector Word 8) (n i : Nat) (h : i < n) :
    (bitwinSeq win n).getD i false = bitwinBit win i := by
  simp [bitwinSeq, List.getD_eq_getElem?_getD, h]

/-- A code that fits the window is read back from it whole (10 R64, 41 R310, 42 R362). -/
theorem bitwinSeq_bitwinOf (seq : Bits) (h : seq.length ≤ 256) : bitwinSeq (bitwinOf seq) seq.length = seq := by
  refine List.ext_getElem (by simp) fun i h1 h2 => ?_
  have hi : i < seq.length := h2
  simp only [bitwinSeq, List.getElem_map, List.getElem_range]
  rw [bitwinBit_bitwinOf _ _ (by omega), List.getD_eq_getElem _ _ hi]

end Sys2Proof.Machine
end

