-- ==== Sys2Proof/Laws/Memory.lean ====
section
/-! SUPPORT. The laws of DMEM as a list: read after write, the canonical form, and the rising list of changed
addresses. -/

namespace Sys2Proof.Machine

theorem Memory.read_write_same (m : Memory) (a : Nat) (v : Byte) (h : Memory.wf m) :
    Memory.read (Memory.write m a v) a = v := by
  obtain ⟨hs, hf⟩ := h
  induction m with
  | nil => by_cases hv : v = Config.dmemFill <;> simp [Memory.write, Memory.read, hv]
  | cons c m ih =>
    obtain ⟨b, x⟩ := c
    rw [List.pairwise_cons] at hs
    have hfar : ∀ m' : Memory, (∀ c ∈ m', a < c.1) → Memory.read m' a = Config.dmemFill := by
      intro m' hm
      induction m' with
      | nil => rfl
      | cons d m' ih' =>
        have := hm d (by simp)
        simp only [Memory.read]
        rw [if_neg (by omega)]
        exact ih' fun c hc => hm c (by simp [hc])
    by_cases h1 : a < b
    · by_cases hv : v = Config.dmemFill
      · simp only [Memory.write, h1, hv, if_true]
        apply hfar
        intro c hc
        rcases List.mem_cons.1 hc with rfl | hc
        · exact h1
        · exact lt_trans h1 (hs.1 c hc)
      · simp [Memory.write, Memory.read, h1, hv]
    · by_cases h2 : a = b
      · subst h2
        by_cases hv : v = Config.dmemFill
        · simp only [Memory.write, lt_irrefl, hv, if_true, if_false]
          exact hfar m fun c hc => hs.1 c hc
        · simp [Memory.write, Memory.read, hv]
      · simp only [Memory.write, h1, h2, if_false, Memory.read]
        rw [if_neg (Ne.symm h2)]
        exact ih hs.2 fun c hc => hf c (by simp [hc])

theorem Memory.read_write_other (m : Memory) (a a' : Nat) (v : Byte) (hne : a' ≠ a) :
    Memory.read (Memory.write m a v) a' = Memory.read m a' := by
  induction m with
  | nil =>
    by_cases hv : v = Config.dmemFill <;> simp [Memory.write, Memory.read, hv, Ne.symm hne]
  | cons c m ih =>
    obtain ⟨b, x⟩ := c
    simp only [Memory.write]
    split_ifs with h1 hv h2 hv
    · rfl
    · simp [Memory.read, Ne.symm hne]
    · subst h2; simp [Memory.read, Ne.symm hne]
    · subst h2; simp [Memory.read, Ne.symm hne]
    · simp only [Memory.read, ih]

theorem Memory.write_mem (m : Memory) (a : Nat) (v : Byte) (c : Host.Cell)
    (hc : c ∈ Memory.write m a v) : c ∈ m ∨ (c = (a, v) ∧ v ≠ Config.dmemFill) := by
  induction m with
  | nil =>
    by_cases hv : v = Config.dmemFill <;> simp_all [Memory.write]
  | cons d m ih =>
    obtain ⟨b, x⟩ := d
    simp only [Memory.write] at hc
    split_ifs at hc with h1 hv h2 hv <;> simp only [List.mem_cons] at hc ⊢
    · exact .inl hc
    · rcases hc with rfl | hc
      · exact .inr ⟨rfl, hv⟩
      · exact .inl hc
    · exact .inl (.inr hc)
    · rcases hc with rfl | hc
      · exact .inr ⟨rfl, hv⟩
      · exact .inl (.inr hc)
    · rcases hc with rfl | hc
      · exact .inl (.inl rfl)
      · rcases ih hc with h | h
        · exact .inl (.inr h)
        · exact .inr h

/-- Every write keeps the canonical form. -/
theorem Memory.write_wf (m : Memory) (a : Nat) (v : Byte) (h : Memory.wf m) : Memory.wf (Memory.write m a v) := by
  refine ⟨?_, ?_⟩
  · obtain ⟨hs, -⟩ := h
    induction m with
    | nil => by_cases hv : v = Config.dmemFill <;> simp [Memory.write, hv]
    | cons d m ih =>
      obtain ⟨b, x⟩ := d
      have hs' := List.pairwise_cons.1 hs
      simp only [Memory.write]
      split_ifs with h1 hv h2 hv
      · exact hs
      · refine List.pairwise_cons.2 ⟨fun c hc => ?_, hs⟩
        rcases List.mem_cons.1 hc with rfl | hc
        · exact h1
        · exact lt_trans h1 (hs'.1 c hc)
      · exact hs'.2
      · subst h2
        exact List.pairwise_cons.2 ⟨hs'.1, hs'.2⟩
      · refine List.pairwise_cons.2 ⟨fun c hc => ?_, ih hs'.2⟩
        rcases Memory.write_mem m a v c hc with hc | ⟨rfl, -⟩
        · exact hs'.1 c hc
        · show b < a
          omega
  · intro c hc
    rcases Memory.write_mem m a v c hc with hc | ⟨rfl, hv⟩
    · exact h.2 c hc
    · exact hv

theorem Memory.write_bounded (m : Memory) (a : Nat) (v : Byte) (n : Nat) (ha : a < n) (h : ∀ c ∈ m, c.1 < n) :
    ∀ c ∈ Memory.write m a v, c.1 < n := by
  intro c hc
  rcases Memory.write_mem m a v c hc with hc | ⟨rfl, -⟩
  · exact h c hc
  · exact ha

/-- In a canonical list, what an address reads as is its entry, or the fill byte where it has none. -/
theorem Memory.read_of_mem (m : Memory) (h : Memory.wf m) (c : Host.Cell) (hc : c ∈ m) :
    Memory.read m c.1 = c.2 := by
  obtain ⟨hs, -⟩ := h
  induction m with
  | nil => cases hc
  | cons d m ih =>
    obtain ⟨b, x⟩ := d
    have hs' := List.pairwise_cons.1 hs
    rcases List.mem_cons.1 hc with rfl | hc
    · simp [Memory.read]
    · have : b < c.1 := hs'.1 c hc
      simp only [Memory.read]
      rw [if_neg (by omega)]
      exact ih hc hs'.2

theorem Memory.read_of_no_entry (m : Memory) (a : Nat) (h : ∀ c ∈ m, c.1 ≠ a) :
    Memory.read m a = Config.dmemFill := by
  induction m with
  | nil => rfl
  | cons d m ih =>
    simp only [Memory.read]
    rw [if_neg (h d (by simp))]
    exact ih fun c hc => h c (by simp [hc])

/-- Two canonical memories that read the same at every address are equal lists. -/
theorem Memory.ext_of_wf (m m' : Memory) (h : Memory.wf m) (h' : Memory.wf m')
    (hr : ∀ a, Memory.read m a = Memory.read m' a) : m = m' := by
  have key : ∀ m m' : Memory, Memory.wf m → Memory.wf m' → (∀ a, Memory.read m a = Memory.read m' a) →
      ∀ c ∈ m, c ∈ m' := by
    intro m m' h h' hr c hc
    by_contra hn
    have h1 := Memory.read_of_mem m h c hc
    rw [hr c.1] at h1
    by_cases hex : ∃ d ∈ m', d.1 = c.1
    · obtain ⟨d, hd, hdc⟩ := hex
      have h2 := Memory.read_of_mem m' h' d hd
      rw [hdc, h1] at h2
      exact hn ((Prod.ext hdc.symm h2 : c = d) ▸ hd)
    · push Not at hex
      rw [Memory.read_of_no_entry m' c.1 hex] at h1
      exact h.2 c hc h1.symm
  have nd : ∀ m : Memory, Memory.wf m → m.Nodup := fun m h =>
    h.1.imp fun {c d} hcd heq => by subst heq; exact lt_irrefl _ hcd
  have hp : m.Perm m' := (List.perm_ext_iff_of_nodup (nd m h) (nd m' h')).2 fun c =>
    ⟨key m m' h h' hr c, key m' m h' h (fun a => (hr a).symm) c⟩
  exact hp.eq_of_pairwise (fun c d _ _ hcd hdc => absurd (lt_trans hcd hdc) (lt_irrefl _)) h.1 h'.1

theorem mem_insertAddr (l : List Nat) (a b : Nat) : b ∈ insertAddr l a ↔ b = a ∨ b ∈ l := by
  induction l with
  | nil => simp [insertAddr]
  | cons c l ih =>
    simp only [insertAddr]
    split_ifs with h1 h2
    · simp
    · subst h2; simp
    · simp [ih]; tauto

theorem insertAddr_rising (l : List Nat) (a : Nat) (h : l.Pairwise (· < ·)) :
    (insertAddr l a).Pairwise (· < ·) := by
  induction l with
  | nil => simp [insertAddr]
  | cons c l ih =>
    have h' := List.pairwise_cons.1 h
    simp only [insertAddr]
    split_ifs with h1 h2
    · refine List.pairwise_cons.2 ⟨fun d hd => ?_, h⟩
      rcases List.mem_cons.1 hd with rfl | hd
      · exact h1
      · exact lt_trans h1 (h'.1 d hd)
    · exact h
    · refine List.pairwise_cons.2 ⟨fun d hd => ?_, ih h'.2⟩
      rcases (mem_insertAddr l a d).1 hd with rfl | hd
      · omega
      · exact h'.1 d hd

end Sys2Proof.Machine
end

