-- ==== Sys2Proof/Laws/State.lean ====
section
/-! SUPPORT. One lemma per field per named update of the state, each true by unfolding, so that no later proof unfolds an
update. -/

namespace Sys2Proof.Machine

@[simp] theorem storeByte_irqEn (a : Nat) (v : Byte) (s : State) : (storeByte a v s).irqEn = s.irqEn := rfl
@[simp] theorem storeByte_busy (a : Nat) (v : Byte) (s : State) : (storeByte a v s).busy = s.busy := rfl
@[simp] theorem storeByte_done (a : Nat) (v : Byte) (s : State) : (storeByte a v s).done = s.done := rfl
@[simp] theorem storeByte_lost (a : Nat) (v : Byte) (s : State) : (storeByte a v s).lost = s.lost := rfl
@[simp] theorem storeByte_errcode (a : Nat) (v : Byte) (s : State) : (storeByte a v s).errcode = s.errcode := rfl
@[simp] theorem storeByte_cmd (a : Nat) (v : Byte) (s : State) : (storeByte a v s).cmd = s.cmd := rfl
@[simp] theorem storeByte_arg0 (a : Nat) (v : Byte) (s : State) : (storeByte a v s).arg0 = s.arg0 := rfl
@[simp] theorem storeByte_arg1 (a : Nat) (v : Byte) (s : State) : (storeByte a v s).arg1 = s.arg1 := rfl
@[simp] theorem storeByte_inBase (a : Nat) (v : Byte) (s : State) : (storeByte a v s).inBase = s.inBase := rfl
@[simp] theorem storeByte_inLen (a : Nat) (v : Byte) (s : State) : (storeByte a v s).inLen = s.inLen := rfl
@[simp] theorem storeByte_outBase (a : Nat) (v : Byte) (s : State) : (storeByte a v s).outBase = s.outBase := rfl
@[simp] theorem storeByte_outCap (a : Nat) (v : Byte) (s : State) : (storeByte a v s).outCap = s.outCap := rfl
@[simp] theorem storeByte_outLen (a : Nat) (v : Byte) (s : State) : (storeByte a v s).outLen = s.outLen := rfl
@[simp] theorem storeByte_result0 (a : Nat) (v : Byte) (s : State) : (storeByte a v s).result0 = s.result0 := rfl
@[simp] theorem storeByte_result1 (a : Nat) (v : Byte) (s : State) : (storeByte a v s).result1 = s.result1 := rfl
@[simp] theorem storeByte_result2 (a : Nat) (v : Byte) (s : State) : (storeByte a v s).result2 = s.result2 := rfl
@[simp] theorem storeByte_bitwin (a : Nat) (v : Byte) (s : State) : (storeByte a v s).bitwin = s.bitwin := rfl
@[simp] theorem storeByte_ft (a : Nat) (v : Byte) (s : State) : (storeByte a v s).ft = s.ft := rfl
@[simp] theorem storeByte_tree (a : Nat) (v : Byte) (s : State) : (storeByte a v s).tree = s.tree := rfl
@[simp] theorem storeByte_ct (a : Nat) (v : Byte) (s : State) : (storeByte a v s).ct = s.ct := rfl
@[simp] theorem storeByte_bp (a : Nat) (v : Byte) (s : State) : (storeByte a v s).bp = s.bp := rfl
@[simp] theorem storeByte_br (a : Nat) (v : Byte) (s : State) : (storeByte a v s).br = { s.br with changed := if inReaderBuffer s.br a then insertAddr s.br.changed a else s.br.changed } := rfl
@[simp] theorem storeByte_dmem (a : Nat) (v : Byte) (s : State) : (storeByte a v s).dmem = Memory.write s.dmem a v := rfl
@[simp] theorem storeByte_dmemSize (a : Nat) (v : Byte) (s : State) : (storeByte a v s).dmemSize = s.dmemSize := rfl
@[simp] theorem storeByte_draws (a : Nat) (v : Byte) (s : State) : (storeByte a v s).draws = s.draws := rfl
@[simp] theorem storeByte_agenda (a : Nat) (v : Byte) (s : State) : (storeByte a v s).agenda = s.agenda := rfl
@[simp] theorem storeByte_reply (a : Nat) (v : Byte) (s : State) : (storeByte a v s).reply = s.reply := rfl

@[simp] theorem invalidate_irqEn (s : State) : (invalidate s).irqEn = s.irqEn := rfl
@[simp] theorem invalidate_busy (s : State) : (invalidate s).busy = s.busy := rfl
@[simp] theorem invalidate_done (s : State) : (invalidate s).done = s.done := rfl
@[simp] theorem invalidate_lost (s : State) : (invalidate s).lost = s.lost := rfl
@[simp] theorem invalidate_errcode (s : State) : (invalidate s).errcode = s.errcode := rfl
@[simp] theorem invalidate_cmd (s : State) : (invalidate s).cmd = s.cmd := rfl
@[simp] theorem invalidate_arg0 (s : State) : (invalidate s).arg0 = s.arg0 := rfl
@[simp] theorem invalidate_arg1 (s : State) : (invalidate s).arg1 = s.arg1 := rfl
@[simp] theorem invalidate_inBase (s : State) : (invalidate s).inBase = s.inBase := rfl
@[simp] theorem invalidate_inLen (s : State) : (invalidate s).inLen = s.inLen := rfl
@[simp] theorem invalidate_outBase (s : State) : (invalidate s).outBase = s.outBase := rfl
@[simp] theorem invalidate_outCap (s : State) : (invalidate s).outCap = s.outCap := rfl
@[simp] theorem invalidate_outLen (s : State) : (invalidate s).outLen = s.outLen := rfl
@[simp] theorem invalidate_result0 (s : State) : (invalidate s).result0 = s.result0 := rfl
@[simp] theorem invalidate_result1 (s : State) : (invalidate s).result1 = s.result1 := rfl
@[simp] theorem invalidate_result2 (s : State) : (invalidate s).result2 = s.result2 := rfl
@[simp] theorem invalidate_bitwin (s : State) : (invalidate s).bitwin = s.bitwin := rfl
@[simp] theorem invalidate_ft (s : State) : (invalidate s).ft = s.ft := rfl
@[simp] theorem invalidate_tree (s : State) : (invalidate s).tree = { s.tree with valid := false } := rfl
@[simp] theorem invalidate_ct (s : State) : (invalidate s).ct = { s.ct with valid := false } := rfl
@[simp] theorem invalidate_bp (s : State) : (invalidate s).bp = s.bp := rfl
@[simp] theorem invalidate_br (s : State) : (invalidate s).br = s.br := rfl
@[simp] theorem invalidate_dmem (s : State) : (invalidate s).dmem = s.dmem := rfl
@[simp] theorem invalidate_dmemSize (s : State) : (invalidate s).dmemSize = s.dmemSize := rfl
@[simp] theorem invalidate_draws (s : State) : (invalidate s).draws = s.draws := rfl
@[simp] theorem invalidate_agenda (s : State) : (invalidate s).agenda = s.agenda := rfl
@[simp] theorem invalidate_reply (s : State) : (invalidate s).reply = s.reply := rfl

@[simp] theorem clearTable_irqEn (s : State) : (clearTable s).irqEn = s.irqEn := rfl
@[simp] theorem clearTable_busy (s : State) : (clearTable s).busy = s.busy := rfl
@[simp] theorem clearTable_done (s : State) : (clearTable s).done = s.done := rfl
@[simp] theorem clearTable_lost (s : State) : (clearTable s).lost = s.lost := rfl
@[simp] theorem clearTable_errcode (s : State) : (clearTable s).errcode = s.errcode := rfl
@[simp] theorem clearTable_cmd (s : State) : (clearTable s).cmd = s.cmd := rfl
@[simp] theorem clearTable_arg0 (s : State) : (clearTable s).arg0 = s.arg0 := rfl
@[simp] theorem clearTable_arg1 (s : State) : (clearTable s).arg1 = s.arg1 := rfl
@[simp] theorem clearTable_inBase (s : State) : (clearTable s).inBase = s.inBase := rfl
@[simp] theorem clearTable_inLen (s : State) : (clearTable s).inLen = s.inLen := rfl
@[simp] theorem clearTable_outBase (s : State) : (clearTable s).outBase = s.outBase := rfl
@[simp] theorem clearTable_outCap (s : State) : (clearTable s).outCap = s.outCap := rfl
@[simp] theorem clearTable_outLen (s : State) : (clearTable s).outLen = s.outLen := rfl
@[simp] theorem clearTable_result0 (s : State) : (clearTable s).result0 = s.result0 := rfl
@[simp] theorem clearTable_result1 (s : State) : (clearTable s).result1 = s.result1 := rfl
@[simp] theorem clearTable_result2 (s : State) : (clearTable s).result2 = s.result2 := rfl
@[simp] theorem clearTable_bitwin (s : State) : (clearTable s).bitwin = s.bitwin := rfl
@[simp] theorem clearTable_ft (s : State) : (clearTable s).ft = [] := rfl
@[simp] theorem clearTable_tree (s : State) : (clearTable s).tree = { s.tree with valid := false } := rfl
@[simp] theorem clearTable_ct (s : State) : (clearTable s).ct = { s.ct with valid := false } := rfl
@[simp] theorem clearTable_bp (s : State) : (clearTable s).bp = s.bp := rfl
@[simp] theorem clearTable_br (s : State) : (clearTable s).br = s.br := rfl
@[simp] theorem clearTable_dmem (s : State) : (clearTable s).dmem = s.dmem := rfl
@[simp] theorem clearTable_dmemSize (s : State) : (clearTable s).dmemSize = s.dmemSize := rfl
@[simp] theorem clearTable_draws (s : State) : (clearTable s).draws = s.draws := rfl
@[simp] theorem clearTable_agenda (s : State) : (clearTable s).agenda = s.agenda := rfl
@[simp] theorem clearTable_reply (s : State) : (clearTable s).reply = s.reply := rfl

@[simp] theorem setResults_irqEn (r0 r1 r2 : Word) (s : State) : (setResults r0 r1 r2 s).irqEn = s.irqEn := rfl
@[simp] theorem setResults_busy (r0 r1 r2 : Word) (s : State) : (setResults r0 r1 r2 s).busy = s.busy := rfl
@[simp] theorem setResults_done (r0 r1 r2 : Word) (s : State) : (setResults r0 r1 r2 s).done = s.done := rfl
@[simp] theorem setResults_lost (r0 r1 r2 : Word) (s : State) : (setResults r0 r1 r2 s).lost = s.lost := rfl
@[simp] theorem setResults_errcode (r0 r1 r2 : Word) (s : State) : (setResults r0 r1 r2 s).errcode = s.errcode := rfl
@[simp] theorem setResults_cmd (r0 r1 r2 : Word) (s : State) : (setResults r0 r1 r2 s).cmd = s.cmd := rfl
@[simp] theorem setResults_arg0 (r0 r1 r2 : Word) (s : State) : (setResults r0 r1 r2 s).arg0 = s.arg0 := rfl
@[simp] theorem setResults_arg1 (r0 r1 r2 : Word) (s : State) : (setResults r0 r1 r2 s).arg1 = s.arg1 := rfl
@[simp] theorem setResults_inBase (r0 r1 r2 : Word) (s : State) : (setResults r0 r1 r2 s).inBase = s.inBase := rfl
@[simp] theorem setResults_inLen (r0 r1 r2 : Word) (s : State) : (setResults r0 r1 r2 s).inLen = s.inLen := rfl
@[simp] theorem setResults_outBase (r0 r1 r2 : Word) (s : State) : (setResults r0 r1 r2 s).outBase = s.outBase := rfl
@[simp] theorem setResults_outCap (r0 r1 r2 : Word) (s : State) : (setResults r0 r1 r2 s).outCap = s.outCap := rfl
@[simp] theorem setResults_outLen (r0 r1 r2 : Word) (s : State) : (setResults r0 r1 r2 s).outLen = s.outLen := rfl
@[simp] theorem setResults_result0 (r0 r1 r2 : Word) (s : State) : (setResults r0 r1 r2 s).result0 = r0 := rfl
@[simp] theorem setResults_result1 (r0 r1 r2 : Word) (s : State) : (setResults r0 r1 r2 s).result1 = r1 := rfl
@[simp] theorem setResults_result2 (r0 r1 r2 : Word) (s : State) : (setResults r0 r1 r2 s).result2 = r2 := rfl
@[simp] theorem setResults_bitwin (r0 r1 r2 : Word) (s : State) : (setResults r0 r1 r2 s).bitwin = s.bitwin := rfl
@[simp] theorem setResults_ft (r0 r1 r2 : Word) (s : State) : (setResults r0 r1 r2 s).ft = s.ft := rfl
@[simp] theorem setResults_tree (r0 r1 r2 : Word) (s : State) : (setResults r0 r1 r2 s).tree = s.tree := rfl
@[simp] theorem setResults_ct (r0 r1 r2 : Word) (s : State) : (setResults r0 r1 r2 s).ct = s.ct := rfl
@[simp] theorem setResults_bp (r0 r1 r2 : Word) (s : State) : (setResults r0 r1 r2 s).bp = s.bp := rfl
@[simp] theorem setResults_br (r0 r1 r2 : Word) (s : State) : (setResults r0 r1 r2 s).br = s.br := rfl
@[simp] theorem setResults_dmem (r0 r1 r2 : Word) (s : State) : (setResults r0 r1 r2 s).dmem = s.dmem := rfl
@[simp] theorem setResults_dmemSize (r0 r1 r2 : Word) (s : State) : (setResults r0 r1 r2 s).dmemSize = s.dmemSize := rfl
@[simp] theorem setResults_draws (r0 r1 r2 : Word) (s : State) : (setResults r0 r1 r2 s).draws = s.draws := rfl
@[simp] theorem setResults_agenda (r0 r1 r2 : Word) (s : State) : (setResults r0 r1 r2 s).agenda = s.agenda := rfl
@[simp] theorem setResults_reply (r0 r1 r2 : Word) (s : State) : (setResults r0 r1 r2 s).reply = s.reply := rfl

@[simp] theorem issue_irqEn (w : Word) (s : State) : (issue w s).irqEn = s.irqEn := rfl
@[simp] theorem issue_busy (w : Word) (s : State) : (issue w s).busy = true := rfl
@[simp] theorem issue_done (w : Word) (s : State) : (issue w s).done = false := rfl
@[simp] theorem issue_lost (w : Word) (s : State) : (issue w s).lost = s.lost := rfl
@[simp] theorem issue_errcode (w : Word) (s : State) : (issue w s).errcode = s.errcode := rfl
@[simp] theorem issue_cmd (w : Word) (s : State) : (issue w s).cmd = w := rfl
@[simp] theorem issue_arg0 (w : Word) (s : State) : (issue w s).arg0 = s.arg0 := rfl
@[simp] theorem issue_arg1 (w : Word) (s : State) : (issue w s).arg1 = s.arg1 := rfl
@[simp] theorem issue_inBase (w : Word) (s : State) : (issue w s).inBase = s.inBase := rfl
@[simp] theorem issue_inLen (w : Word) (s : State) : (issue w s).inLen = s.inLen := rfl
@[simp] theorem issue_outBase (w : Word) (s : State) : (issue w s).outBase = s.outBase := rfl
@[simp] theorem issue_outCap (w : Word) (s : State) : (issue w s).outCap = s.outCap := rfl
@[simp] theorem issue_outLen (w : Word) (s : State) : (issue w s).outLen = s.outLen := rfl
@[simp] theorem issue_result0 (w : Word) (s : State) : (issue w s).result0 = s.result0 := rfl
@[simp] theorem issue_result1 (w : Word) (s : State) : (issue w s).result1 = s.result1 := rfl
@[simp] theorem issue_result2 (w : Word) (s : State) : (issue w s).result2 = s.result2 := rfl
@[simp] theorem issue_bitwin (w : Word) (s : State) : (issue w s).bitwin = s.bitwin := rfl
@[simp] theorem issue_ft (w : Word) (s : State) : (issue w s).ft = s.ft := rfl
@[simp] theorem issue_tree (w : Word) (s : State) : (issue w s).tree = s.tree := rfl
@[simp] theorem issue_ct (w : Word) (s : State) : (issue w s).ct = s.ct := rfl
@[simp] theorem issue_bp (w : Word) (s : State) : (issue w s).bp = s.bp := rfl
@[simp] theorem issue_br (w : Word) (s : State) : (issue w s).br = s.br := rfl
@[simp] theorem issue_dmem (w : Word) (s : State) : (issue w s).dmem = s.dmem := rfl
@[simp] theorem issue_dmemSize (w : Word) (s : State) : (issue w s).dmemSize = s.dmemSize := rfl
@[simp] theorem issue_draws (w : Word) (s : State) : (issue w s).draws = s.draws := rfl
@[simp] theorem issue_agenda (w : Word) (s : State) : (issue w s).agenda = s.agenda := rfl
@[simp] theorem issue_reply (w : Word) (s : State) : (issue w s).reply = s.reply := rfl

@[simp] theorem closePacker_irqEn (s : State) : (closePacker s).irqEn = s.irqEn := rfl
@[simp] theorem closePacker_busy (s : State) : (closePacker s).busy = s.busy := rfl
@[simp] theorem closePacker_done (s : State) : (closePacker s).done = s.done := rfl
@[simp] theorem closePacker_lost (s : State) : (closePacker s).lost = s.lost := rfl
@[simp] theorem closePacker_errcode (s : State) : (closePacker s).errcode = s.errcode := rfl
@[simp] theorem closePacker_cmd (s : State) : (closePacker s).cmd = s.cmd := rfl
@[simp] theorem closePacker_arg0 (s : State) : (closePacker s).arg0 = s.arg0 := rfl
@[simp] theorem closePacker_arg1 (s : State) : (closePacker s).arg1 = s.arg1 := rfl
@[simp] theorem closePacker_inBase (s : State) : (closePacker s).inBase = s.inBase := rfl
@[simp] theorem closePacker_inLen (s : State) : (closePacker s).inLen = s.inLen := rfl
@[simp] theorem closePacker_outBase (s : State) : (closePacker s).outBase = s.outBase := rfl
@[simp] theorem closePacker_outCap (s : State) : (closePacker s).outCap = s.outCap := rfl
@[simp] theorem closePacker_outLen (s : State) : (closePacker s).outLen = s.bp.bytes := rfl
@[simp] theorem closePacker_result0 (s : State) : (closePacker s).result0 = s.result0 := rfl
@[simp] theorem closePacker_result1 (s : State) : (closePacker s).result1 = s.result1 := rfl
@[simp] theorem closePacker_result2 (s : State) : (closePacker s).result2 = s.result2 := rfl
@[simp] theorem closePacker_bitwin (s : State) : (closePacker s).bitwin = s.bitwin := rfl
@[simp] theorem closePacker_ft (s : State) : (closePacker s).ft = s.ft := rfl
@[simp] theorem closePacker_tree (s : State) : (closePacker s).tree = s.tree := rfl
@[simp] theorem closePacker_ct (s : State) : (closePacker s).ct = s.ct := rfl
@[simp] theorem closePacker_bp (s : State) : (closePacker s).bp = { s.bp with active := false } := rfl
@[simp] theorem closePacker_br (s : State) : (closePacker s).br = s.br := rfl
@[simp] theorem closePacker_dmem (s : State) : (closePacker s).dmem = s.dmem := rfl
@[simp] theorem closePacker_dmemSize (s : State) : (closePacker s).dmemSize = s.dmemSize := rfl
@[simp] theorem closePacker_draws (s : State) : (closePacker s).draws = s.draws := rfl
@[simp] theorem closePacker_agenda (s : State) : (closePacker s).agenda = s.agenda := rfl
@[simp] theorem closePacker_reply (s : State) : (closePacker s).reply = s.reply := rfl

@[simp] theorem answer_irqEn (r : HostReply) (s : State) : (answer r s).irqEn = s.irqEn := rfl
@[simp] theorem answer_busy (r : HostReply) (s : State) : (answer r s).busy = s.busy := rfl
@[simp] theorem answer_done (r : HostReply) (s : State) : (answer r s).done = s.done := rfl
@[simp] theorem answer_lost (r : HostReply) (s : State) : (answer r s).lost = s.lost := rfl
@[simp] theorem answer_errcode (r : HostReply) (s : State) : (answer r s).errcode = s.errcode := rfl
@[simp] theorem answer_cmd (r : HostReply) (s : State) : (answer r s).cmd = s.cmd := rfl
@[simp] theorem answer_arg0 (r : HostReply) (s : State) : (answer r s).arg0 = s.arg0 := rfl
@[simp] theorem answer_arg1 (r : HostReply) (s : State) : (answer r s).arg1 = s.arg1 := rfl
@[simp] theorem answer_inBase (r : HostReply) (s : State) : (answer r s).inBase = s.inBase := rfl
@[simp] theorem answer_inLen (r : HostReply) (s : State) : (answer r s).inLen = s.inLen := rfl
@[simp] theorem answer_outBase (r : HostReply) (s : State) : (answer r s).outBase = s.outBase := rfl
@[simp] theorem answer_outCap (r : HostReply) (s : State) : (answer r s).outCap = s.outCap := rfl
@[simp] theorem answer_outLen (r : HostReply) (s : State) : (answer r s).outLen = s.outLen := rfl
@[simp] theorem answer_result0 (r : HostReply) (s : State) : (answer r s).result0 = s.result0 := rfl
@[simp] theorem answer_result1 (r : HostReply) (s : State) : (answer r s).result1 = s.result1 := rfl
@[simp] theorem answer_result2 (r : HostReply) (s : State) : (answer r s).result2 = s.result2 := rfl
@[simp] theorem answer_bitwin (r : HostReply) (s : State) : (answer r s).bitwin = s.bitwin := rfl
@[simp] theorem answer_ft (r : HostReply) (s : State) : (answer r s).ft = s.ft := rfl
@[simp] theorem answer_tree (r : HostReply) (s : State) : (answer r s).tree = s.tree := rfl
@[simp] theorem answer_ct (r : HostReply) (s : State) : (answer r s).ct = s.ct := rfl
@[simp] theorem answer_bp (r : HostReply) (s : State) : (answer r s).bp = s.bp := rfl
@[simp] theorem answer_br (r : HostReply) (s : State) : (answer r s).br = s.br := rfl
@[simp] theorem answer_dmem (r : HostReply) (s : State) : (answer r s).dmem = s.dmem := rfl
@[simp] theorem answer_dmemSize (r : HostReply) (s : State) : (answer r s).dmemSize = s.dmemSize := rfl
@[simp] theorem answer_draws (r : HostReply) (s : State) : (answer r s).draws = s.draws := rfl
@[simp] theorem answer_agenda (r : HostReply) (s : State) : (answer r s).agenda = s.agenda := rfl
@[simp] theorem answer_reply (r : HostReply) (s : State) : (answer r s).reply = some r := rfl

@[simp] theorem afterTurn_irqEn (s : State) : (afterTurn s).irqEn = s.irqEn := rfl
@[simp] theorem afterTurn_busy (s : State) : (afterTurn s).busy = s.busy := rfl
@[simp] theorem afterTurn_done (s : State) : (afterTurn s).done = s.done := rfl
@[simp] theorem afterTurn_lost (s : State) : (afterTurn s).lost = s.lost := rfl
@[simp] theorem afterTurn_errcode (s : State) : (afterTurn s).errcode = s.errcode := rfl
@[simp] theorem afterTurn_cmd (s : State) : (afterTurn s).cmd = s.cmd := rfl
@[simp] theorem afterTurn_arg0 (s : State) : (afterTurn s).arg0 = s.arg0 := rfl
@[simp] theorem afterTurn_arg1 (s : State) : (afterTurn s).arg1 = s.arg1 := rfl
@[simp] theorem afterTurn_inBase (s : State) : (afterTurn s).inBase = s.inBase := rfl
@[simp] theorem afterTurn_inLen (s : State) : (afterTurn s).inLen = s.inLen := rfl
@[simp] theorem afterTurn_outBase (s : State) : (afterTurn s).outBase = s.outBase := rfl
@[simp] theorem afterTurn_outCap (s : State) : (afterTurn s).outCap = s.outCap := rfl
@[simp] theorem afterTurn_outLen (s : State) : (afterTurn s).outLen = s.outLen := rfl
@[simp] theorem afterTurn_result0 (s : State) : (afterTurn s).result0 = s.result0 := rfl
@[simp] theorem afterTurn_result1 (s : State) : (afterTurn s).result1 = s.result1 := rfl
@[simp] theorem afterTurn_result2 (s : State) : (afterTurn s).result2 = s.result2 := rfl
@[simp] theorem afterTurn_bitwin (s : State) : (afterTurn s).bitwin = s.bitwin := rfl
@[simp] theorem afterTurn_ft (s : State) : (afterTurn s).ft = s.ft := rfl
@[simp] theorem afterTurn_tree (s : State) : (afterTurn s).tree = s.tree := rfl
@[simp] theorem afterTurn_ct (s : State) : (afterTurn s).ct = s.ct := rfl
@[simp] theorem afterTurn_bp (s : State) : (afterTurn s).bp = s.bp := rfl
@[simp] theorem afterTurn_br (s : State) : (afterTurn s).br = s.br := rfl
@[simp] theorem afterTurn_dmem (s : State) : (afterTurn s).dmem = s.dmem := rfl
@[simp] theorem afterTurn_dmemSize (s : State) : (afterTurn s).dmemSize = s.dmemSize := rfl
@[simp] theorem afterTurn_draws (s : State) : (afterTurn s).draws = s.draws := rfl
@[simp] theorem afterTurn_agenda (s : State) : (afterTurn s).agenda = s.agenda.tail := rfl
@[simp] theorem afterTurn_reply (s : State) : (afterTurn s).reply = s.reply := rfl

@[simp] theorem resetCore_irqEn (s : State) : (resetCore s).irqEn = false := rfl
@[simp] theorem resetCore_busy (s : State) : (resetCore s).busy = false := rfl
@[simp] theorem resetCore_done (s : State) : (resetCore s).done = false := rfl
@[simp] theorem resetCore_lost (s : State) : (resetCore s).lost = false := rfl
@[simp] theorem resetCore_errcode (s : State) : (resetCore s).errcode = .ok := rfl
@[simp] theorem resetCore_cmd (s : State) : (resetCore s).cmd = 0 := rfl
@[simp] theorem resetCore_arg0 (s : State) : (resetCore s).arg0 = 0 := rfl
@[simp] theorem resetCore_arg1 (s : State) : (resetCore s).arg1 = 0 := rfl
@[simp] theorem resetCore_inBase (s : State) : (resetCore s).inBase = 0 := rfl
@[simp] theorem resetCore_inLen (s : State) : (resetCore s).inLen = 0 := rfl
@[simp] theorem resetCore_outBase (s : State) : (resetCore s).outBase = 0 := rfl
@[simp] theorem resetCore_outCap (s : State) : (resetCore s).outCap = 0 := rfl
@[simp] theorem resetCore_outLen (s : State) : (resetCore s).outLen = 0 := rfl
@[simp] theorem resetCore_result0 (s : State) : (resetCore s).result0 = 0 := rfl
@[simp] theorem resetCore_result1 (s : State) : (resetCore s).result1 = 0 := rfl
@[simp] theorem resetCore_result2 (s : State) : (resetCore s).result2 = 0 := rfl
@[simp] theorem resetCore_bitwin (s : State) : (resetCore s).bitwin = Vector.replicate 8 0 := rfl
@[simp] theorem resetCore_ft (s : State) : (resetCore s).ft = [] := rfl
@[simp] theorem resetCore_tree (s : State) : (resetCore s).tree = Tree.reset := rfl
@[simp] theorem resetCore_ct (s : State) : (resetCore s).ct = CodeTable.reset := rfl
@[simp] theorem resetCore_bp (s : State) : (resetCore s).bp = Packer.reset := rfl
@[simp] theorem resetCore_br (s : State) : (resetCore s).br = Reader.reset := rfl
@[simp] theorem resetCore_dmem (s : State) : (resetCore s).dmem = s.dmem := rfl
@[simp] theorem resetCore_dmemSize (s : State) : (resetCore s).dmemSize = s.dmemSize := rfl
@[simp] theorem resetCore_draws (s : State) : (resetCore s).draws = s.draws := rfl
@[simp] theorem resetCore_agenda (s : State) : (resetCore s).agenda = s.agenda := rfl
@[simp] theorem resetCore_reply (s : State) : (resetCore s).reply = s.reply := rfl

end Sys2Proof.Machine
end

