-- ==== Sys2Proof/Laws/Ops.lean ====
section
/-! SUPPORT. The laws of the shared operations: sequencing, DMEM as the engine reaches it, completion. -/

namespace Sys2Proof.Machine

@[simp] theorem Res.bind_ok {α β : Type} (a : α) (s : State) (k : α → State → Res β) : (Res.ok a s).bind k = k a s := rfl

@[simp] theorem Res.bind_raise {α β : Type} (e : ErrCode) (s : State) (k : α → State → Res β) :
    (Res.raise e s).bind k = .raise e s := rfl

@[simp] theorem Res.bind_fault {α β : Type} (f : Fault) (k : α → State → Res β) :
    (Res.fault f : Res α).bind k = .fault f := rfl

/-- A sequence of two parts ends with a value only through a value of the first. -/
theorem Res.bind_eq_ok {α β : Type} (r : Res α) (k : α → State → Res β) (b : β) (t : State) (h : r.bind k = .ok b t) :
    ∃ a u, r = .ok a u ∧ k a u = .ok b t := by
  cases r with
  | ok a u => exact ⟨a, u, rfl, h⟩
  | raise e u => cases h
  | fault f => cases h

/-- A sequence of two parts raises a code in the first part or in the second. -/
theorem Res.bind_eq_raise {α β : Type} (r : Res α) (k : α → State → Res β) (e : ErrCode) (t : State)
    (h : r.bind k = .raise e t) : r = .raise e t ∨ ∃ a u, r = .ok a u ∧ k a u = .raise e t := by
  cases r with
  | ok a u => exact .inr ⟨a, u, rfl, h⟩
  | raise e u => cases h; exact .inl rfl
  | fault f => cases h

/-- A sequence of two parts faults in the first part or in the second. -/
theorem Res.bind_eq_fault {α β : Type} (r : Res α) (k : α → State → Res β) (f : Fault)
    (h : r.bind k = .fault f) : r = .fault f ∨ ∃ a u, r = .ok a u ∧ k a u = .fault f := by
  cases r with
  | ok a u => exact .inr ⟨a, u, rfl, h⟩
  | raise e u => cases h
  | fault f => cases h; exact .inl rfl

theorem memRead_inDmem (a : Nat) (s : State) (h : a < s.dmemSize) : memRead a s = .ok (Memory.read s.dmem a) s := by
  simp [memRead, h]

theorem memWrite_inDmem (a : Nat) (v : Byte) (s : State) (h : a < s.dmemSize) :
    memWrite a v s = .ok () (storeByte a v s) := by
  simp [memWrite, h]

/-- DMEM is in order wherever its contents and its size are the same. -/
theorem DmemOk.congr {s t : State} (h : DmemOk s) (h1 : t.dmem = s.dmem) (h2 : t.dmemSize = s.dmemSize) : DmemOk t :=
  ⟨h2 ▸ h.sizePos, h2 ▸ h.sizeLe, h1 ▸ h.canonical, by rw [h1, h2]; exact h.bounded⟩

/-- The packer is in order wherever it and the size of DMEM are the same. -/
theorem PackerOk.congr {s t : State} (h : PackerOk s) (h1 : t.bp = s.bp) (h2 : t.dmemSize = s.dmemSize) : PackerOk t :=
  ⟨by rw [h1, h2]; exact h.inDmem, by rw [h1]; exact h.fits, by rw [h1]; exact h.openBits⟩

/-- The reader is in order wherever it and the size of DMEM are the same. -/
theorem ReaderOk.congr {s t : State} (h : ReaderOk s) (h1 : t.br = s.br) (h2 : t.dmemSize = s.dmemSize) : ReaderOk t :=
  ⟨by rw [h1, h2]; exact h.inDmem, by rw [h1]; exact h.posLe, by rw [h1]; exact h.rising, by rw [h1]; exact h.inBuffer⟩

theorem storeByte_dmemOk (a : Nat) (v : Byte) (s : State) (ha : a < s.dmemSize) (h : DmemOk s) :
    DmemOk (storeByte a v s) :=
  ⟨h.sizePos, h.sizeLe, Memory.write_wf _ _ _ h.canonical, Memory.write_bounded _ _ _ _ ha h.bounded⟩

/-- A write marks its byte as changed exactly where the reader's buffer holds it (70 R574). -/
theorem mem_storeByte_changed (a : Nat) (v : Byte) (s : State) (b : Nat) :
    b ∈ (storeByte a v s).br.changed ↔ b ∈ s.br.changed ∨ (inReaderBuffer s.br b = true ∧ b = a) := by
  simp only [storeByte_br]
  by_cases h : inReaderBuffer s.br a = true
  · rw [if_pos h, mem_insertAddr]
    constructor
    · rintro (rfl | h')
      · exact .inr ⟨h, rfl⟩
      · exact .inl h'
    · rintro (h' | ⟨-, rfl⟩)
      · exact .inr h'
      · exact .inl rfl
  · rw [if_neg h]
    constructor
    · exact .inl
    · rintro (h' | ⟨h', rfl⟩)
      · exact h'
      · exact absurd h' h

theorem storeByte_readerOk (a : Nat) (v : Byte) (s : State) (h : ReaderOk s) : ReaderOk (storeByte a v s) := by
  refine ⟨h.inDmem, h.posLe, ?_, ?_⟩
  · simp only [storeByte_br]
    split_ifs
    · exact insertAddr_rising _ _ h.rising
    · exact h.rising
  · intro b hb
    rcases (mem_storeByte_changed a v s b).1 hb with hb | ⟨hb, -⟩
    · exact h.inBuffer b hb
    · exact hb

theorem readBytes_inDmem (a n : Nat) (s : State) (h : a + n ≤ s.dmemSize) :
    readBytes a n s = .ok ((List.range n).map fun k => Memory.read s.dmem (a + k)) s := by
  induction n generalizing a with
  | zero => rfl
  | succ n ih =>
    simp only [readBytes]
    rw [memRead_inDmem _ _ (by omega), Res.bind_ok, ih _ (by omega), Res.bind_ok, List.range_succ_eq_map]
    simp [Nat.add_assoc, Nat.add_comm 1]

/-- Completion answers a next state, with the three STATUS updates and nothing else (60 R506). -/
theorem complete_eq (e : ErrCode) (s : State) :
    complete e s = .next { s with errcode := e, busy := false, done := true } := rfl

/-- A command answers a next state where its body ends with a value or raises a code. -/
theorem conclude_eq_next {α : Type} (r : Res α) (t : State) (h : conclude r = .next t) :
    (∃ a u, r = .ok a u ∧ t = { u with errcode := .ok, busy := false, done := true }) ∨
      ∃ e u, r = .raise e u ∧ t = { u with errcode := e, busy := false, done := true } := by
  cases r with
  | ok a u => exact .inl ⟨a, u, rfl, by simpa [conclude, complete] using h.symm⟩
  | raise e u => exact .inr ⟨e, u, rfl, by simpa [conclude, complete] using h.symm⟩
  | fault f => cases h

end Sys2Proof.Machine
end

