-- ==== Sys2Proof/Laws/Tree.lean ====
section
/-! SUPPORT. What the tree builder makes: the shape of the tree, the working set at each merge, and that every merge takes
the two least trees (spec/40_tree_builder.md R262 to R269). -/

namespace Sys2Proof.Machine

theorem keyLe_refl (nodes : List Node) (i : Nat) : keyLe nodes i i := .inr ⟨rfl, le_refl _⟩

theorem keyLe_trans {nodes : List Node} {i j k : Nat} (h : keyLe nodes i j) (h' : keyLe nodes j k) :
    keyLe nodes i k := by
  rcases h with h | ⟨h, hi⟩ <;> rcases h' with h' | ⟨h', hj⟩
  · exact .inl (lt_trans h h')
  · exact .inl (h' ▸ h)
  · exact .inl (h ▸ h')
  · exact .inr ⟨h.trans h', le_trans hi hj⟩

/-- Selection gives an element of the list, and the least one in the key order where the list rises (40 R263, R265). -/
theorem leftmostMin_spec (nodes : List Node) (best : Nat) (js : List Nat) (hr : js.Pairwise (· < ·))
    (hb : ∀ j ∈ js, best < j) :
    leftmostMin nodes best js ∈ best :: js ∧ ∀ j ∈ best :: js, keyLe nodes (leftmostMin nodes best js) j := by
  induction js generalizing best with
  | nil => exact ⟨by simp [leftmostMin], fun j hj => by simp [leftmostMin] at hj ⊢; subst hj; exact keyLe_refl _ _⟩
  | cons j js ih =>
    have hr' := List.pairwise_cons.1 hr
    simp only [leftmostMin]
    by_cases hlt : nodeWeight nodes j < nodeWeight nodes best
    · rw [if_pos hlt]
      obtain ⟨h1, h2⟩ := ih j hr'.2 hr'.1
      refine ⟨List.mem_cons_of_mem _ h1, fun i hi => ?_⟩
      rcases List.mem_cons.1 hi with rfl | hi
      · exact keyLe_trans (h2 j (by simp)) (.inl (BitVec.lt_def.1 hlt))
      · exact h2 i hi
    · rw [if_neg hlt]
      obtain ⟨h1, h2⟩ := ih best hr'.2 fun i hi => hb i (by simp [hi])
      refine ⟨?_, fun i hi => ?_⟩
      · rcases List.mem_cons.1 h1 with h | h
        · rw [h]; simp
        · simp [h]
      · rcases List.mem_cons.1 hi with rfl | hi
        · exact h2 i (by simp)
        rcases List.mem_cons.1 hi with rfl | hi
        · refine keyLe_trans (h2 best (by simp)) ?_
          rw [BitVec.lt_def, not_lt] at hlt
          rcases lt_or_eq_of_le hlt with h | h
          · exact .inl h
          · exact .inr ⟨h, le_of_lt (hb i (by simp))⟩
        · exact h2 i (by simp [hi])

theorem getElem?_append_lt {α : Type} (l l' : List α) (i : Nat) (h : i < l.length) : (l ++ l')[i]? = l[i]? :=
  List.getElem?_append_left h

theorem nodeWeight_append (nodes : List Node) (nd : Node) (i : Nat) (h : i < nodes.length) :
    nodeWeight (nodes ++ [nd]) i = nodeWeight nodes i := by
  simp only [nodeWeight, getElem?_append_lt _ _ _ h]

theorem inWorkingSet_append (nodes : List Node) (nd : Node) (k j : Nat) (hk : k ≤ nodes.length) :
    inWorkingSet (nodes ++ [nd]) k j ↔ inWorkingSet nodes k j := by
  refine and_congr_right fun _ => ?_
  constructor
  · intro h i z o w hi hn
    exact h i z o w hi (by rw [getElem?_append_lt _ _ _ (by omega)]; exact hn)
  · intro h i z o w hi hn
    exact h i z o w hi (by rwa [getElem?_append_lt _ _ _ (by omega)] at hn)

theorem keyLe_append (nodes : List Node) (nd : Node) (i j : Nat) (hi : i < nodes.length) (hj : j < nodes.length) :
    keyLe (nodes ++ [nd]) i j ↔ keyLe nodes i j := by
  simp only [keyLe, nodeWeight_append _ _ _ hi, nodeWeight_append _ _ _ hj]

theorem mergedAt_append (nodes : List Node) (nd : Node) (k : Nat) (hk : k < nodes.length) (h : mergedAt nodes k) :
    mergedAt (nodes ++ [nd]) k := by
  obtain ⟨z, o, w, hn, hzo, hz, ho, hz', ho', hw⟩ := h
  have hzl : z.toNat < nodes.length := lt_trans hz.1 hk
  have hol : o.toNat < nodes.length := lt_trans ho.1 hk
  refine ⟨z, o, w, by rwa [getElem?_append_lt _ _ _ hk], hzo, ?_, ?_, ?_, ?_, ?_⟩
  · rwa [inWorkingSet_append _ _ _ _ (le_of_lt hk)]
  · rwa [inWorkingSet_append _ _ _ _ (le_of_lt hk)]
  · intro j hj
    rw [inWorkingSet_append _ _ _ _ (le_of_lt hk)] at hj
    rw [keyLe_append _ _ _ _ hzl (lt_trans hj.1 hk)]
    exact hz' j hj
  · intro j hj hne
    rw [inWorkingSet_append _ _ _ _ (le_of_lt hk)] at hj
    rw [keyLe_append _ _ _ _ hol (lt_trans hj.1 hk)]
    exact ho' j hj hne
  · rw [nodeWeight_append _ _ _ hzl, nodeWeight_append _ _ _ hol]
    exact hw

/-- What holds at every turn of the merge loop for a table of `n` entries: the node memory and the working list together
have `2n` cells, the leaves stand first, the list rises and holds exactly the trees of the working set, every node past
the leaves is the merge the rules ask for, and the weights of the list add up to the total weight. -/
structure MergeInv (ft : List FtEntry) (nodes : List Node) (work : List Nat) : Prop where
  len : nodes.length + work.length = 2 * ft.length
  pos : 1 ≤ work.length
  leaves : ∀ i, i < ft.length → nodes[i]? = (leavesOf ft)[i]?
  nodesGe : ft.length ≤ nodes.length
  rising : work.Pairwise (· < ·)
  roots : ∀ j, j ∈ work ↔ inWorkingSet nodes nodes.length j
  merges : ∀ k, ft.length ≤ k → k < nodes.length → mergedAt nodes k
  sum : (work.map fun j => (nodeWeight nodes j).toNat).sum = totalWeight ft

theorem leavesOf_getElem? (ft : List FtEntry) (i : Nat) :
    (leavesOf ft)[i]? = ft[i]?.map fun e => Node.leaf e.sym (e.w.setWidth 40) := by
  simp [leavesOf]

theorem leavesOf_not_internal (ft : List FtEntry) (i : Nat) (z o : BitVec 9) (w : Weight) :
    (leavesOf ft)[i]? ≠ some (.internal z o w) := by
  rw [leavesOf_getElem?]
  cases ft[i]? <;> simp

theorem MergeInv.init (ft : List FtEntry) (h : ft ≠ []) : MergeInv ft (leavesOf ft) (List.range ft.length) := by
  have hl : (leavesOf ft).length = ft.length := by simp [leavesOf]
  have hp : 1 ≤ ft.length := List.length_pos_iff.2 h
  refine ⟨by simp [hl]; omega, by simpa using hp, fun _ _ => rfl, by rw [hl], List.pairwise_lt_range, ?_, ?_, ?_⟩
  · intro j
    rw [List.mem_range, hl]
    constructor
    · exact fun hj => ⟨hj, fun i z o w _ hn => absurd hn (leavesOf_not_internal ft i z o w)⟩
    · exact fun hj => hj.1
  · intro k h1 h2
    omega
  · rw [totalWeight]
    congr 1
    refine List.ext_getElem (by simp) fun i h1 h2 => ?_
    have hi : i < ft.length := by simpa using h1
    simp only [List.getElem_map, List.getElem_range, nodeWeight, leavesOf_getElem?]
    rw [List.getElem?_eq_getElem hi]
    simp only [Option.map_some, Node.weight, BitVec.toNat_setWidth]
    exact Nat.mod_eq_of_lt (lt_trans ft[i].w.isLt (by norm_num))

theorem totalWeight_lt (ft : List FtEntry) (h : ft.length ≤ 256) : totalWeight ft < 2 ^ 40 := by
  have key : ∀ l : List FtEntry, totalWeight l ≤ l.length * (2 ^ 32 - 1) := by
    intro l
    induction l with
    | nil => simp [totalWeight]
    | cons e l ih =>
      have := e.w.isLt
      simp only [totalWeight, List.map_cons, List.sum_cons, List.length_cons] at ih ⊢
      omega
  have := key ft
  omega

theorem sum_map_erase (f : Nat → Nat) (l : List Nat) (a : Nat) (h : a ∈ l) :
    ((l.erase a).map f).sum + f a = (l.map f).sum := by
  have := (List.perm_cons_erase h).map f
  rw [this.sum_eq, List.map_cons, List.sum_cons, Nat.add_comm]

/-- The child of an internal node lies below it. -/
theorem MergeInv.child_lt {ft : List FtEntry} {nodes : List Node} {work : List Nat} (h : MergeInv ft nodes work)
    {i : Nat} {z o : BitVec 9} {w : Weight} (hn : nodes[i]? = some (.internal z o w)) :
    ft.length ≤ i ∧ z.toNat < i ∧ o.toNat < i := by
  have hi : i < nodes.length := by
    by_contra hge
    rw [List.getElem?_eq_none (by omega)] at hn
    cases hn
  have hge : ft.length ≤ i := by
    by_contra hlt
    rw [h.leaves i (by omega)] at hn
    exact leavesOf_not_internal ft i z o w hn
  obtain ⟨z', o', w', hn', -, hz, ho, -⟩ := h.merges i hge hi
  rw [hn] at hn'
  cases hn'
  exact ⟨hge, hz.1, ho.1⟩

/-- One merge keeps the loop's invariant and makes the list one shorter (40 R263 to R265). -/
theorem MergeInv.step {ft : List FtEntry} {nodes : List Node} {work : List Nat} (h : MergeInv ft nodes work)
    (hn : ft.length ≤ 256) (hw : 1 < work.length) :
    MergeInv ft (mergeOnce nodes work).1 (mergeOnce nodes work).2 ∧
      (mergeOnce nodes work).2.length + 1 = work.length := by
  have hlen := h.len
  obtain ⟨x, xs, rfl⟩ : ∃ x xs, work = x :: xs := by
    cases work with
    | nil => simp at hw
    | cons x xs => exact ⟨x, xs, rfl⟩
  have hr := List.pairwise_cons.1 h.rising
  obtain ⟨hm1, hk1⟩ := leftmostMin_spec nodes x xs hr.2 hr.1
  set m1 := leftmostMin nodes x xs with hm1def
  have hel : ((x :: xs).erase m1).length + 1 = (x :: xs).length := by
    rw [List.length_erase_of_mem hm1]
    omega
  have her : ((x :: xs).erase m1).Pairwise (· < ·) := h.rising.sublist List.erase_sublist
  obtain ⟨y, ys, hys⟩ : ∃ y ys, (x :: xs).erase m1 = y :: ys := by
    cases hc : (x :: xs).erase m1 with
    | nil => rw [hc, List.length_nil] at hel; omega
    | cons y ys => exact ⟨y, ys, rfl⟩
  rw [hys] at her hel
  have hr2 := List.pairwise_cons.1 her
  obtain ⟨hm2, hk2⟩ := leftmostMin_spec nodes y ys hr2.2 hr2.1
  have hnd : (x :: xs).Nodup := h.rising.imp fun hlt => ne_of_lt hlt
  have hnd2 : (y :: ys).Nodup := her.imp fun hlt => ne_of_lt hlt
  have hmem : ∀ j, j ∈ y :: ys ↔ j ∈ x :: xs ∧ j ≠ m1 := fun j => by
    rw [← hys, hnd.mem_erase_iff]
    exact and_comm
  set m2 := leftmostMin nodes y ys with hm2def
  have hm2' := (hmem m2).1 hm2
  have hmem2 : ∀ j, j ∈ (y :: ys).erase m2 ↔ j ∈ x :: xs ∧ j ≠ m1 ∧ j ≠ m2 := fun j => by
    rw [hnd2.mem_erase_iff, hmem]
    tauto
  have hel2 : ((y :: ys).erase m2).length + 1 = (y :: ys).length := by
    rw [List.length_erase_of_mem hm2]
    simp
  have hw1 : inWorkingSet nodes nodes.length m1 := (h.roots m1).1 hm1
  have hw2 : inWorkingSet nodes nodes.length m2 := (h.roots m2).1 hm2'.1
  have hnl : nodes.length < 512 := by
    omega
  have ht1 : (BitVec.ofNat 9 m1).toNat = m1 := by
    have := hw1.1
    rw [BitVec.toNat_ofNat]
    exact Nat.mod_eq_of_lt (by omega)
  have ht2 : (BitVec.ofNat 9 m2).toNat = m2 := by
    have := hw2.1
    rw [BitVec.toNat_ofNat]
    exact Nat.mod_eq_of_lt (by omega)
  have hs1 := sum_map_erase (fun j => (nodeWeight nodes j).toNat) (x :: xs) m1 hm1
  have hs2 := sum_map_erase (fun j => (nodeWeight nodes j).toNat) (y :: ys) m2 hm2
  rw [hys, h.sum] at hs1
  have htot := totalWeight_lt ft hn
  have hwsum : (nodeWeight nodes m1 + nodeWeight nodes m2).toNat
      = (nodeWeight nodes m1).toNat + (nodeWeight nodes m2).toNat := by
    rw [BitVec.toNat_add]
    exact Nat.mod_eq_of_lt (by omega)
  have hmo : mergeOnce nodes (x :: xs) =
      (nodes ++ [.internal (BitVec.ofNat 9 m1) (BitVec.ofNat 9 m2) (nodeWeight nodes m1 + nodeWeight nodes m2)],
        ((y :: ys).erase m2) ++ [nodes.length]) := by
    simp only [mergeOnce]
    rw [← hm1def, hys]
  rw [hmo]
  set nd : Node := .internal (BitVec.ofNat 9 m1) (BitVec.ofNat 9 m2) (nodeWeight nodes m1 + nodeWeight nodes m2)
    with hnd'
  have hlast : (nodes ++ [nd])[nodes.length]? = some nd := by simp
  have hltw : ∀ j ∈ x :: xs, j < nodes.length := fun j hj => ((h.roots j).1 hj).1
  refine ⟨⟨?_, ?_, ?_, ?_, ?_, ?_, ?_, ?_⟩, ?_⟩
  · simp only [List.length_append, List.length_cons, List.length_nil] at hlen hel hel2 ⊢
    omega
  · simp
  · intro i hi
    have hge := h.nodesGe
    rw [getElem?_append_lt _ _ _ (by omega)]
    exact h.leaves i hi
  · have hge := h.nodesGe
    simp only [List.length_append]
    omega
  · rw [List.pairwise_append]
    refine ⟨her.sublist List.erase_sublist, by simp, fun j hj b hb => ?_⟩
    rw [List.mem_singleton] at hb
    subst hb
    exact hltw j ((hmem2 j).1 hj).1
  · intro j
    rw [List.mem_append, List.mem_singleton, hmem2, h.roots j]
    have hl1 : (nodes ++ [nd]).length = nodes.length + 1 := by simp
    rw [hl1]
    constructor
    · rintro (⟨hj, h1, h2⟩ | rfl)
      · refine ⟨by have := hj.1; omega, fun i z o w hi hno => ?_⟩
        by_cases hil : i < nodes.length
        · rw [getElem?_append_lt _ _ _ hil] at hno
          exact hj.2 i z o w hil hno
        · have : i = nodes.length := by omega
          subst this
          rw [hlast, hnd', Option.some.injEq, Node.internal.injEq] at hno
          obtain ⟨rfl, rfl, -⟩ := hno
          rw [ht1, ht2]
          exact ⟨h1, h2⟩
      · refine ⟨by omega, fun i z o w hi hno => ?_⟩
        by_cases hil : i < nodes.length
        · rw [getElem?_append_lt _ _ _ hil] at hno
          have := h.child_lt hno
          omega
        · have : i = nodes.length := by omega
          subst this
          rw [hlast, hnd', Option.some.injEq, Node.internal.injEq] at hno
          obtain ⟨rfl, rfl, -⟩ := hno
          rw [ht1, ht2]
          have h1 := hw1.1
          have h2 := hw2.1
          omega
    · rintro ⟨hj, hc⟩
      by_cases hjl : j = nodes.length
      · exact .inr hjl
      · refine .inl ⟨⟨by omega, fun i z o w hi hno => ?_⟩, ?_⟩
        · exact hc i z o w (by omega) (by rw [getElem?_append_lt _ _ _ hi]; exact hno)
        · have := hc nodes.length _ _ _ (by omega) hlast
          rwa [ht1, ht2] at this
  · intro k h1 h2
    by_cases hkl : k < nodes.length
    · exact mergedAt_append _ _ _ hkl (h.merges k h1 hkl)
    · have hk : k = nodes.length := by
        simp only [List.length_append, List.length_cons, List.length_nil] at h2
        omega
      subst hk
      refine ⟨_, _, _, hlast, ?_, ?_, ?_, ?_, ?_, ?_⟩
      · intro heq
        have := congrArg BitVec.toNat heq
        rw [ht1, ht2] at this
        exact hm2'.2 this.symm
      · rw [ht1, inWorkingSet_append _ _ _ _ (le_refl _)]
        exact hw1
      · rw [ht2, inWorkingSet_append _ _ _ _ (le_refl _)]
        exact hw2
      · intro j hj
        rw [inWorkingSet_append _ _ _ _ (le_refl _)] at hj
        rw [ht1, keyLe_append _ _ _ _ hw1.1 hj.1]
        exact hk1 j ((h.roots j).2 hj)
      · intro j hj hne
        rw [inWorkingSet_append _ _ _ _ (le_refl _)] at hj
        rw [ht1] at hne
        rw [ht2, keyLe_append _ _ _ _ hw2.1 hj.1]
        exact hk2 j ((hmem j).2 ⟨(h.roots j).2 hj, hne⟩)
      · rw [ht1, ht2, nodeWeight_append _ _ _ hw1.1, nodeWeight_append _ _ _ hw2.1]
        exact hwsum
  · rw [List.map_append, List.sum_append]
    have hlw : nodeWeight (nodes ++ [nd]) nodes.length = nodeWeight nodes m1 + nodeWeight nodes m2 := by
      simp only [nodeWeight, hlast]
      rfl
    have hmap : ((y :: ys).erase m2).map (fun j => (nodeWeight (nodes ++ [nd]) j).toNat)
        = ((y :: ys).erase m2).map (fun j => (nodeWeight nodes j).toNat) := by
      refine List.map_congr_left fun j hj => ?_
      rw [nodeWeight_append _ _ _ (hltw j ((hmem2 j).1 hj).1)]
    rw [hmap]
    simp only [List.map_cons, List.map_nil, List.sum_cons, List.sum_nil, hlw, hwsum]
    omega
  · simp only [List.length_append, List.length_cons, List.length_nil] at hel hel2 ⊢
    omega

theorem MergeInv.loop {ft : List FtEntry} (hn : ft.length ≤ 256) (k : Nat) (nodes : List Node) (work : List Nat)
    (h : MergeInv ft nodes work) (hk : work.length ≤ k + 1) :
    MergeInv ft (mergeLoop k nodes work).1 (mergeLoop k nodes work).2 ∧ (mergeLoop k nodes work).2.length = 1 := by
  induction k generalizing nodes work with
  | zero => exact ⟨h, by have := h.pos; simp only [mergeLoop]; omega⟩
  | succ k ih =>
    simp only [mergeLoop]
    split_ifs with hw
    · obtain ⟨h', hl⟩ := h.step hn hw
      exact ih _ _ h' (by omega)
    · exact ⟨h, by have := h.pos; simp only; omega⟩

/-- The tree of a not empty table of at most 256 entries (40 R260 to R269): what the builder guarantees, said once. -/
structure TreeOf (ft : List FtEntry) (t : Tree) : Prop where
  valid : t.valid = true
  nn : t.nodes.length = 2 * ft.length - 1
  root : t.root = 2 * ft.length - 2
  leaves : ∀ i, i < ft.length → t.nodes[i]? = ft[i]?.map fun e => Node.leaf e.sym (e.w.setWidth 40)
  merges : ∀ k, ft.length ≤ k → k < t.nodes.length → mergedAt t.nodes k
  workDone : ∀ j, inWorkingSet t.nodes t.nodes.length j ↔ j = t.root

theorem buildTree_treeOf (ft : List FtEntry) (h : ft ≠ []) (hn : ft.length ≤ 256) : TreeOf ft (buildTree ft) := by
  have hp : 1 ≤ ft.length := List.length_pos_iff.2 h
  obtain ⟨hi, hl⟩ := MergeInv.loop hn ft.length _ _ (MergeInv.init ft h) (by simp)
  obtain ⟨r, hr⟩ := List.length_eq_one_iff.1 hl
  have hlen := hi.len
  rw [hl] at hlen
  have hnn : (buildTree ft).nodes.length = 2 * ft.length - 1 := by
    show (mergeLoop ft.length (leavesOf ft) (List.range ft.length)).1.length = _
    omega
  have hroot : (buildTree ft).root = r := by
    show (mergeLoop ft.length (leavesOf ft) (List.range ft.length)).2.headD 0 = _
    rw [hr]
    rfl
  have hroots : ∀ j, inWorkingSet (buildTree ft).nodes (buildTree ft).nodes.length j ↔ j = r := fun j => by
    have := hi.roots j
    rw [hr, List.mem_singleton] at this
    exact this.symm
  have hlastIn : inWorkingSet (buildTree ft).nodes (buildTree ft).nodes.length (2 * ft.length - 2) := by
    refine ⟨by rw [hnn]; omega, fun i z o w hil hno => ?_⟩
    have := hi.child_lt hno
    rw [hnn] at hil
    omega
  have hr2 := (hroots _).1 hlastIn
  refine ⟨rfl, hnn, hroot.trans hr2.symm, fun i hil => ?_, hi.merges, fun j => by rw [hroots, hroot]⟩
  rw [← leavesOf_getElem?]
  exact hi.leaves i hil

end Sys2Proof.Machine
end

