-- ==== Sys2Proof/Laws/Codes.lean ====
section
/-! SUPPORT. Paths in a built tree and the codes derived from it (spec/40_tree_builder.md R269, spec/41_code_table.md R301,
R302, R305). -/

namespace Sys2Proof.Machine

@[simp] theorem follow_nil (nodes : List Node) (i : Nat) : follow nodes i [] = some i := rfl

theorem follow_cons (nodes : List Node) (i : Nat) (b : Bool) (bs : Bits) (zero one : BitVec 9) (w : Weight)
    (h : nodes[i]? = some (.internal zero one w)) :
    follow nodes i (b :: bs) = follow nodes (if b then one.toNat else zero.toNat) bs := by
  simp [follow, h]

/-- A path with a first bit starts at an internal node. -/
theorem follow_cons_some {nodes : List Node} {i l : Nat} {b : Bool} {bs : Bits}
    (h : follow nodes i (b :: bs) = some l) :
    ∃ zero one w, nodes[i]? = some (.internal zero one w) ∧
      follow nodes (if b then one.toNat else zero.toNat) bs = some l := by
  simp only [follow] at h
  split at h
  · rename_i z o w hn
    exact ⟨z, o, w, hn, h⟩
  · cases h

/-- A path from a leaf is empty. -/
theorem follow_leaf {nodes : List Node} {i l : Nat} {sym : Byte} {w : Weight} {bs : Bits}
    (hn : nodes[i]? = some (.leaf sym w)) (h : follow nodes i bs = some l) : bs = [] ∧ l = i := by
  cases bs with
  | nil => exact ⟨rfl, by simpa using h.symm⟩
  | cons b bs =>
    obtain ⟨z, o, w', hn', -⟩ := follow_cons_some h
    rw [hn] at hn'
    cases hn'

theorem follow_append (nodes : List Node) (i : Nat) (p q : Bits) :
    follow nodes i (p ++ q) = (follow nodes i p).bind fun j => follow nodes j q := by
  induction p generalizing i with
  | nil => rfl
  | cons b p ih =>
    simp only [List.cons_append, follow]
    split
    · exact ih _
    · rfl

namespace TreeOf

variable {ft : List FtEntry} {t : Tree}

theorem ftPos (h : TreeOf ft t) : 1 ≤ ft.length := by
  have h1 := (h.workDone t.root).2 rfl
  have h2 := h1.1
  have h3 := h.nn
  omega

theorem nodesPos (h : TreeOf ft t) : t.root + 1 = t.nodes.length := by
  have := h.ftPos
  have := h.nn
  have := h.root
  omega

theorem lt_of_some (_ : TreeOf ft t) {i : Nat} {nd : Node} (hn : t.nodes[i]? = some nd) : i < t.nodes.length := by
  by_contra hge
  rw [List.getElem?_eq_none (by omega)] at hn
  cases hn

/-- An internal node stands past the leaves, and both its children below it (40 R269). -/
theorem internal_lt (h : TreeOf ft t) {i : Nat} {zero one : BitVec 9} {w : Weight}
    (hn : t.nodes[i]? = some (.internal zero one w)) : ft.length ≤ i ∧ zero.toNat < i ∧ one.toNat < i := by
  have hi := h.lt_of_some hn
  have hge : ft.length ≤ i := by
    by_contra hlt
    rw [h.leaves i (by omega)] at hn
    cases hf : ft[i]? <;> rw [hf] at hn <;> cases hn
  obtain ⟨z, o, w', hn', -, hz, ho, -⟩ := h.merges i hge hi
  rw [hn] at hn'
  cases hn'
  exact ⟨hge, hz.1, ho.1⟩

/-- A node below the number of leaves is the leaf of its table entry; the others are internal. -/
theorem leaf_iff (h : TreeOf ft t) {i : Nat} {sym : Byte} {w : Weight} :
    t.nodes[i]? = some (.leaf sym w) ↔ ∃ e, ft[i]? = some e ∧ sym = e.sym ∧ w = e.w.setWidth 40 := by
  constructor
  · intro hn
    by_cases hi : i < ft.length
    · rw [h.leaves i hi, Option.map_eq_some_iff] at hn
      obtain ⟨e, he, heq⟩ := hn
      cases heq
      exact ⟨e, he, rfl, rfl⟩
    · obtain ⟨z, o, w', hn', -⟩ := h.merges i (by omega) (h.lt_of_some hn)
      rw [hn] at hn'
      cases hn'
  · rintro ⟨e, he, rfl, rfl⟩
    have hi : i < ft.length := by
      by_contra hge
      rw [List.getElem?_eq_none (by omega)] at he
      cases he
    rw [h.leaves i hi, he]
    rfl

/-- Every node but the root is a child of some internal node (40 R269). -/
theorem exists_parent (h : TreeOf ft t) {j : Nat} (hj : j < t.nodes.length) (hr : j ≠ t.root) :
    ∃ (i : Nat) (zero one : BitVec 9) (w : Weight), t.nodes[i]? = some (Node.internal zero one w) ∧
        (j = zero.toNat ∨ j = one.toNat) := by
  by_contra hno
  refine hr ((h.workDone j).1 ⟨hj, fun i z o w _ hn => ?_⟩)
  by_contra hc
  exact hno ⟨i, z, o, w, hn, by tauto⟩

/-- No node is a child of two internal nodes (40 R269). -/
theorem parent_unique (h : TreeOf ft t) {i i' j : Nat} {z o z' o' : BitVec 9} {w w' : Weight}
    (hn : t.nodes[i]? = some (.internal z o w)) (hn' : t.nodes[i']? = some (.internal z' o' w'))
    (hj : j = z.toNat ∨ j = o.toNat) (hj' : j = z'.toNat ∨ j = o'.toNat) : i = i' := by
  have key : ∀ {a b : Nat} {z o z' o' : BitVec 9} {w w' : Weight},
      t.nodes[a]? = some (.internal z o w) → t.nodes[b]? = some (.internal z' o' w') →
      (j = z.toNat ∨ j = o.toNat) → (j = z'.toNat ∨ j = o'.toNat) → ¬a < b := by
    intro a b z o z' o' w w' ha hb hja hjb hlt
    obtain ⟨z2, o2, w2, hb2, -, hz, ho, -⟩ := h.merges b (h.internal_lt hb).1 (h.lt_of_some hb)
    rw [hb] at hb2
    cases hb2
    rcases hjb with rfl | rfl
    · have := hz.2 a _ _ _ hlt ha
      tauto
    · have := ho.2 a _ _ _ hlt ha
      tauto
  have h1 := key hn hn' hj hj'
  have h2 := key hn' hn hj' hj
  omega

/-- The two children of an internal node differ (40 R264). -/
theorem children_ne (h : TreeOf ft t) {i : Nat} {z o : BitVec 9} {w : Weight}
    (hn : t.nodes[i]? = some (.internal z o w)) : z.toNat ≠ o.toNat := by
  obtain ⟨z', o', w', hn', hne, -⟩ := h.merges i (h.internal_lt hn).1 (h.lt_of_some hn)
  rw [hn] at hn'
  cases hn'
  exact fun heq => hne (BitVec.eq_of_toNat_eq heq)

/-- A path goes down: it ends at or below its start, and strictly below where it has a bit. -/
theorem follow_le (h : TreeOf ft t) {i l : Nat} {p : Bits} (hp : follow t.nodes i p = some l) : l + p.length ≤ i := by
  induction p generalizing i with
  | nil => simp at hp; simp [hp]
  | cons b p ih =>
    obtain ⟨z, o, w, hn, hp'⟩ := follow_cons_some hp
    have := h.internal_lt hn
    have := ih hp'
    rw [List.length_cons]
    cases b <;> simp at this <;> omega

/-- Two paths from a node to one node are the same path: every node has one parent. -/
theorem follow_inj (h : TreeOf ft t) {i l : Nat} {p q : Bits} (hp : follow t.nodes i p = some l)
    (hq : follow t.nodes i q = some l) : p = q := by
  induction p using List.reverseRecOn generalizing l q with
  | nil =>
    simp at hp
    subst hp
    have := h.follow_le hq
    exact (List.length_eq_zero_iff.1 (by omega)).symm
  | append_singleton p b ih =>
    rcases List.eq_nil_or_concat q with rfl | ⟨q, c, rfl⟩
    · simp at hq
      subst hq
      have := h.follow_le hp
      simp at this
    · rw [List.concat_eq_append] at hq ⊢
      rw [follow_append, Option.bind_eq_some_iff] at hp hq
      obtain ⟨a, ha, hal⟩ := hp
      obtain ⟨a', ha', hal'⟩ := hq
      obtain ⟨z, o, w, hn, h1⟩ := follow_cons_some hal
      obtain ⟨z', o', w', hn', h2⟩ := follow_cons_some hal'
      simp only [follow_nil, Option.some.injEq] at h1 h2
      have haa : a = a' := h.parent_unique (j := l) hn hn'
        (by cases b <;> simp at h1 <;> simp [h1]) (by cases c <;> simp at h2 <;> simp [h2])
      subst haa
      rw [hn] at hn'
      cases hn'
      have hne := h.children_ne hn
      have hbc : b = c := by
        cases b <;> cases c <;> simp at h1 h2 ⊢
        · exact hne (h1.trans h2.symm)
        · exact hne (h2.trans h1.symm)
      rw [ih ha ha', hbc]

/-- Every node is reached from the root. -/
theorem reachable (h : TreeOf ft t) {j : Nat} (hj : j < t.nodes.length) :
    ∃ p, follow t.nodes t.root p = some j := by
  have key : ∀ d j, j < t.nodes.length → t.root - j ≤ d → ∃ p, follow t.nodes t.root p = some j := by
    intro d
    induction d with
    | zero =>
      intro j hj hd
      have := h.nodesPos
      have : j = t.root := by omega
      exact ⟨[], by simp [this]⟩
    | succ d ih =>
      intro j hj hd
      by_cases hr : j = t.root
      · exact ⟨[], by simp [hr]⟩
      · obtain ⟨i, z, o, w, hn, hc⟩ := h.exists_parent hj hr
        have hlt := h.internal_lt hn
        obtain ⟨p, hp⟩ := ih i (h.lt_of_some hn) (by omega)
        rcases hc with rfl | rfl
        · refine ⟨p ++ [false], ?_⟩
          rw [follow_append, hp, Option.bind_some, follow_cons _ _ _ _ _ _ _ hn]
          rfl
        · refine ⟨p ++ [true], ?_⟩
          rw [follow_append, hp, Option.bind_some, follow_cons _ _ _ _ _ _ _ hn]
          rfl
  exact key _ j hj (le_refl _)

/-- A path has at most as many bits as there are internal nodes, `n − 1` (40 R269, 41 R305). -/
theorem follow_length (h : TreeOf ft t) {l : Nat} {p : Bits} (hp : follow t.nodes t.root p = some l) :
    p.length ≤ ft.length - 1 := by
  have key : ∀ {p : Bits} {i l : Nat}, follow t.nodes i p = some l → p = [] ∨ p.length + ft.length ≤ i + 1 := by
    intro p
    induction p with
    | nil => exact fun _ => .inl rfl
    | cons b p ih =>
      intro i l hp
      obtain ⟨z, o, w, hn, hp'⟩ := follow_cons_some hp
      have := h.internal_lt hn
      rw [List.length_cons]
      rcases ih hp' with rfl | hl
      · right; simp; omega
      · right
        cases b <;> simp at hl <;> omega
  have h1 := h.root
  have h2 := h.ftPos
  rcases key hp with rfl | hl
  · simp
  · omega

end TreeOf

/-! ### The derived code table -/

theorem codeOf_setCode (codes : Codes) (sym sym' : Byte) (p : Bits) :
    codeOf (setCode codes sym p) sym' = if sym' = sym then some p else codeOf codes sym' := by
  simp only [codeOf, setCode]
  rw [Vector.getElem_set]
  by_cases h : sym' = sym
  · subst h; simp
  · rw [if_neg h, if_neg (fun heq => h (BitVec.eq_of_toNat_eq heq.symm))]

@[simp] theorem codeOf_noCodes (sym : Byte) : codeOf noCodes sym = none := by
  simp [codeOf, noCodes]

/-- The walk from a node whose children lie below it: it ends, and it records, for each symbol with a leaf below the node,
a path to such a leaf, and keeps the other symbols' codes (41 R300). -/
theorem walkCodes_spec (nodes : List Node)
    (hlt : ∀ (i : Nat) (zero one : BitVec 9) (w : Weight), nodes[i]? = some (.internal zero one w) →
      zero.toNat < i ∧ one.toNat < i)
    (depth i : Nat) (p : Bits) (acc : Codes) (hi : i < nodes.length) (hd : i < depth) :
    ∃ acc', walkCodes nodes depth i p acc = .ok acc' ∧
      (∀ s c, codeOf acc' s = some c →
        codeOf acc s = some c ∨ ∃ q l w, c = p ++ q ∧ follow nodes i q = some l ∧ nodes[l]? = some (.leaf s w)) ∧
      (∀ s q l w, follow nodes i q = some l → nodes[l]? = some (.leaf s w) →
        ∃ q' l' w', codeOf acc' s = some (p ++ q') ∧ follow nodes i q' = some l' ∧ nodes[l']? = some (.leaf s w')) ∧
      (∀ s, (∀ q l w, follow nodes i q = some l → nodes[l]? ≠ some (.leaf s w)) → codeOf acc' s = codeOf acc s) := by
  induction depth generalizing i p acc with
  | zero => omega
  | succ depth ih =>
    simp only [walkCodes]
    split
    · rename_i hn
      rw [List.getElem?_eq_none_iff] at hn
      omega
    · rename_i sym w hn
      refine ⟨_, rfl, ?_, ?_, ?_⟩
      · intro s c hc
        rw [codeOf_setCode] at hc
        split_ifs at hc with hs
        · subst hs
          cases hc
          exact .inr ⟨[], i, w, by simp, rfl, hn⟩
        · exact .inl hc
      · intro s q l w' hq hl
        obtain ⟨rfl, rfl⟩ := follow_leaf hn hq
        rw [hn] at hl
        cases hl
        exact ⟨[], l, w, by rw [codeOf_setCode, if_pos rfl]; simp, rfl, hn⟩
      · intro s hs
        rw [codeOf_setCode, if_neg]
        rintro rfl
        exact hs [] i w rfl hn
    · rename_i z o w hn
      obtain ⟨hz, ho⟩ := hlt i z o w hn
      obtain ⟨a1, e1, x1, y1, z1⟩ := ih z.toNat (p ++ [false]) acc (by omega) (by omega)
      obtain ⟨a2, e2, x2, y2, z2⟩ := ih o.toNat (p ++ [true]) a1 (by omega) (by omega)
      have f0 : ∀ q, follow nodes i (false :: q) = follow nodes z.toNat q := fun q => by
        rw [follow_cons _ _ _ _ _ _ _ hn]; rfl
      have f1 : ∀ q, follow nodes i (true :: q) = follow nodes o.toNat q := fun q => by
        rw [follow_cons _ _ _ _ _ _ _ hn]; rfl
      refine ⟨a2, by rw [e1]; exact e2, ?_, ?_, ?_⟩
      · intro s c hc
        rcases x2 s c hc with hc | ⟨q, l, w', rfl, hq, hl⟩
        · rcases x1 s c hc with hc | ⟨q, l, w', rfl, hq, hl⟩
          · exact .inl hc
          · exact .inr ⟨false :: q, l, w', by simp, by rw [f0]; exact hq, hl⟩
        · exact .inr ⟨true :: q, l, w', by simp, by rw [f1]; exact hq, hl⟩
      · have two : ∀ s q l w, follow nodes o.toNat q = some l → nodes[l]? = some (.leaf s w) →
            ∃ q' l' w', codeOf a2 s = some (p ++ q') ∧ follow nodes i q' = some l' ∧
              nodes[l']? = some (.leaf s w') := by
          intro s q l w' hq hl
          obtain ⟨q', l', w'', h1, h2, h3⟩ := y2 s q l w' hq hl
          exact ⟨true :: q', l', w'', by simpa using h1, by rw [f1]; exact h2, h3⟩
        intro s q l w' hq hl
        cases q with
        | nil =>
          simp at hq
          subst hq
          rw [hn] at hl
          cases hl
        | cons b q =>
          cases b
          · rw [f0] at hq
            by_cases hex : ∃ q l w, follow nodes o.toNat q = some l ∧ nodes[l]? = some (.leaf s w)
            · obtain ⟨q2, l2, w2, h1, h2⟩ := hex
              exact two s q2 l2 w2 h1 h2
            · push Not at hex
              obtain ⟨q', l', w'', h1, h2, h3⟩ := y1 s q l w' hq hl
              refine ⟨false :: q', l', w'', ?_, by rw [f0]; exact h2, h3⟩
              rw [z2 s hex, h1]
              simp
          · rw [f1] at hq
            exact two s q l w' hq hl
      · intro s hs
        rw [z2 s fun q l w' hq => hs (true :: q) l w' (by rw [f1]; exact hq),
          z1 s fun q l w' hq => hs (false :: q) l w' (by rw [f0]; exact hq)]

/-- The codes of a built tree over distinct symbols: derivation succeeds, and a symbol's code is exactly the path from the
root to its leaf (41 R300, R301). -/
theorem deriveCodes_spec {ft : List FtEntry} {t : Tree} (h : TreeOf ft t) (hd : (ft.map FtEntry.sym).Nodup) :
    ∃ codes, deriveCodes t = .ok codes ∧ ∀ s c, codeOf codes s = some c ↔ leadsTo t c s := by
  have hnp := h.nodesPos
  obtain ⟨codes, he, h1, h2, -⟩ := walkCodes_spec t.nodes (fun i z o w hn => (h.internal_lt hn).2) t.nodes.length
    t.root [] noCodes (by omega) (by omega)
  refine ⟨codes, he, fun s c => ?_⟩
  constructor
  · intro hc
    rcases h1 s c hc with hc | ⟨q, l, w, rfl, hq, hl⟩
    · simp at hc
    · exact ⟨l, w, by simpa using hq, hl⟩
  · rintro ⟨l, w, hq, hl⟩
    obtain ⟨q', l', w', hc, hq', hl'⟩ := h2 s c l w hq hl
    obtain ⟨e, he1, hs1, -⟩ := h.leaf_iff.1 hl
    obtain ⟨e', he2, hs2, -⟩ := h.leaf_iff.1 hl'
    have hll : l = l' := by
      have hlt : l < (ft.map FtEntry.sym).length := by
        rw [List.length_map]
        exact (List.getElem?_eq_some_iff.1 he1).1
      refine (List.getElem?_inj hlt hd).1 ?_
      rw [List.getElem?_map, List.getElem?_map, he1, he2, Option.map_some, Option.map_some, ← hs1, ← hs2]
    subst hll
    rw [hc, List.nil_append, h.follow_inj hq' hq]

/-- Exactly the symbols of the table have a code (41 R302). -/
theorem leadsTo_iff_mem {ft : List FtEntry} {t : Tree} (h : TreeOf ft t) (s : Byte) :
    (∃ c, leadsTo t c s) ↔ s ∈ ft.map FtEntry.sym := by
  constructor
  · rintro ⟨c, l, w, -, hl⟩
    obtain ⟨e, he, rfl, -⟩ := h.leaf_iff.1 hl
    exact List.mem_map_of_mem (List.mem_of_getElem? he)
  · intro hs
    obtain ⟨e, he, rfl⟩ := List.mem_map.1 hs
    obtain ⟨i, hi, rfl⟩ := List.getElem_of_mem he
    have hn : t.nodes[i]? = some (.leaf ft[i].sym (ft[i].w.setWidth 40)) :=
      h.leaf_iff.2 ⟨ft[i], List.getElem?_eq_getElem hi, rfl, rfl⟩
    obtain ⟨p, hp⟩ := h.reachable (h.lt_of_some hn)
    exact ⟨p, i, _, hp, hn⟩

/-- No code leads further than another: a code that starts with another symbol's code is that code (41 R302). -/
theorem leadsTo_prefixFree {t : Tree} {c c' : Bits} {s s' : Byte} (h : leadsTo t c s) (h' : leadsTo t c' s')
    (hp : c <+: c') : s = s' := by
  obtain ⟨l, w, hl, hn⟩ := h
  obtain ⟨l', w', hl', hn'⟩ := h'
  obtain ⟨r, rfl⟩ := hp
  rw [follow_append, hl, Option.bind_some] at hl'
  obtain ⟨-, rfl⟩ := follow_leaf hn hl'
  rw [hn] at hn'
  cases hn'
  rfl

end Sys2Proof.Machine
end

