-- ==== Sys2Proof/Laws/Reader.lean ====
section
/-! SUPPORT. What the reader's primitives do: one law per operation, which later proofs cite. -/

namespace Sys2Proof.Machine

@[simp] theorem bufferSeq_length (s : State) (p n : Nat) : (bufferSeq s p n).length = n := by simp [bufferSeq]

theorem bufferSeq_getD (s : State) (p n i : Nat) (h : i < n) : (bufferSeq s p n).getD i false = bufferBit s (p + i) := by
  simp [bufferSeq, List.getD_eq_getElem?_getD, h]

theorem bufferSeq_succ (s : State) (p n : Nat) : bufferSeq s p (n + 1) = bufferBit s p :: bufferSeq s (p + 1) n := by
  simp [bufferSeq, List.range_succ_eq_map, Nat.add_assoc, Nat.add_comm 1]

theorem bufferSeq_add (s : State) (p m n : Nat) : bufferSeq s p (m + n) = bufferSeq s p m ++ bufferSeq s (p + m) n := by
  induction m generalizing p with
  | zero => simp [bufferSeq]
  | succ m ih =>
    rw [Nat.add_right_comm, bufferSeq_succ, ih, bufferSeq_succ, List.cons_append, Nat.add_assoc p 1 m, Nat.add_comm 1 m]

@[simp] theorem bufferBit_consumed (n : Nat) (s : State) (p : Nat) : bufferBit (consumed n s) p = bufferBit s p := rfl

@[simp] theorem bufferSeq_consumed (k : Nat) (s : State) (p n : Nat) :
    bufferSeq (consumed k s) p n = bufferSeq s p n := rfl

theorem consumed_consumed (m n : Nat) (s : State) : consumed n (consumed m s) = consumed (m + n) s := by
  simp [consumed, Nat.add_assoc]

theorem consumed_zero (s : State) : consumed 0 s = s := rfl

/-- `get()` where a bit remains: one bit consumed, and one draw where its byte is a changed one (43 R401, 70 R574). -/
theorem getBit_remaining (s : State) (hro : ReaderOk s) (hr : s.br.pos < 8 * s.br.len.toNat) :
    getBit s =
      if readerAddr s ∈ s.br.changed then
        .ok (streamBit (Config.freeByte s.draws) s.br.pos) { consumed 1 s with draws := s.draws + 1 }
      else .ok (bufferBit s s.br.pos) (consumed 1 s) := by
  have ha : readerAddr s < s.dmemSize := by
    have := hro.inDmem
    simp only [readerAddr]
    omega
  simp only [getBit, readerByte]
  rw [memRead_inDmem _ _ ha]
  split_ifs with hc
  · rw [Res.bind_ok, if_pos hc]
    rfl
  · rw [Res.bind_ok, if_neg hc]
    rfl

theorem consumed_readerOk (n d : Nat) (s : State) (hro : ReaderOk s) (h : s.br.pos + n ≤ 8 * s.br.len.toNat) :
    ReaderOk { consumed n s with draws := d } :=
  ⟨hro.inDmem, h, hro.rising, hro.inBuffer⟩

/-- `readfixed(w)` where enough bits remain: `w` bits consumed, each the buffer's where its byte has not changed; where none
has, nothing is drawn (43 R412, 70 R574). -/
theorem readFixedFrom_remaining (w v : Nat) (s : State) (hro : ReaderOk s) (hr : s.br.pos + w ≤ 8 * s.br.len.toNat) :
    ∃ bits d, bits.length = w ∧
      readFixedFrom w v s = .ok (bitsToNatFrom v bits) { consumed w s with draws := d } ∧ s.draws ≤ d ∧
      (∀ i, i < w → s.br.base.toNat + (s.br.pos + i) / 8 ∉ s.br.changed →
        bits.getD i false = bufferBit s (s.br.pos + i)) ∧
      (unchangedBits s s.br.pos w → d = s.draws) := by
  induction w generalizing v s with
  | zero => exact ⟨[], s.draws, rfl, rfl, le_refl _, fun i hi => by omega, fun _ => rfl⟩
  | succ w ih =>
    have hg := getBit_remaining s hro (by omega)
    by_cases hc : readerAddr s ∈ s.br.changed
    · rw [if_pos hc] at hg
      have hro' := consumed_readerOk 1 (s.draws + 1) s hro (by omega)
      obtain ⟨bits, d, hl, hrd, hd, hb, -⟩ := ih (2 * v + (streamBit (Config.freeByte s.draws) s.br.pos).toNat)
        { consumed 1 s with draws := s.draws + 1 } hro' (by simp only [consumed]; omega)
      refine ⟨streamBit (Config.freeByte s.draws) s.br.pos :: bits, d, by simp [hl], ?_, ?_, ?_, ?_⟩
      · simp only [readFixedFrom]
        rw [hg, Res.bind_ok, hrd]
        simp [bitsToNatFrom, consumed, Nat.add_assoc, Nat.add_comm 1]
      · simp only at hd
        omega
      · intro i hi hn
        cases i with
        | zero => exact absurd hc (by simpa [readerAddr] using hn)
        | succ i =>
          rw [List.getD_cons_succ]
          have := hb i (by omega) (by simpa [consumed, Nat.add_assoc, Nat.add_comm 1] using hn)
          simpa [consumed, bufferBit, Nat.add_assoc, Nat.add_comm 1] using this
      · intro hu
        exact absurd hc (by simpa [readerAddr] using hu 0 (by omega))
    · rw [if_neg hc] at hg
      have hro' := consumed_readerOk 1 s.draws s hro (by omega)
      obtain ⟨bits, d, hl, hrd, hd, hb, hu⟩ := ih (2 * v + (bufferBit s s.br.pos).toNat) (consumed 1 s) hro'
        (by simp only [consumed]; omega)
      refine ⟨bufferBit s s.br.pos :: bits, d, by simp [hl], ?_, hd, ?_, ?_⟩
      · simp only [readFixedFrom]
        rw [hg, Res.bind_ok, hrd]
        simp [bitsToNatFrom, consumed, Nat.add_assoc, Nat.add_comm 1]
      · intro i hi hn
        cases i with
        | zero => rfl
        | succ i =>
          rw [List.getD_cons_succ]
          have := hb i (by omega) (by simpa [consumed, Nat.add_assoc, Nat.add_comm 1] using hn)
          simpa [consumed, bufferBit, Nat.add_assoc, Nat.add_comm 1] using this
      · intro hun
        refine hu fun i hi => ?_
        have := hun (i + 1) (by omega)
        simpa [consumed, Nat.add_assoc, Nat.add_comm 1] using this

/-- `readfixed(w)` where enough bits remain, whatever the bytes hold. -/
theorem readFixed_remaining (w : Nat) (s : State) (hro : ReaderOk s) (hr : s.br.pos + w ≤ 8 * s.br.len.toNat) :
    ∃ v d, v < 2 ^ w ∧ readFixed w s = .ok v { consumed w s with draws := d } ∧ s.draws ≤ d ∧
      (∀ i, i < w → s.br.base.toNat + (s.br.pos + i) / 8 ∉ s.br.changed →
        v.testBit (w - 1 - i) = bufferBit s (s.br.pos + i)) ∧
      (unchangedBits s s.br.pos w → v = bitsToNat (bufferSeq s s.br.pos w) ∧ d = s.draws) := by
  obtain ⟨bits, d, rfl, hrd, hd, hb, hu⟩ := readFixedFrom_remaining w 0 s hro hr
  refine ⟨bitsToNat bits, d, bitsToNat_lt bits, hrd, hd, fun i hi hn => ?_, fun hun => ⟨?_, hu hun⟩⟩
  · rw [bitsToNat_testBit _ _ (by omega), show bits.length - 1 - (bits.length - 1 - i) = i by omega]
    exact hb i hi hn
  · congr 1
    refine List.ext_getElem (by simp) fun i h1 h2 => ?_
    have := hb i h1 (hun i h1)
    rw [List.getD_eq_getElem _ _ h1] at this
    rw [this]
    simp [bufferSeq]

/-- `readfixed(w)` where enough bits remain and none of their bytes changed (43 R412). -/
theorem readFixed_unchanged (w : Nat) (s : State) (hro : ReaderOk s) (hr : s.br.pos + w ≤ 8 * s.br.len.toNat)
    (hu : unchangedBits s s.br.pos w) :
    readFixed w s = .ok (bitsToNat (bufferSeq s s.br.pos w)) (consumed w s) := by
  obtain ⟨v, d, -, hrd, -, -, hb⟩ := readFixed_remaining w s hro hr
  obtain ⟨rfl, rfl⟩ := hb hu
  exact hrd

end Sys2Proof.Machine
end

