-- ==== Sys2Proof/Laws/Table.lean ====
section
/-! SUPPORT. The frequency table: distinct symbols, the table ENC counts, and the lengths of header and payload
(spec/40_tree_builder.md R250 to R253, spec/44_codec.md R451, R461, R462, R467). -/

namespace Sys2Proof.Machine

theorem ftHas_iff (ft : List FtEntry) (sym : Byte) : ftHas ft sym = true ↔ sym ∈ ft.map FtEntry.sym := by
  simp [ftHas, List.any_eq_true]

theorem ftHas_eq_false_iff (ft : List FtEntry) (sym : Byte) : ftHas ft sym = false ↔ sym ∉ ft.map FtEntry.sym := by
  rw [← ftHas_iff, Bool.not_eq_true]

/-- A table of distinct byte symbols has at most 256 entries (10 R70). -/
theorem ft_length_le (ft : List FtEntry) (h : (ft.map FtEntry.sym).Nodup) : ft.length ≤ 256 := by
  have h1 : ((ft.map FtEntry.sym).map BitVec.toFin).Nodup :=
    h.map fun a b hab => BitVec.eq_of_toFin_eq hab
  have h2 := h1.length_le_card
  simpa using h2

/-- A valid tree of a good table has the builder's shape. -/
theorem treeOf_buildTree (ft : List FtEntry) (h : ft ≠ []) (hd : (ft.map FtEntry.sym).Nodup) :
    TreeOf ft (buildTree ft) :=
  buildTree_treeOf ft h (ft_length_le ft hd)

theorem nodup_append_singleton (l : List Byte) (a : Byte) (h : l.Nodup) (ha : a ∉ l) : (l ++ [a]).Nodup := by
  rw [List.nodup_append]
  refine ⟨h, by simp, fun x hx y hy => ?_⟩
  rw [List.mem_singleton] at hy
  subst hy
  exact fun heq => ha (heq ▸ hx)

theorem countByte_syms (ft : List FtEntry) (c : Byte) :
    (countByte ft c).map FtEntry.sym =
      if c ∈ ft.map FtEntry.sym then ft.map FtEntry.sym else ft.map FtEntry.sym ++ [c] := by
  induction ft with
  | nil => rfl
  | cons e ft ih =>
    simp only [countByte]
    by_cases h : e.sym = c
    · subst h; simp
    · rw [if_neg h, List.map_cons, ih]
      have : c ≠ e.sym := fun heq => h heq.symm
      by_cases hm : c ∈ ft.map FtEntry.sym
      · rw [if_pos hm, if_pos (by simp [List.mem_map.1 hm])]
        rfl
      · rw [if_neg hm, if_neg (by simpa [this] using hm)]
        rfl

theorem countByte_nodup (ft : List FtEntry) (c : Byte) (h : (ft.map FtEntry.sym).Nodup) :
    ((countByte ft c).map FtEntry.sym).Nodup := by
  rw [countByte_syms]
  split_ifs with hc
  · exact h
  · exact nodup_append_singleton _ _ h hc

theorem mem_countByte_syms (ft : List FtEntry) (c d : Byte) :
    d ∈ (countByte ft c).map FtEntry.sym ↔ d ∈ ft.map FtEntry.sym ∨ d = c := by
  rw [countByte_syms]
  split_ifs with h
  · exact ⟨.inl, fun hd => hd.elim id fun heq => heq ▸ h⟩
  · simp

theorem foldl_countByte_nodup (input : List Byte) (ft : List FtEntry) (h : (ft.map FtEntry.sym).Nodup) :
    ((input.foldl countByte ft).map FtEntry.sym).Nodup := by
  induction input generalizing ft with
  | nil => exact h
  | cons c input ih => exact ih _ (countByte_nodup ft c h)

/-- The counted table has each symbol once (10 R70, 44 R461). -/
theorem countBytes_nodup (input : List Byte) : ((countBytes input).map FtEntry.sym).Nodup :=
  foldl_countByte_nodup input [] List.nodup_nil

theorem mem_foldl_countByte_syms (input : List Byte) (ft : List FtEntry) (d : Byte) :
    d ∈ (input.foldl countByte ft).map FtEntry.sym ↔ d ∈ ft.map FtEntry.sym ∨ d ∈ input := by
  induction input generalizing ft with
  | nil => simp
  | cons c input ih =>
    rw [List.foldl_cons, ih, mem_countByte_syms, List.mem_cons, or_assoc]

/-- The counted table holds exactly the byte values of the input (44 R461, R467). -/
theorem mem_countBytes_syms (input : List Byte) (d : Byte) :
    d ∈ (countBytes input).map FtEntry.sym ↔ d ∈ input := by
  rw [countBytes, mem_foldl_countByte_syms]
  simp

theorem countBytes_eq_nil_iff (input : List Byte) : countBytes input = [] ↔ input = [] := by
  constructor
  · intro h
    by_contra hne
    obtain ⟨c, cs, rfl⟩ := List.exists_cons_of_ne_nil hne
    have := (mem_countBytes_syms (c :: cs) c).2 (by simp)
    rw [h] at this
    cases this
  · rintro rfl
    rfl

/-- A sum over a table of each weight times a number of its symbol. -/
def weighted (f : Byte → Nat) (ft : List FtEntry) : Nat := (ft.map fun e => e.w.toNat * f e.sym).sum

theorem weighted_cons (f : Byte → Nat) (e : FtEntry) (ft : List FtEntry) :
    weighted f (e :: ft) = e.w.toNat * f e.sym + weighted f ft := by
  simp [weighted]

theorem totalWeight_eq_weighted (ft : List FtEntry) : totalWeight ft = weighted (fun _ => 1) ft := by
  simp [totalWeight, weighted]

theorem totalWeight_cons (e : FtEntry) (ft : List FtEntry) : totalWeight (e :: ft) = e.w.toNat + totalWeight ft := by
  simp [totalWeight]

/-- Counting a byte adds its number to a weighted sum, as long as no weight can overflow (44 R461). -/
theorem weighted_countByte (f : Byte → Nat) (ft : List FtEntry) (c : Byte) (h : totalWeight ft + 1 < 2 ^ 32) :
    weighted f (countByte ft c) = weighted f ft + f c := by
  induction ft with
  | nil => simp [countByte, weighted]
  | cons e ft ih =>
    rw [totalWeight_cons] at h
    simp only [countByte]
    split_ifs with hc
    · subst hc
      have hw : (e.w + 1).toNat = e.w.toNat + 1 := by
        rw [BitVec.toNat_add]
        exact Nat.mod_eq_of_lt (by simp; omega)
      rw [weighted_cons, weighted_cons]
      simp only [hw]
      ring
    · rw [weighted_cons, weighted_cons, ih (by omega)]
      ring

theorem weighted_foldl_countByte (f : Byte → Nat) (input : List Byte) (ft : List FtEntry)
    (h : totalWeight ft + input.length < 2 ^ 32) :
    weighted f (input.foldl countByte ft) = weighted f ft + (input.map f).sum := by
  induction input generalizing ft with
  | nil => simp
  | cons c input ih =>
    rw [List.length_cons] at h
    have h1 : totalWeight (countByte ft c) = totalWeight ft + 1 := by
      rw [totalWeight_eq_weighted, weighted_countByte _ _ _ (by omega), ← totalWeight_eq_weighted]
    rw [List.foldl_cons, ih _ (by omega), weighted_countByte _ _ _ (by omega), List.map_cons, List.sum_cons]
    ring

theorem weighted_countBytes (f : Byte → Nat) (input : List Byte) (h : input.length < 2 ^ 32) :
    weighted f (countBytes input) = (input.map f).sum := by
  rw [countBytes, weighted_foldl_countByte _ _ _ (by simpa [totalWeight] using h)]
  simp [weighted]

/-- The total weight of a counted table is the input's length (44 R462). -/
theorem totalWeight_countBytes (input : List Byte) (h : input.length < 2 ^ 32) :
    totalWeight (countBytes input) = input.length := by
  rw [totalWeight_eq_weighted, weighted_countBytes _ _ h]
  simp

/-- `P` is the length of the payload (44 R467). -/
theorem payloadBits_countBytes (codes : Codes) (input : List Byte) (h : input.length < 2 ^ 32) :
    payloadBits (countBytes input) codes = (payloadSeq codes input).length := by
  have : payloadBits (countBytes input) codes = weighted (fun c => (codeBits codes c).length) (countBytes input) := rfl
  rw [this, weighted_countBytes _ _ h, payloadSeq, List.length_flatMap]

/-- A pair of a header is 64 bits (44 R450). -/
@[simp] theorem entryBits_length (e : FtEntry) : (entryBits e).length = 64 := by simp [entryBits]

/-- The header is `8 + 64·n` bits (44 R451). -/
theorem headerBits_length (ft : List FtEntry) : (headerBits ft).length = 8 + 64 * ft.length := by
  rw [headerBits, List.length_append, msbBits_length]
  congr 1
  induction ft with
  | nil => rfl
  | cons e ft ih =>
    rw [List.flatMap_cons, List.length_append, ih, entryBits_length, List.length_cons]
    omega

end Sys2Proof.Machine
end

