-- ==== Sys2Proof/Laws/Decoder.lean ====
section
/-! SUPPORT. What the parts of DEC do: reading a header, walking the tree, decoding a payload (spec/44_codec.md R480 to
R487). -/

namespace Sys2Proof.Machine

/-- The bits of the reader's buffer that are still to be read (43 R402). -/
def restBits (s : State) : Bits := bufferSeq s s.br.pos (remaining s)

/-- A reader none of whose bytes has changed since it was latched (70 R574). -/
structure Fresh (s : State) : Prop where
  reader : ReaderOk s
  unchanged : s.br.changed = []

@[simp] theorem restBits_length (s : State) : (restBits s).length = remaining s := by simp [restBits]

@[simp] theorem remaining_consumed (n : Nat) (s : State) : remaining (consumed n s) = remaining s - n := by
  simp only [remaining, consumed]
  omega

theorem Fresh.unchangedBits {s : State} (h : Fresh s) (p n : Nat) : unchangedBits s p n := by
  intro i _
  rw [h.unchanged]
  exact List.not_mem_nil

theorem Fresh.congr {s t : State} (h : Fresh s) (h1 : t.br = s.br) (h2 : t.dmemSize = s.dmemSize) : Fresh t :=
  ⟨h.reader.congr h1 h2, by rw [h1]; exact h.unchanged⟩

theorem Fresh.consumed {s : State} (h : Fresh s) (n : Nat) (hn : n ≤ remaining s) : Fresh (consumed n s) := by
  have := h.reader.posLe
  simp only [remaining] at hn
  exact ⟨consumed_readerOk n s.draws s h.reader (by omega), h.unchanged⟩

theorem restBits_congr {s t : State} (h1 : t.br = s.br) (h2 : t.dmem = s.dmem) : restBits t = restBits s := by
  simp only [restBits, remaining, bufferSeq, bufferBit, h1, h2]

/-- Reading a prefix of the unread bits: what is left is the rest. -/
theorem restBits_consumed (s : State) (q r : Bits) (h : restBits s = q ++ r) : restBits (consumed q.length s) = r := by
  have hl : q.length + r.length = remaining s := by
    rw [← List.length_append, ← h, restBits_length]
  have h2 : restBits s = bufferSeq s s.br.pos q.length ++ bufferSeq s (s.br.pos + q.length) r.length := by
    rw [restBits, ← hl, bufferSeq_add]
  rw [h2] at h
  have h3 := (List.append_inj h (by simp)).2
  rw [← h3, restBits, remaining_consumed, ← hl, Nat.add_sub_cancel_left, bufferSeq_consumed]
  rfl

theorem bufferSeq_of_restBits (s : State) (q r : Bits) (h : restBits s = q ++ r) :
    bufferSeq s s.br.pos q.length = q := by
  have hl : q.length + r.length = remaining s := by
    rw [← List.length_append, ← h, restBits_length]
  rw [restBits, ← hl, bufferSeq_add] at h
  exact (List.append_inj h (by simp)).1

/-- `readfixed` of a prefix of the unread bits gives the number the prefix spells (44 R480). -/
theorem readFixed_restBits (s : State) (hf : Fresh s) (q r : Bits) (h : restBits s = q ++ r) :
    readFixed q.length s = .ok (bitsToNat q) (consumed q.length s) := by
  have hl : q.length + r.length = remaining s := by
    rw [← List.length_append, ← h, restBits_length]
  have := hf.reader.posLe
  simp only [remaining] at hl
  rw [readFixed_unchanged q.length s hf.reader (by omega) (hf.unchangedBits _ _), bufferSeq_of_restBits s q r h]

theorem readFixed_field (w v : Nat) (hv : v < 2 ^ w) (s : State) (hf : Fresh s) (r : Bits)
    (h : restBits s = msbBits v w ++ r) : readFixed w s = .ok v (consumed w s) := by
  have := readFixed_restBits s hf _ r h
  rwa [msbBits_length, bitsToNat_msbBits, Nat.mod_eq_of_lt hv] at this

/-- One unread bit. -/
theorem getBit_restBits (s : State) (hf : Fresh s) (b : Bool) (r : Bits) (h : restBits s = b :: r) :
    getBit s = .ok b (consumed 1 s) := by
  have hl : r.length + 1 = remaining s := by
    have := congrArg List.length h
    simpa using this.symm
  have := hf.reader.posLe
  simp only [remaining] at hl
  rw [getBit_remaining s hf.reader (by omega), hf.unchanged, if_neg List.not_mem_nil]
  have hb := bufferSeq_of_restBits s [b] r h
  simp [bufferSeq] at hb
  rw [hb]

/-! ### The header -/

/-- The state after some pairs of a header have been read (44 R481). -/
def pairsRead (ft : List FtEntry) (s : State) : State := { consumed (64 * ft.length) s with ft := s.ft ++ ft }

theorem pairsRead_fresh (ft : List FtEntry) (s : State) (hf : Fresh s) (h : 64 * ft.length ≤ remaining s) :
    Fresh (pairsRead ft s) := (hf.consumed _ h).congr rfl rfl

theorem flatMap_entryBits_length (ft : List FtEntry) : (ft.flatMap entryBits).length = 64 * ft.length := by
  induction ft with
  | nil => rfl
  | cons e ft ih =>
    rw [List.flatMap_cons, List.length_append, ih, entryBits_length, List.length_cons]
    omega

theorem restBits_pairsRead (ft : List FtEntry) (s : State) (r : Bits)
    (h : restBits s = ft.flatMap entryBits ++ r) : restBits (pairsRead ft s) = r := by
  have := restBits_consumed s _ r h
  rw [flatMap_entryBits_length] at this
  exact this

theorem ofNat_toNat_byte (c : Byte) : BitVec.ofNat 8 c.toNat = c := by simp

/-- A pair whose symbol is a new byte: the entry is added (44 R481). -/
theorem decPairs_entry (n : Nat) (e : FtEntry) (s : State) (hf : Fresh s) (r : Bits)
    (h : restBits s = entryBits e ++ r) (hn : e.sym ∉ s.ft.map FtEntry.sym) :
    decPairs (n + 1) s = decPairs n (pairsRead [e] s) := by
  have hl := congrArg List.length h
  rw [restBits_length, List.length_append, entryBits_length] at hl
  have h' : restBits s = msbBits e.sym.toNat 32 ++ (msbBits e.w.toNat 32 ++ r) := by
    rw [h, entryBits, List.append_assoc]
  have hs := e.sym.isLt
  have hw := e.w.isLt
  have h1 := readFixed_field 32 e.sym.toNat (by omega) s hf _ h'
  have h2 := restBits_consumed s _ _ h'
  rw [msbBits_length] at h2
  have h3 := readFixed_field 32 e.w.toNat hw (consumed 32 s) (hf.consumed 32 (by omega)) r h2
  have hdup : ftHas (consumed 32 s).ft (BitVec.ofNat 8 e.sym.toNat) = false := by
    rw [ofNat_toNat_byte, ftHas_eq_false_iff]
    exact hn
  have hmax : ¬maxSymbol < e.sym.toNat := by simp only [maxSymbol]; omega
  simp only [decPairs]
  rw [if_neg (by omega), h1, Res.bind_ok, if_neg hmax, hdup]
  simp only [Bool.false_eq_true, if_false]
  rw [remaining_consumed, if_neg (by omega), h3, Res.bind_ok]
  congr 1
  simp [pairsRead, consumed]

/-- Pairs whose symbols are pairwise distinct, and new: all are added (44 R481). -/
theorem decPairs_entries (m : Nat) (ft : List FtEntry) (s : State) (hf : Fresh s) (r : Bits)
    (h : restBits s = ft.flatMap entryBits ++ r) (hn : ((s.ft ++ ft).map FtEntry.sym).Nodup) :
    decPairs (ft.length + m) s = decPairs m (pairsRead ft s) := by
  induction ft generalizing s with
  | nil => simp [pairsRead, consumed_zero]
  | cons e ft ih =>
    rw [List.flatMap_cons, List.append_assoc] at h
    have hl := congrArg List.length h
    rw [restBits_length, List.length_append, entryBits_length] at hl
    have hnew : e.sym ∉ s.ft.map FtEntry.sym := by
      rw [List.map_append, List.nodup_append] at hn
      exact fun hc => hn.2.2 _ hc e.sym (by simp) rfl
    have h1 : restBits (pairsRead [e] s) = ft.flatMap entryBits ++ r :=
      restBits_pairsRead [e] s _ (by simpa using h)
    rw [List.length_cons, Nat.add_right_comm, decPairs_entry _ e s hf _ h hnew,
      ih (pairsRead [e] s) (pairsRead_fresh _ _ hf (by simp; omega)) h1 (by simpa [pairsRead] using hn)]
    congr 1
    simp only [pairsRead, consumed, List.length_cons, List.length_nil, List.append_assoc, List.singleton_append]
    rw [Nat.add_assoc]
    congr 3
    omega

/-- A header that ends before a pair's symbol (44 R481). -/
theorem decPairs_noSymbol (n : Nat) (s : State) (h : remaining s < 32) :
    decPairs (n + 1) s = failCodec .corruptHeader s := by
  simp [decPairs, h]

/-- A pair whose symbol field has been read: what it is decides (44 R481, R482). -/
theorem decPairs_symbol (n v : Nat) (hv : v < 2 ^ 32) (s : State) (hf : Fresh s) (r : Bits)
    (h : restBits s = msbBits v 32 ++ r) :
    (255 < v → decPairs (n + 1) s = failCodec .range (consumed 32 s)) ∧
    ((∃ e ∈ s.ft, e.sym.toNat = v) → decPairs (n + 1) s = failCodec .corruptHeader (consumed 32 s)) ∧
    (v ≤ 255 → (∀ e ∈ s.ft, e.sym.toNat ≠ v) → r.length < 32 →
      decPairs (n + 1) s = failCodec .corruptHeader (consumed 32 s)) := by
  have hl := congrArg List.length h
  rw [restBits_length, List.length_append, msbBits_length] at hl
  have h1 := readFixed_field 32 v hv s hf r h
  have key : decPairs (n + 1) s =
      if maxSymbol < v then failCodec .range (consumed 32 s)
      else if ftHas s.ft (BitVec.ofNat 8 v) then failCodec .corruptHeader (consumed 32 s)
      else if r.length < 32 then failCodec .corruptHeader (consumed 32 s)
      else
        (readFixed 32 (consumed 32 s)).bind fun wt t =>
        decPairs n { t with ft := t.ft ++ [{ sym := BitVec.ofNat 8 v, w := BitVec.ofNat 32 wt }] } := by
    simp only [decPairs]
    rw [if_neg (by omega), h1, Res.bind_ok, remaining_consumed, show remaining s - 32 = r.length by omega]
    rfl
  have hhas : v ≤ 255 → (ftHas s.ft (BitVec.ofNat 8 v) = true ↔ ∃ e ∈ s.ft, e.sym.toNat = v) := by
    intro hle
    rw [ftHas_iff, List.mem_map]
    refine exists_congr fun e => and_congr_right fun _ => ?_
    constructor
    · intro he
      rw [he, BitVec.toNat_ofNat]
      exact Nat.mod_eq_of_lt (by omega)
    · intro he
      exact BitVec.eq_of_toNat_eq (by rw [he, BitVec.toNat_ofNat]; exact (Nat.mod_eq_of_lt (by omega)).symm)
  refine ⟨fun hgt => ?_, fun hd => ?_, fun hle hnd hr => ?_⟩
  · rw [key, if_pos (by simpa [maxSymbol] using hgt)]
  · have hle : v ≤ 255 := by
      obtain ⟨e, -, he⟩ := hd
      have := e.sym.isLt
      omega
    rw [key, if_neg (by simpa [maxSymbol] using hle), if_pos ((hhas hle).2 hd)]
  · have hnh : ¬ftHas s.ft (BitVec.ofNat 8 v) = true := by
      rw [hhas hle]
      rintro ⟨e, he, heq⟩
      exact hnd e he heq
    rw [key, if_neg (by simpa [maxSymbol] using hle), if_neg hnh, if_pos hr]

/-- The count of a header, then its pairs (44 R481). -/
theorem decHeader_count (s : State) (hf : Fresh s) (count : Nat) (hc : count < 2 ^ 8) (r : Bits)
    (h : restBits s = msbBits count 8 ++ r) : decHeader s = decPairs count (consumed 8 s) := by
  have hl := congrArg List.length h
  rw [restBits_length, List.length_append, msbBits_length] at hl
  simp only [decHeader]
  rw [if_neg (by omega), readFixed_field 8 count hc s hf r h, Res.bind_ok]

/-! ### The payload -/

/-- A walk along a path to a leaf reads the path and gives the leaf's symbol (44 R484). -/
theorem decWalk_leaf (p : Bits) (depth i l : Nat) (s : State) (hf : Fresh s) (r : Bits) (h : restBits s = p ++ r)
    (hd : p.length < depth) (hp : follow s.tree.nodes i p = some l) (sym : Byte) (w : Weight)
    (hl : s.tree.nodes[l]? = some (.leaf sym w)) : decWalk depth i s = .ok sym (consumed p.length s) := by
  induction p generalizing depth i s with
  | nil =>
    obtain ⟨d, rfl⟩ : ∃ d, depth = d + 1 := ⟨depth - 1, by simp at hd; omega⟩
    simp only [follow_nil, Option.some.injEq] at hp
    subst hp
    simp only [decWalk, hl]
    rfl
  | cons b p ih =>
    obtain ⟨d, rfl⟩ : ∃ d, depth = d + 1 := ⟨depth - 1, by simp at hd; omega⟩
    obtain ⟨z, o, w', hn, hp'⟩ := follow_cons_some hp
    have hlen := congrArg List.length h
    rw [restBits_length] at hlen
    simp only [List.cons_append, List.length_cons] at hlen
    have h1 := getBit_restBits s hf b (p ++ r) h
    have h2 : restBits (consumed 1 s) = p ++ r := restBits_consumed s [b] _ h
    simp only [decWalk, hn]
    rw [if_neg (by omega), h1, Res.bind_ok]
    rw [ih d _ (consumed 1 s) (hf.consumed 1 (by omega)) h2 (by simpa using hd) hp' hl, consumed_consumed,
      List.length_cons, Nat.add_comm]

/-- A walk that runs out of bits at an internal node (44 R484). -/
theorem decWalk_short (p : Bits) (depth i l : Nat) (s : State) (hf : Fresh s) (h : restBits s = p)
    (hd : p.length < depth) (hp : follow s.tree.nodes i p = some l) (z o : BitVec 9) (w : Weight)
    (hl : s.tree.nodes[l]? = some (.internal z o w)) :
    decWalk depth i s = failCodec .endOfStream (consumed p.length s) := by
  induction p generalizing depth i s with
  | nil =>
    obtain ⟨d, rfl⟩ : ∃ d, depth = d + 1 := ⟨depth - 1, by simp at hd; omega⟩
    simp only [follow_nil, Option.some.injEq] at hp
    subst hp
    have hlen := congrArg List.length h
    rw [restBits_length, List.length_nil] at hlen
    simp only [decWalk, hl]
    rw [if_pos hlen]
    rfl
  | cons b p ih =>
    obtain ⟨d, rfl⟩ : ∃ d, depth = d + 1 := ⟨depth - 1, by simp at hd; omega⟩
    obtain ⟨z', o', w', hn, hp'⟩ := follow_cons_some hp
    have hlen := congrArg List.length h
    rw [restBits_length, List.length_cons] at hlen
    have h1 := getBit_restBits s hf b p h
    have h2 : restBits (consumed 1 s) = p := restBits_consumed s [b] p h
    simp only [decWalk, hn]
    rw [if_neg (by omega), h1, Res.bind_ok]
    rw [ih d _ (consumed 1 s) (hf.consumed 1 (by omega)) h2 (by simpa using hd) hp' hl, consumed_consumed,
      List.length_cons, Nat.add_comm]

/-- Bytes written from an address upward. -/
def Memory.writeAll : Memory → Nat → List Byte → Memory
  | m, _, [] => m
  | m, a, c :: cs => Memory.writeAll (Memory.write m a c) (a + 1) cs

theorem Memory.writeAll_wf (m : Memory) (a : Nat) (cs : List Byte) (h : Memory.wf m) :
    Memory.wf (Memory.writeAll m a cs) := by
  induction cs generalizing m a with
  | nil => exact h
  | cons c cs ih => exact ih _ _ (Memory.write_wf _ _ _ h)

theorem Memory.writeAll_bounded (m : Memory) (a : Nat) (cs : List Byte) (n : Nat) (ha : a + cs.length ≤ n)
    (h : ∀ c ∈ m, c.1 < n) : ∀ c ∈ Memory.writeAll m a cs, c.1 < n := by
  induction cs generalizing m a with
  | nil => exact h
  | cons c cs ih =>
    rw [List.length_cons] at ha
    exact ih _ _ (by omega) (Memory.write_bounded _ _ _ _ (by omega) h)

theorem Memory.read_writeAll_other (m : Memory) (a : Nat) (cs : List Byte) (b : Nat)
    (hb : ¬(a ≤ b ∧ b < a + cs.length)) : Memory.read (Memory.writeAll m a cs) b = Memory.read m b := by
  induction cs generalizing m a with
  | nil => rfl
  | cons c cs ih =>
    rw [List.length_cons] at hb
    simp only [Memory.writeAll]
    rw [ih _ _ (by omega), Memory.read_write_other _ _ _ _ (by omega)]

theorem Memory.read_writeAll_same (m : Memory) (a : Nat) (cs : List Byte) (h : Memory.wf m) (k : Nat)
    (hk : k < cs.length) : Memory.read (Memory.writeAll m a cs) (a + k) = cs.getD k 0 := by
  induction cs generalizing m a k with
  | nil => simp at hk
  | cons c cs ih =>
    simp only [Memory.writeAll]
    cases k with
    | zero =>
      rw [Memory.read_writeAll_other _ _ _ _ (by omega), Nat.add_zero, Memory.read_write_same _ _ _ h]
      rfl
    | succ k =>
      rw [List.length_cons] at hk
      have := ih (Memory.write m a c) (a + 1) (Memory.write_wf _ _ _ h) k (by omega)
      rw [show a + (k + 1) = a + 1 + k by omega, this, List.getD_cons_succ]

/-- The reader's unread bits do not see writes outside its buffer. -/
theorem restBits_writeAll (s : State) (a : Nat) (cs : List Byte)
    (hd : ∀ x, a ≤ x → x < a + cs.length → inReaderBuffer s.br x = false) (hp : s.br.pos ≤ 8 * s.br.len.toNat) :
    restBits { s with dmem := Memory.writeAll s.dmem a cs } = restBits s := by
  simp only [restBits, bufferSeq]
  refine List.map_congr_left fun i hi => ?_
  rw [List.mem_range] at hi
  simp only [remaining] at hi
  simp only [bufferBit]
  rw [Memory.read_writeAll_other]
  rintro ⟨h1, h2⟩
  have := hd _ h1 h2
  simp only [inReaderBuffer, decide_eq_false_iff_not] at this
  omega

/-- The state after some symbols of the payload have been decoded (44 R484). -/
def symbolsOut (bits a : Nat) (out : List Byte) (s : State) : State :=
  { consumed bits s with dmem := Memory.writeAll s.dmem a out }

/-- The codes of a payload, one per symbol, decode to the symbols, one after the other from an address upward, as long as
the addresses miss the reader's buffer (44 R484). -/
theorem decPayload_symbols (codes : Codes) (out : List Byte) (m a : Nat) (s : State) (hf : Fresh s) (r : Bits)
    (hcodes : ∀ c p, codeOf codes c = some p → leadsTo s.tree p c ∧ p.length < s.tree.nodes.length)
    (hout : ∀ c ∈ out, codeOf codes c ≠ none) (h : restBits s = payloadSeq codes out ++ r)
    (ha : a + out.length ≤ s.dmemSize) (hd : ∀ x, a ≤ x → x < a + out.length → inReaderBuffer s.br x = false) :
    decPayload (out.length + m) a s =
      decPayload m (a + out.length) (symbolsOut (payloadSeq codes out).length a out s) := by
  induction out generalizing a s with
  | nil => simp [symbolsOut, payloadSeq, Memory.writeAll, consumed_zero]
  | cons c out ih =>
    obtain ⟨p, hp⟩ : ∃ p, codeOf codes c = some p := Option.ne_none_iff_exists'.1 (hout c (by simp))
    have hseq : payloadSeq codes (c :: out) = p ++ payloadSeq codes out := by
      simp [payloadSeq, codeBits, hp]
    rw [hseq, List.append_assoc] at h
    have hlen := congrArg List.length h
    rw [restBits_length, List.length_append] at hlen
    obtain ⟨⟨l, w, hfl, hlf⟩, hpl⟩ := hcodes c p hp
    have h1 : decSymbol s = .ok c (consumed p.length s) := decWalk_leaf p _ _ l s hf _ h hpl hfl c w hlf
    have h2 : memWrite a c (consumed p.length s) = .ok () (storeByte a c (consumed p.length s)) := by
      refine memWrite_inDmem _ _ _ ?_
      rw [List.length_cons] at ha
      show a < s.dmemSize
      omega
    have hna : inReaderBuffer s.br a = false := hd a (le_refl _) (by simp)
    have h3 : storeByte a c (consumed p.length s) = symbolsOut p.length a [c] s := by
      have : inReaderBuffer (consumed p.length s).br a = false := hna
      simp only [storeByte, this, symbolsOut, Memory.writeAll]
      simp [consumed]
    have hrest : restBits (symbolsOut p.length a [c] s) = payloadSeq codes out ++ r := by
      have hb := restBits_consumed s p _ h
      have hw := restBits_writeAll (consumed p.length s) a [c] (fun x hx1 hx2 => hd x hx1 (by simp at hx2 ⊢; omega))
        (hf.consumed p.length (by omega)).reader.posLe
      exact hw.trans hb
    have hfr : Fresh (symbolsOut p.length a [c] s) := (hf.consumed p.length (by omega)).congr rfl rfl
    rw [List.length_cons] at ha hd ⊢
    rw [Nat.add_right_comm]
    simp only [decPayload]
    rw [h1, Res.bind_ok, h2, Res.bind_ok, h3, ih (a + 1) (symbolsOut p.length a [c] s) hfr hcodes
      (fun d hdm => hout d (by simp [hdm])) hrest (by show a + 1 + out.length ≤ s.dmemSize; omega)
      (fun x hx1 hx2 => hd x (by omega) (by omega))]
    rw [hseq, List.length_append]
    simp only [symbolsOut, consumed, Memory.writeAll, Nat.add_assoc, Nat.add_comm 1]

end Sys2Proof.Machine
end

