-- ==== Sys2Proof/Laws/Packer.lean ====
section
/-! SUPPORT. What the packer's primitives do: one law per operation, which later proofs cite. -/

namespace Sys2Proof.Machine

/-- `room(L)` says that the stream with `L` more bits fits the capacity (42 R352). -/
theorem room_iff (len : Nat) (s : State) : room len s = true ↔ packerBits s.bp + len ≤ 8 * s.bp.cap.toNat := by
  unfold room ceilDiv
  rw [decide_eq_true_eq]
  omega

theorem packedBit_complete (s : State) (q : Nat) (h : q / 8 < s.bp.bytes.toNat) :
    packedBit s q = streamBit (Memory.read s.dmem (s.bp.base.toNat + q / 8)) q := by
  simp [packedBit, h]

theorem packedBit_partial (s : State) (q : Nat) (h : ¬q / 8 < s.bp.bytes.toNat) :
    packedBit s q = streamBit s.bp.cur q := by
  simp [packedBit, h]

theorem packerBits_div (bp : Packer) : packerBits bp / 8 = bp.bytes.toNat := by
  have := bp.cursor.isLt
  simp only [packerBits]
  omega

theorem packerBits_mod (bp : Packer) : packerBits bp % 8 = bp.cursor.val := by
  have := bp.cursor.isLt
  simp only [packerBits]
  omega

theorem nextByte_bits (bp : Packer) (h : bp.bytes.toNat < bp.cap.toNat) :
    packerBits (nextByte bp) = 8 * (bp.bytes.toNat + 1) := by
  have := bp.cap.isLt
  simp only [packerBits, nextByte, BitVec.toNat_add]
  simp
  omega

theorem nextByte_bytes (bp : Packer) (h : bp.bytes.toNat < bp.cap.toNat) :
    (nextByte bp).bytes.toNat = bp.bytes.toNat + 1 := by
  have := bp.cap.isLt
  simp only [nextByte, BitVec.toNat_add]
  simp
  omega

/-- The state after a partial byte went to DMEM. -/
def flushed (v : Byte) (s : State) : State :=
  { storeByte (packerAddr s) v s with bp := nextByte s.bp }

theorem flushByte_inRoom (v : Byte) (s : State) (hd : s.bp.base.toNat + s.bp.cap.toNat ≤ s.dmemSize)
    (hb : s.bp.bytes.toNat < s.bp.cap.toNat) : flushByte v s = .ok () (flushed v s) := by
  simp only [flushByte]
  rw [memWrite_inDmem _ _ _ (by simp only [packerAddr]; omega)]
  rfl

/-- `put(b)` where a bit fits: the stream is one bit longer (42 R350, R351). -/
theorem putBit_inRoom (b : Bool) (s : State) (hm : DmemOk s) (hp : PackerOk s) (hr : room 1 s = true) :
    ∃ t, putBit b s = .ok () t ∧ Appended [b] s t ∧ DmemOk t ∧ PackerOk t ∧ (ReaderOk s → ReaderOk t) := by
  rw [room_iff] at hr
  have hc := s.bp.cursor.isLt
  have hcap := s.bp.cap.isLt
  have hbytes : s.bp.bytes.toNat < s.bp.cap.toNat := by simp only [packerBits] at hr; omega
  by_cases h7 : s.bp.cursor.val = 7
  · have hf := flushByte_inRoom (setByteBit s.bp.cur (7 - s.bp.cursor.val) b) s hp.inDmem hbytes
    refine ⟨_, by simp only [putBit]; rw [if_pos h7]; exact hf, ?_, ?_, ?_, ?_⟩
    · have hby := nextByte_bytes s.bp hbytes
      refine ⟨rfl, ⟨rfl, rfl, rfl⟩, ?_, ?_, ?_, ?_, ?_⟩
      · show packerBits (nextByte s.bp) = _
        rw [nextByte_bits _ hbytes]
        simp only [packerBits, List.length_cons, List.length_nil]
        omega
      · intro q hq
        simp only [packerBits] at hq
        have hq1 : q / 8 < (nextByte s.bp).bytes.toNat := by omega
        rw [packedBit_complete (flushed _ s) q hq1]
        show streamBit (Memory.read (Memory.write s.dmem (packerAddr s) _) (s.bp.base.toNat + q / 8)) q = _
        by_cases hq2 : q / 8 < s.bp.bytes.toNat
        · rw [packedBit_complete _ _ hq2, Memory.read_write_other _ _ _ _ (by simp only [packerAddr]; omega)]
        · rw [packedBit_partial _ _ hq2]
          have : s.bp.base.toNat + q / 8 = packerAddr s := by simp only [packerAddr]; omega
          rw [this, Memory.read_write_same _ _ _ hm.canonical]
          simp only [streamBit]
          rw [setByteBit_getLsbD _ _ _ _ (by omega), if_neg (by omega)]
      · intro i hi
        simp only [List.length_cons, List.length_nil] at hi
        have : i = 0 := by omega
        subst this
        have hq1 : (packerBits s.bp + 0) / 8 < (nextByte s.bp).bytes.toNat := by
          rw [Nat.add_zero, packerBits_div]; omega
        rw [packedBit_complete (flushed _ s) _ hq1]
        show streamBit (Memory.read (Memory.write s.dmem (packerAddr s) _)
          (s.bp.base.toNat + (packerBits s.bp + 0) / 8)) _ = _
        have : s.bp.base.toNat + (packerBits s.bp + 0) / 8 = packerAddr s := by
          rw [Nat.add_zero, packerBits_div]; rfl
        rw [this, Memory.read_write_same _ _ _ hm.canonical]
        simp only [streamBit]
        rw [Nat.add_zero, packerBits_mod, setByteBit_getLsbD _ _ _ _ (by omega), if_pos rfl]
        rfl
      · intro a ha
        refine Memory.read_write_other _ _ _ _ fun h => ha ?_
        subst h
        refine ⟨le_refl _, ?_⟩
        simp only [packerAddr, flushed]
        rw [hby]
        show _ < s.bp.base.toNat + _
        omega
      · intro a
        show a ∈ (storeByte (packerAddr s) (setByteBit s.bp.cur (7 - s.bp.cursor.val) b) s).br.changed ↔ _
        rw [mem_storeByte_changed]
        refine or_congr_right (and_congr_right fun _ => ?_)
        simp only [packedNow, packerAddr, flushed]
        rw [hby]
        show _ ↔ _ ∧ a < s.bp.base.toNat + _
        omega
    · have ha : packerAddr s < s.dmemSize := by
        have := hp.inDmem
        simp only [packerAddr]
        omega
      have := storeByte_dmemOk (packerAddr s) (setByteBit s.bp.cur (7 - s.bp.cursor.val) b) s ha hm
      exact ⟨this.sizePos, this.sizeLe, this.canonical, this.bounded⟩
    · refine ⟨hp.inDmem, ?_, ?_⟩
      · show packerBits (nextByte s.bp) ≤ 8 * s.bp.cap.toNat
        rw [nextByte_bits _ hbytes]
        omega
      · intro i _
        simp [flushed, nextByte]
    · intro hro
      have := storeByte_readerOk (packerAddr s) (setByteBit s.bp.cur (7 - s.bp.cursor.val) b) s hro
      exact ⟨this.inDmem, this.posLe, this.rising, this.inBuffer⟩
  · have hcv : (s.bp.cursor + 1).val = s.bp.cursor.val + 1 := by
      rw [Fin.val_add]
      show (s.bp.cursor.val + 1) % 8 = _
      omega
    refine ⟨_, by simp only [putBit]; rw [if_neg h7], ?_, ?_, ?_, ?_⟩
    · refine ⟨rfl, ⟨rfl, rfl, rfl⟩, ?_, ?_, ?_, ?_, ?_⟩
      · simp only [packerBits, List.length_cons, List.length_nil]
        rw [hcv]
        omega
      · intro q hq
        simp only [packerBits] at hq
        simp only [packedBit]
        split_ifs with h
        · rfl
        · simp only [streamBit]
          rw [setByteBit_getLsbD _ _ _ _ (by omega), if_neg (by omega)]
      · intro i hi
        simp only [List.length_cons, List.length_nil] at hi
        have : i = 0 := by omega
        subst this
        simp only [packedBit]
        rw [Nat.add_zero, packerBits_div, if_neg (lt_irrefl _)]
        simp only [streamBit]
        rw [packerBits_mod, setByteBit_getLsbD _ _ _ _ (by omega), if_pos rfl]
        rfl
      · intro a _
        rfl
      · intro a
        constructor
        · exact .inl
        · rintro (h | ⟨-, h1, h2⟩)
          · exact h
          · simp only [packerAddr] at h1 h2
            omega
    · exact ⟨hm.sizePos, hm.sizeLe, hm.canonical, hm.bounded⟩
    · refine ⟨hp.inDmem, ?_, ?_⟩
      · simp only [packerBits] at hr ⊢
        rw [hcv]
        omega
      · intro i hi
        simp only at hi ⊢
        rw [hcv] at hi
        rw [setByteBit_getLsbD _ _ _ _ (by omega), if_neg (by omega)]
        exact hp.openBits i (by omega)
    · intro hro
      exact ⟨hro.inDmem, hro.posLe, hro.rising, hro.inBuffer⟩

theorem Appended.nil (s : State) : Appended [] s s := by
  refine ⟨rfl, ⟨rfl, rfl, rfl⟩, rfl, fun _ _ => rfl, fun i hi => by simp at hi, fun _ _ => rfl, fun a => ?_⟩
  constructor
  · exact .inl
  · rintro (h | ⟨-, h1, h2⟩)
    · exact h
    · omega

theorem Appended.bytes_le {seq : Bits} {s t : State} (h : Appended seq s t) : packerAddr s ≤ packerAddr t := by
  have h1 := h.count
  have h2 := packerBits_div s.bp
  have h3 := packerBits_div t.bp
  simp only [packerAddr]
  rw [h.latched.2.1]
  omega

/-- Appending one sequence and then another is appending their concatenation (42 R361). -/
theorem Appended.trans {p q : Bits} {s t u : State} (h : Appended p s t) (h' : Appended q t u) :
    Appended (p ++ q) s u := by
  have l1 := h.bytes_le
  have l2 := h'.bytes_le
  have hbr : inReaderBuffer t.br = inReaderBuffer s.br := by rw [h.rest]; rfl
  refine ⟨?_, ?_, ?_, ?_, ?_, ?_, ?_⟩
  · rw [h'.rest, h.rest]
  · obtain ⟨a1, a2, a3⟩ := h.latched
    obtain ⟨b1, b2, b3⟩ := h'.latched
    exact ⟨b1.trans a1, b2.trans a2, b3.trans a3⟩
  · rw [h'.count, h.count, List.length_append, Nat.add_assoc]
  · intro x hx
    rw [h'.earlier x (by rw [h.count]; omega), h.earlier x hx]
  · intro i hi
    rw [List.length_append] at hi
    by_cases hip : i < p.length
    · rw [h'.earlier _ (by rw [h.count]; omega), h.appended i hip, List.getD_append _ _ _ _ hip]
    · rw [List.getD_append_right _ _ _ _ (by omega), ← h'.appended _ (by omega), h.count]
      congr 1
      omega
  · intro a ha
    rw [h'.otherBytes a, h.otherBytes a]
    · exact fun hc => ha ⟨hc.1, lt_of_lt_of_le hc.2 l2⟩
    · exact fun hc => ha ⟨le_trans l1 hc.1, hc.2⟩
  · intro a
    rw [h'.changedBytes a, h.changedBytes a, hbr]
    simp only [packedNow]
    constructor
    · rintro ((h1 | ⟨h1, h2, h3⟩) | ⟨h1, h2, h3⟩)
      · exact .inl h1
      · exact .inr ⟨h1, h2, by omega⟩
      · exact .inr ⟨h1, by omega, h3⟩
    · rintro (h1 | ⟨h1, h2, h3⟩)
      · exact .inl (.inl h1)
      · by_cases hlt : a < packerAddr t
        · exact .inl (.inr ⟨h1, h2, hlt⟩)
        · exact .inr ⟨h1, by omega, h3⟩

/-- `put` of each bit of a sequence that fits: the stream grows by the sequence (42 R361). -/
theorem putBits_inRoom (seq : Bits) (s : State) (hm : DmemOk s) (hp : PackerOk s) (hr : room seq.length s = true) :
    ∃ t, putBits seq s = .ok () t ∧ Appended seq s t ∧ DmemOk t ∧ PackerOk t ∧ (ReaderOk s → ReaderOk t) := by
  induction seq generalizing s with
  | nil => exact ⟨s, rfl, .nil s, hm, hp, id⟩
  | cons b bs ih =>
    rw [room_iff, List.length_cons] at hr
    obtain ⟨t, ht, ha, hm', hp', hro⟩ := putBit_inRoom b s hm hp ((room_iff _ _).2 (by omega))
    have hrt : room bs.length t = true := by
      rw [room_iff, ha.count, ha.latched.2.2, List.length_cons, List.length_nil]
      omega
    obtain ⟨u, hu, hb, hm'', hp'', hro'⟩ := ih t hm' hp' hrt
    refine ⟨u, ?_, ?_, hm'', hp'', hro' ∘ hro⟩
    · simp only [putBits]
      rw [ht]
      exact hu
    · exact ha.trans hb

/-- An append is all or nothing (42 R352): the sequence is appended, or nothing changes and CapacityError is raised. -/
theorem appendSeq_cases (seq : Bits) (s : State) (hm : DmemOk s) (hp : PackerOk s) :
    (room seq.length s = true ∧ ∃ t, appendSeq seq s = .ok () t ∧ Appended seq s t ∧ DmemOk t ∧ PackerOk t ∧
        (ReaderOk s → ReaderOk t)) ∨
      (room seq.length s = false ∧ appendSeq seq s = .raise .capacity s) := by
  by_cases hr : room seq.length s = true
  · obtain ⟨t, ht, h⟩ := putBits_inRoom seq s hm hp hr
    exact .inl ⟨hr, t, by simp [appendSeq, hr, ht], h⟩
  · exact .inr ⟨by simpa using hr, by simp [appendSeq, hr]⟩

/-- BP_FINISH where a packer is active: its body ends, the stream is out and padded (42 R365). -/
theorem bpFinishBody_active (s : State) (hm : DmemOk s) (hp : PackerOk s) (ha : s.bp.active = true) :
    ∃ t, bpFinishBody s = .ok () t ∧ Finished s t ∧ DmemOk t ∧ PackerOk t ∧ (ReaderOk s → ReaderOk t) := by
  have hc := s.bp.cursor.isLt
  have hfit := hp.fits
  have hin := hp.inDmem
  by_cases h0 : 0 < s.bp.cursor.val
  · have hbytes : s.bp.bytes.toNat < s.bp.cap.toNat := by simp only [packerBits] at hfit; omega
    have hby := nextByte_bytes s.bp hbytes
    have haddr : packerAddr s < s.dmemSize := by simp only [packerAddr]; omega
    have hread : ∀ q, q / 8 = s.bp.bytes.toNat →
        Memory.read (Memory.write s.dmem (packerAddr s) s.bp.cur) (s.bp.base.toNat + q / 8) = s.bp.cur := by
      intro q hq
      have : s.bp.base.toNat + q / 8 = packerAddr s := by simp only [packerAddr]; omega
      rw [this, Memory.read_write_same _ _ _ hm.canonical]
    refine ⟨closePacker (flushed s.bp.cur s), ?_, ?_, ?_, ?_, ?_⟩
    · simp only [bpFinishBody, ha, h0, if_true]
      rw [flushByte_inRoom _ _ hin hbytes]
      rfl
    · refine ⟨rfl, ⟨rfl, rfl⟩, ⟨rfl, rfl, rfl⟩, ⟨?_, rfl⟩, ?_, ?_, ?_, ?_⟩
      · show (nextByte s.bp).bytes.toNat = _
        rw [hby]
        simp only [ceilDiv, packerBits]
        omega
      · intro q hq
        show streamBit (Memory.read (Memory.write s.dmem (packerAddr s) s.bp.cur) (s.bp.base.toNat + q / 8)) q = _
        by_cases hq2 : q / 8 < s.bp.bytes.toNat
        · rw [packedBit_complete _ _ hq2, Memory.read_write_other _ _ _ _ (by simp only [packerAddr]; omega)]
        · simp only [packerBits] at hq
          rw [packedBit_partial _ _ hq2, hread q (by omega)]
      · intro q hq1 hq2
        show streamBit (Memory.read (Memory.write s.dmem (packerAddr s) s.bp.cur) (s.bp.base.toNat + q / 8)) q = _
        have hq3 : q < 8 * (nextByte s.bp).bytes.toNat := hq2
        rw [hby] at hq3
        simp only [packerBits] at hq1
        rw [hread q (by omega)]
        exact hp.openBits _ (by omega)
      · intro a hna
        refine Memory.read_write_other _ _ _ _ fun h => hna ?_
        subst h
        refine ⟨le_refl _, ?_⟩
        show _ < s.bp.base.toNat + (nextByte s.bp).bytes.toNat
        rw [hby]
        simp only [packerAddr]
        omega
      · intro a
        show a ∈ (storeByte (packerAddr s) s.bp.cur s).br.changed ↔ _
        rw [mem_storeByte_changed]
        refine or_congr_right (and_congr_right fun _ => ?_)
        show _ ↔ _ ∧ a < s.bp.base.toNat + (nextByte s.bp).bytes.toNat
        rw [hby]
        simp only [packerAddr]
        omega
    · have := storeByte_dmemOk (packerAddr s) s.bp.cur s haddr hm
      exact ⟨this.sizePos, this.sizeLe, this.canonical, this.bounded⟩
    · refine ⟨hin, ?_, ?_⟩
      · show packerBits (nextByte s.bp) ≤ 8 * s.bp.cap.toNat
        rw [nextByte_bits _ hbytes]
        omega
      · intro i _
        show (0 : Byte).getLsbD i = false
        simp
    · intro hro
      have := storeByte_readerOk (packerAddr s) s.bp.cur s hro
      exact ⟨this.inDmem, this.posLe, this.rising, this.inBuffer⟩
  · have hcz : s.bp.cursor = 0 := Fin.ext (by simpa using h0)
    have hcv : s.bp.cursor.val = 0 := by omega
    have hcur : s.bp.cur = 0 := by
      refine BitVec.eq_of_getLsbD_eq fun i hi => ?_
      rw [hp.openBits i (by omega)]
      simp
    refine ⟨closePacker s, ?_, ?_, ?_, ?_, ?_⟩
    · simp [bpFinishBody, ha, hcv]
    · refine ⟨rfl, ⟨rfl, rfl⟩, ⟨rfl, hcur, hcz⟩, ⟨?_, rfl⟩, ?_, ?_, ?_, ?_⟩
      · show s.bp.bytes.toNat = _
        simp only [ceilDiv, packerBits]
        omega
      · intro q hq
        simp only [packerBits] at hq
        rw [packedBit_complete _ _ (by omega)]
        rfl
      · intro q hq1 hq2
        simp only [packerBits] at hq1
        have : q < 8 * s.bp.bytes.toNat := hq2
        omega
      · intro a _
        rfl
      · intro a
        constructor
        · exact .inl
        · rintro (h | ⟨-, h1, h2⟩)
          · exact h
          · have : a < packerAddr s := h2
            omega
    · exact ⟨hm.sizePos, hm.sizeLe, hm.canonical, hm.bounded⟩
    · exact ⟨hp.inDmem, hp.fits, hp.openBits⟩
    · exact fun hro => ⟨hro.inDmem, hro.posLe, hro.rising, hro.inBuffer⟩

end Sys2Proof.Machine
end

