-- ==== Sys2Proof/Laws/Encoder.lean ====
section
/-! SUPPORT. What ENC does, case by case (spec/44_codec.md R460 to R472). -/

namespace Sys2Proof.Machine

theorem codecRangesOk_iff (s : State) : codecRangesOk s = true ↔
    s.inBase.toNat + s.inLen.toNat ≤ s.dmemSize ∧ s.outBase.toNat + s.outCap.toNat ≤ s.dmemSize ∧
      ¬(0 < s.inLen.toNat ∧ 0 < s.outCap.toNat ∧ s.inBase.toNat < s.outBase.toNat + s.outCap.toNat ∧
        s.outBase.toNat < s.inBase.toNat + s.inLen.toNat) := by
  simp only [codecRangesOk, inputInRange, outputInRange, rangesOverlap, Bool.and_eq_true, decide_eq_true_eq,
    Bool.not_eq_true', decide_eq_false_iff_not, and_assoc]

@[simp] theorem inputBytes_length (s : State) : (inputBytes s).length = s.inLen.toNat := by simp [inputBytes]

theorem inputBytes_eq_nil_iff (s : State) : inputBytes s = [] ↔ s.inLen.toNat = 0 := by
  rw [← List.length_eq_zero_iff, inputBytes_length]

/-- The state ENC has reached after step 3 (44 R463). -/
def encPrepared (s : State) (codes : Codes) : State :=
  { s with ft := countBytes (inputBytes s), tree := buildTree (countBytes (inputBytes s)),
           ct := { valid := true, codes := codes } }

/-- ENC up to the checks of step 4: the range checks, the counted table, the tree and the codes (44 R460 to R463, R470,
R471). -/
theorem encBody_cases (s : State) :
    (codecRangesOk s = false ∧ encBody s = .raise .address s) ∨
      (codecRangesOk s = true ∧ s.inLen.toNat = 0 ∧
        encBody s = .raise .invalidInput { clearTable s with outLen := 0 }) ∨
      (codecRangesOk s = true ∧ 0 < s.inLen.toNat ∧
        ∃ codes, deriveCodes (buildTree (countBytes (inputBytes s))) = .ok codes ∧
          (∀ c p, codeOf codes c = some p ↔ leadsTo (buildTree (countBytes (inputBytes s))) p c) ∧
          encBody s = encChecked (encPrepared s codes)) := by
  by_cases hr : codecRangesOk s = true
  · right
    have hin := ((codecRangesOk_iff s).1 hr).1
    have hread : readBytes s.inBase.toNat s.inLen.toNat (clearTable s) = .ok (inputBytes s) (clearTable s) :=
      readBytes_inDmem _ _ (clearTable s) hin
    by_cases h0 : s.inLen.toNat = 0
    · left
      refine ⟨hr, h0, ?_⟩
      have hnil := (inputBytes_eq_nil_iff s).2 h0
      simp only [encBody, hr, hread, Bool.not_true, Bool.false_eq_true, if_false, Res.bind_ok, hnil]
      rfl
    · right
      have hne : countBytes (inputBytes s) ≠ [] := by
        rw [Ne, countBytes_eq_nil_iff, inputBytes_eq_nil_iff]
        exact h0
      have hemp : (countBytes (inputBytes s)).isEmpty = false := by simpa using hne
      have hd := countBytes_nodup (inputBytes s)
      obtain ⟨codes, hc, hl⟩ := deriveCodes_spec (treeOf_buildTree _ hne hd) hd
      refine ⟨hr, by omega, codes, hc, hl, ?_⟩
      have hv : (buildTree (countBytes (inputBytes s))).valid = true := rfl
      simp only [encBody, hr, hread, Bool.not_true, Bool.false_eq_true, if_false, Res.bind_ok, hemp, tbBuildBody,
        ctDeriveBody, hc, hv, if_true]
      rfl
  · exact .inl ⟨by simpa using hr, by simp [encBody, hr]⟩

theorem encChecked_range (s : State) (h : 255 < s.ft.length) : encChecked s = .raise .range { s with outLen := 0 } := by
  simp [encChecked, h, failCodec]

theorem encChecked_capacity (s : State) (h : s.ft.length ≤ 255)
    (hc : s.outCap.toNat < containerLen s.ft.length (payloadBits s.ft s.ct.codes)) :
    encChecked s = .raise .capacity { s with outLen := 0 } := by
  simp [encChecked, hc, failCodec, Nat.not_lt.2 h]

theorem encChecked_fits (s : State) (h : s.ft.length ≤ 255)
    (hc : containerLen s.ft.length (payloadBits s.ft s.ct.codes) ≤ s.outCap.toNat) :
    encChecked s = encWrite (payloadBits s.ft s.ct.codes) s := by
  simp [encChecked, Nat.not_lt.2 h, Nat.not_lt.2 hc]

theorem freshPacker_ok (s : State) (h : s.outBase.toNat + s.outCap.toNat ≤ s.dmemSize) :
    PackerOk { s with bp := freshPacker s.outBase s.outCap } :=
  ⟨h, by simp [packerBits, freshPacker], fun i _ => by simp [freshPacker]⟩

/-- Steps 4 and 5 of ENC where the container fits: the header and the payload are appended to a new packer, and the input
is read unchanged between them (44 R466, R467, 20 R164). -/
theorem encStream_fits (s : State) (hm : DmemOk s) (hr : codecRangesOk s = true)
    (hfit : containerLen s.ft.length (payloadSeq s.ct.codes (inputBytes s)).length ≤ s.outCap.toNat) :
    ∃ s1 s2, putBits (headerBits s.ft) { s with bp := freshPacker s.outBase s.outCap } = .ok () s1 ∧
      readBytes s1.inBase.toNat s1.inLen.toNat s1 = .ok (inputBytes s) s1 ∧
      putBits (payloadSeq s1.ct.codes (inputBytes s)) s1 = .ok () s2 ∧
      Appended (headerBits s.ft ++ payloadSeq s.ct.codes (inputBytes s))
        { s with bp := freshPacker s.outBase s.outCap } s2 ∧
      DmemOk s2 ∧ PackerOk s2 ∧ (ReaderOk s → ReaderOk s2) := by
  obtain ⟨hin, hout, hover⟩ := (codecRangesOk_iff s).1 hr
  have hhl := headerBits_length s.ft
  simp only [containerLen, ceilDiv] at hfit
  have hb0 : packerBits (freshPacker s.outBase s.outCap) = 0 := by simp [packerBits, freshPacker]
  obtain ⟨s1, h1, a1, m1, p1, r1⟩ := putBits_inRoom (headerBits s.ft) { s with bp := freshPacker s.outBase s.outCap }
    (hm.congr rfl rfl) (freshPacker_ok s hout) (by
      rw [room_iff, hhl]
      show packerBits (freshPacker s.outBase s.outCap) + _ ≤ 8 * s.outCap.toNat
      omega)
  have hc1 : packerBits s1.bp = (headerBits s.ft).length := by
    rw [a1.count]
    show packerBits (freshPacker s.outBase s.outCap) + _ = _
    omega
  have hcap1 : s1.bp.cap = s.outCap := a1.latched.2.2
  have hbase1 : s1.bp.base = s.outBase := a1.latched.2.1
  have hsize1 : s1.dmemSize = s.dmemSize := by rw [a1.rest]
  have hib1 : s1.inBase = s.inBase := by rw [a1.rest]
  have hil1 : s1.inLen = s.inLen := by rw [a1.rest]
  have hct1 : s1.ct = s.ct := by rw [a1.rest]
  have hinput : (List.range s1.inLen.toNat).map (fun k => Memory.read s1.dmem (s1.inBase.toNat + k)) = inputBytes s := by
    rw [hib1, hil1]
    refine List.map_congr_left fun k hk => ?_
    rw [List.mem_range] at hk
    refine a1.otherBytes _ fun hpn => ?_
    obtain ⟨hge, hlt⟩ := hpn
    have ha0 : packerAddr { s with bp := freshPacker s.outBase s.outCap } = s.outBase.toNat := by
      simp [packerAddr, freshPacker]
    rw [ha0] at hge
    simp only [packerAddr, hbase1] at hlt
    have := packerBits_div s1.bp
    have := p1.fits
    rw [hcap1] at this
    omega
  obtain ⟨s2, h2, a2, m2, p2, r2⟩ := putBits_inRoom (payloadSeq s.ct.codes (inputBytes s)) s1 m1 p1 (by
    rw [room_iff, hc1, hcap1, hhl]
    omega)
  refine ⟨s1, s2, h1, ?_, by rw [hct1]; exact h2, a1.trans a2, m2, p2, fun hro => r2 (r1 (hro.congr rfl rfl))⟩
  rw [readBytes_inDmem _ _ _ (by rw [hib1, hil1, hsize1]; exact hin), hinput]

/-- What steps 4 to 6 of ENC leave in a state `t` they end in (44 R466 to R468). -/
structure Written (s t : State) : Prop where
  rest : t = { s with bp := t.bp, outLen := t.outLen, dmem := t.dmem, br := { s.br with changed := t.br.changed } }
  packer : t.bp.active = false ∧ t.bp.base = s.outBase ∧ t.bp.cap = s.outCap ∧ t.bp.bytes = t.outLen ∧ t.bp.cur = 0 ∧
    t.bp.cursor = 0
  length : t.outLen.toNat = containerLen s.ft.length (payloadSeq s.ct.codes (inputBytes s)).length
  container : ∀ q, q < 8 * t.outLen.toNat → dmemBit t s.outBase.toNat q =
    (headerBits s.ft ++ payloadSeq s.ct.codes (inputBytes s)).getD q false
  otherBytes : ∀ a, ¬inOutput s t.outLen.toNat a → Memory.read t.dmem a = Memory.read s.dmem a
  changedBytes : ∀ a, a ∈ t.br.changed ↔
    a ∈ s.br.changed ∨ (inReaderBuffer s.br a = true ∧ inOutput s t.outLen.toNat a)

/-- A finished stream of header and payload is the container. -/
theorem written_of_finished (s s2 t : State)
    (a : Appended (headerBits s.ft ++ payloadSeq s.ct.codes (inputBytes s))
      { s with bp := freshPacker s.outBase s.outCap } s2) (f : Finished s2 t) : Written s t := by
  have hhl := headerBits_length s.ft
  have hb0 : packerBits (freshPacker s.outBase s.outCap) = 0 := by simp [packerBits, freshPacker]
  have hbase2 : s2.bp.base = s.outBase := a.latched.2.1
  have hcap2 : s2.bp.cap = s.outCap := a.latched.2.2
  have hbits2 : packerBits s2.bp = (headerBits s.ft ++ payloadSeq s.ct.codes (inputBytes s)).length := by
    rw [a.count]
    show packerBits (freshPacker s.outBase s.outCap) + _ = _
    omega
  have hlen : t.outLen.toNat = containerLen s.ft.length (payloadSeq s.ct.codes (inputBytes s)).length := by
    rw [f.length.2, f.length.1, hbits2, List.length_append, hhl]
    simp only [containerLen, ceilDiv]
    omega
  have ha0 : packerAddr { s with bp := freshPacker s.outBase s.outCap } = s.outBase.toNat := by
    simp [packerAddr, freshPacker]
  have ha2 := a.bytes_le
  have ha3 : packerAddr t = s.outBase.toNat + t.outLen.toNat := by
    simp only [packerAddr]
    rw [f.latched.1, hbase2, f.length.2]
  have hle : packerAddr s2 ≤ packerAddr t := by
    have := packerBits_div s2.bp
    have h5 := f.length.1
    rw [ha3, f.length.2, h5]
    simp only [packerAddr, ceilDiv]
    rw [hbase2]
    omega
  have hpn : ∀ x, packedNow { s with bp := freshPacker s.outBase s.outCap } s2 x ∨ packedNow s2 t x ↔
      inOutput s t.outLen.toNat x := by
    intro x
    simp only [packedNow, inOutput]
    omega
  refine ⟨?_, ?_, hlen, ?_, ?_, ?_⟩
  · rw [f.rest, a.rest]
  · exact ⟨f.closed.1, f.latched.1.trans hbase2, f.latched.2.trans hcap2, f.length.2.symm, f.closed.2.1,
      f.closed.2.2⟩
  · intro q hq
    rw [← hbase2]
    by_cases hqb : q < packerBits s2.bp
    · rw [f.stream q hqb]
      have := a.appended q (by rw [← hbits2]; exact hqb)
      have hz : packerBits (freshPacker s.outBase s.outCap) + q = q := by omega
      rw [show packerBits ({ s with bp := freshPacker s.outBase s.outCap } : State).bp + q = q from hz] at this
      exact this
    · rw [f.padding q (by omega) (by rw [← f.length.2]; exact hq),
        List.getD_eq_default _ _ (by rw [← hbits2]; omega)]
  · intro x hna
    rw [← hpn] at hna
    rw [f.otherBytes x fun h => hna (.inr h), a.otherBytes x fun h => hna (.inl h)]
  · intro x
    have hbr2 : inReaderBuffer s2.br = inReaderBuffer s.br := by rw [a.rest]; rfl
    rw [f.changedBytes x, a.changedBytes x, hbr2, ← hpn x]
    show (_ ∨ (inReaderBuffer s.br x = true ∧ _)) ∨ _ ↔ _
    tauto

/-- Steps 4 to 6 of ENC where the container fits: the whole container goes out (44 R466 to R469). -/
theorem encWrite_fits (s : State) (hm : DmemOk s) (hr : codecRangesOk s = true)
    (hfit : containerLen s.ft.length (payloadSeq s.ct.codes (inputBytes s)).length ≤ s.outCap.toNat) (p : Nat) :
    ∃ t, encWrite p s = .ok () (setResults (lowWord p) (highWord40 p) 0 t) ∧ Written s t ∧
      DmemOk t ∧ PackerOk t ∧ (ReaderOk s → ReaderOk t) := by
  obtain ⟨s1, s2, h1, hread, h2, a, m2, p2, r2⟩ := encStream_fits s hm hr hfit
  have hact : s2.bp.active = true := by rw [a.latched.1]; rfl
  obtain ⟨t, h3, f, m3, p3, r3⟩ := bpFinishBody_active s2 m2 p2 hact
  refine ⟨t, ?_, written_of_finished s s2 t a f, m3, p3, fun hro => r3 (r2 hro)⟩
  simp only [encWrite]
  rw [h1, Res.bind_ok, hread, Res.bind_ok, h2, Res.bind_ok, h3, Res.bind_ok]

/-- ENC of an input that is not empty, has at most 255 byte values and whose container fits: success (44 R460). -/
theorem encBody_fits (s : State) (hm : DmemOk s) (codes : Codes)
    (hc : deriveCodes (buildTree (countBytes (inputBytes s))) = .ok codes) (hr : codecRangesOk s = true)
    (h0 : 0 < s.inLen.toNat) (hn : (countBytes (inputBytes s)).length ≤ 255)
    (hfit : containerLen (countBytes (inputBytes s)).length (payloadSeq codes (inputBytes s)).length
      ≤ s.outCap.toNat) :
    ∃ t, encBody s = .ok () t ∧ Encoded codes s t ∧ DmemOk t ∧ PackerOk t ∧ (ReaderOk s → ReaderOk t) := by
  rcases encBody_cases s with ⟨h, -⟩ | ⟨-, h, -⟩ | ⟨-, -, codes', hc', -, he⟩
  · rw [hr] at h; cases h
  · omega
  rw [hc] at hc'
  cases hc'
  have hl : (inputBytes s).length < 2 ^ 32 := by
    rw [inputBytes_length]
    exact s.inLen.isLt
  have hpb := payloadBits_countBytes codes (inputBytes s) hl
  have hib : inputBytes (encPrepared s codes) = inputBytes s := rfl
  rw [encChecked_fits (encPrepared s codes) hn (by
    show containerLen _ (payloadBits (countBytes (inputBytes s)) codes) ≤ _
    rw [hpb]
    exact hfit)] at he
  obtain ⟨t, ht, wr, m, p, r⟩ := encWrite_fits (encPrepared s codes)
    (hm.congr rfl rfl) hr (by rw [hib]; exact hfit)
    (payloadBits (encPrepared s codes).ft (encPrepared s codes).ct.codes)
  have hpl : payloadBits (encPrepared s codes).ft (encPrepared s codes).ct.codes
      = (payloadSeq codes (inputBytes s)).length := hpb
  rw [hpl] at ht
  refine ⟨setResults (lowWord (payloadSeq codes (inputBytes s)).length)
    (highWord40 (payloadSeq codes (inputBytes s)).length) 0 t, by rw [he, hpl]; exact ht,
    ⟨?_, hc, wr.packer, wr.length, wr.container, wr.otherBytes, wr.changedBytes⟩,
    m.congr rfl rfl, p.congr rfl rfl, fun hro => (r (hro.congr rfl rfl)).congr rfl rfl⟩
  exact congrArg (setResults _ _ 0) wr.rest

end Sys2Proof.Machine
end

