-- ==== Sys2Proof/Laws/Container.lean ====
section
/-! SUPPORT. The container as ENC writes it and DEC reads it, and the table both share (spec/44_codec.md). -/

namespace Sys2Proof.Machine

theorem codecRanges_iff (s : State) : codecRanges s ↔ codecRangesOk s = true := (codecRangesOk_iff s).symm

theorem countBytes_length (input : List Byte) : (countBytes input).length = input.dedup.length := by
  have h1 := countBytes_nodup input
  have h2 : ((countBytes input).map FtEntry.sym).Perm input.dedup := by
    rw [List.perm_ext_iff_of_nodup h1 (List.nodup_dedup _)]
    intro c
    rw [mem_countBytes_syms, List.mem_dedup]
  have := h2.length_eq
  simpa using this

/-- An ENC that reports OK wrote the container (44 R469). -/
theorem enc_ok (s t : State) (hm : DmemOk s) (h : exec .enc s = .next t) (he : t.errcode = .ok) :
    ∃ codes u, Encoded codes s u ∧ t = completed .ok u ∧ codecRangesOk s = true ∧ 0 < s.inLen.toNat ∧
      (countBytes (inputBytes s)).length ≤ 255 := by
  rcases encBody_cases s with ⟨hr, hb⟩ | ⟨-, hp, hb⟩ | ⟨hr, hpos, codes, hc, hl, hb⟩
  · simp only [exec, execEnc, hb] at h
    cases h; cases he
  · simp only [exec, execEnc, hb] at h
    cases h; cases he
  by_cases h255 : (countBytes (inputBytes s)).length ≤ 255
  · have hlen : (inputBytes s).length < 2 ^ 32 := by rw [inputBytes_length]; exact s.inLen.isLt
    have hpb := payloadBits_countBytes codes (inputBytes s) hlen
    by_cases hfit : containerLen (countBytes (inputBytes s)).length (payloadSeq codes (inputBytes s)).length
      ≤ s.outCap.toNat
    · obtain ⟨u, ht, henc, -⟩ := encBody_fits s hm codes hc hr hpos h255 hfit
      simp only [exec, execEnc, ht] at h
      cases h
      exact ⟨codes, u, henc, rfl, hr, hpos, h255⟩
    · simp only [exec, execEnc, hb] at h
      rw [encChecked_capacity _ h255 (by
        show s.outCap.toNat < containerLen (countBytes _).length (payloadBits (countBytes _) codes)
        rw [hpb]; omega)] at h
      cases h; cases he
  · simp only [exec, execEnc, hb] at h
    rw [encChecked_range _ (by show 255 < (countBytes _).length; omega)] at h
    cases h; cases he

/-- The state DEC goes on with once its ranges pass: the table cleared, the reader latched (44 R480). -/
def decStart (s : State) : State := { clearTable s with br := freshReader s.inBase s.inLen }

theorem decStart_fresh (s : State) (h : codecRanges s) : Fresh (decStart s) :=
  ⟨⟨h.1, Nat.zero_le _, List.Pairwise.nil, fun _ ha => absurd ha List.not_mem_nil⟩, rfl⟩

theorem decStart_rest (s : State) : restBits (decStart s) = inputBits s := by
  simp [restBits, bufferSeq, inputBits, decStart, freshReader, remaining, bufferBit, dmemBit, clearTable, invalidate]

theorem decBody_ranges (s : State) (h : codecRanges s) :
    decBody s = (decHeader (decStart s)).bind fun _ s => decRest s := by
  simp only [decBody]
  rw [(codecRanges_iff s).1 h]
  rfl

/-- A header that starts with a count and some entries: these are read, and the rest is left (44 R481). -/
theorem decHeader_prefix (s : State) (h : codecRanges s) (count : Nat) (hc : count ≤ 255) (ft : List FtEntry)
    (m : Nat) (hcm : count = ft.length + m) (hn : (ft.map FtEntry.sym).Nodup) (r : Bits)
    (hb : inputBits s = msbBits count 8 ++ ft.flatMap entryBits ++ r) :
    decHeader (decStart s) = decPairs m (pairsRead ft (consumed 8 (decStart s))) ∧
      Fresh (pairsRead ft (consumed 8 (decStart s))) ∧
      restBits (pairsRead ft (consumed 8 (decStart s))) = r := by
  have hf := decStart_fresh s h
  have hr : restBits (decStart s) = msbBits count 8 ++ (ft.flatMap entryBits ++ r) := by
    rw [decStart_rest, hb, List.append_assoc]
  have hl := congrArg List.length hr
  rw [restBits_length, List.length_append, List.length_append, msbBits_length, flatMap_entryBits_length] at hl
  have h1 := decHeader_count _ hf count (by omega) _ hr
  have h2 := restBits_consumed _ _ _ hr
  rw [msbBits_length] at h2
  have hf2 := hf.consumed 8 (by omega)
  refine ⟨?_, pairsRead_fresh _ _ hf2 (by rw [remaining_consumed]; omega), restBits_pairsRead _ _ _ h2⟩
  rw [h1, hcm, decPairs_entries m ft _ hf2 r h2]
  simpa [consumed, decStart, clearTable, invalidate] using hn

theorem stopped_eq (ft : List FtEntry) (k : Nat) (s : State) :
    { consumed k (pairsRead ft (consumed 8 (decStart s))) with outLen := 0 } =
      headerStopped ft (8 + 64 * ft.length + k) s := by
  simp [consumed, pairsRead, decStart, headerStopped, clearTable, invalidate, latchedAt, freshReader]

/-- The tree of a table is built (44 R483). -/
def treed (ft : List FtEntry) (s : State) : State :=
  { s with tree := buildTree ft, ct := { s.ct with valid := false } }

theorem decRest_ok (s : State) (ft : List FtEntry) (hft : s.ft = ft) (hne : ft ≠ []) :
    decRest s = if s.outCap.toNat < totalWeight ft then failCodec .capacity (treed ft s)
      else (decPayload (totalWeight ft) s.outBase.toNat (treed ft s)).bind fun _ t =>
        .ok () (decResult (totalWeight ft) s.br.pos t) := by
  subst hft
  have he : s.ft.isEmpty = false := by simpa using hne
  simp only [decRest, tbBuildBody, he, Bool.false_eq_true, if_false, Res.bind_ok, treed]

/-- The state in which DEC starts on the payload (44 R483). -/
def atPayload (ft : List FtEntry) (s : State) : State :=
  treed ft (pairsRead ft (consumed 8 (decStart s)))

@[simp] theorem header_outCap (ft s) : (pairsRead ft (consumed 8 (decStart s))).outCap = s.outCap := by
  simp [pairsRead, consumed, decStart, clearTable, invalidate]

@[simp] theorem header_outBase (ft s) : (pairsRead ft (consumed 8 (decStart s))).outBase = s.outBase := by
  simp [pairsRead, consumed, decStart, clearTable, invalidate]

@[simp] theorem atPayload_br (ft s) : (atPayload ft s).br = (pairsRead ft (consumed 8 (decStart s))).br := by
  simp [atPayload, treed]

@[simp] theorem atPayload_dmemSize (ft s) : (atPayload ft s).dmemSize = s.dmemSize := by
  simp [atPayload, treed, pairsRead, consumed, decStart, clearTable, invalidate]

@[simp] theorem header_dmemSize (ft s) : (pairsRead ft (consumed 8 (decStart s))).dmemSize = s.dmemSize := by
  simp [pairsRead, consumed, decStart, clearTable, invalidate]

theorem atPayload_dmem (ft s) : (atPayload ft s).dmem = (pairsRead ft (consumed 8 (decStart s))).dmem := by
  simp [atPayload, treed]

@[simp] theorem atPayload_dmem_eq (ft s) : (atPayload ft s).dmem = s.dmem := by
  simp [atPayload, treed, pairsRead, consumed, decStart, clearTable, invalidate]

@[simp] theorem atPayload_tree (ft s) : (atPayload ft s).tree = buildTree ft := by
  simp [atPayload, treed]

theorem atPayload_inBuffer (ft s) : inReaderBuffer (atPayload ft s).br = fun a => decide (s.inBase.toNat ≤ a ∧
    a < s.inBase.toNat + s.inLen.toNat) := by
  funext a
  simp [inReaderBuffer, atPayload, treed, pairsRead, consumed, decStart, freshReader]

/-- DEC of a whole header: what is left to do (44 R481 to R484). -/
theorem decBody_header (s : State) (h : codecRanges s) (ft : List FtEntry) (hne : ft ≠ []) (hl : ft.length ≤ 255)
    (hn : (ft.map FtEntry.sym).Nodup) (r : Bits) (hb : inputBits s = headerBits ft ++ r) :
    decBody s = (if s.outCap.toNat < totalWeight ft then failCodec .capacity (atPayload ft s)
      else (decPayload (totalWeight ft) s.outBase.toNat (atPayload ft s)).bind fun _ t =>
        .ok () (decResult (totalWeight ft) (8 + 64 * ft.length) t)) ∧
    Fresh (atPayload ft s) ∧ restBits (atPayload ft s) = r := by
  obtain ⟨h1, h2, h3⟩ := decHeader_prefix s h ft.length hl ft 0 rfl hn r hb
  refine ⟨?_, h2.congr (atPayload_br ft s) (by simp), (restBits_congr (atPayload_br ft s)
      (atPayload_dmem ft s)).trans h3⟩
  rw [decBody_ranges s h, h1]
  simp only [decPairs, Res.bind_ok]
  rw [decRest_ok _ ft (by simp [pairsRead, consumed, decStart, clearTable, invalidate]) hne]
  have hpos : (pairsRead ft (consumed 8 (decStart s))).br.pos = 8 + 64 * ft.length := by
    simp [pairsRead, consumed, decStart, freshReader]
  have hu1 : (pairsRead ft (consumed 8 (decStart s))).outCap = s.outCap := by simp
  have hu2 : (pairsRead ft (consumed 8 (decStart s))).outBase = s.outBase := by simp
  rw [hpos, hu1, hu2]
  rfl

/-- The derived codes lead to their leaves, and every symbol of the table has one (41 R301, R302). -/
theorem codes_facts (ft : List FtEntry) (hne : ft ≠ []) (hn : (ft.map FtEntry.sym).Nodup) (codes : Codes)
    (hc : deriveCodes (buildTree ft) = .ok codes) :
    (∀ c p, codeOf codes c = some p → leadsTo (buildTree ft) p c ∧ p.length < (buildTree ft).nodes.length) ∧
    (∀ c, (∃ e ∈ ft, e.sym = c) → codeOf codes c ≠ none) := by
  have ht := treeOf_buildTree ft hne hn
  obtain ⟨codes', hc', hl⟩ := deriveCodes_spec ht hn
  rw [hc] at hc'
  cases hc'
  refine ⟨fun c p hp => ?_, fun c hc => ?_⟩
  · have := (hl c p).1 hp
    refine ⟨this, ?_⟩
    obtain ⟨l, w, hf, -⟩ := this
    have := ht.follow_le hf
    have := ht.nodesPos
    omega
  · obtain ⟨p, hp⟩ := (leadsTo_iff_mem ht c).2 (by simpa using hc)
    have := (hl c p).2 hp
    rw [this]; simp

theorem out_disjoint (s : State) (h : codecRanges s) (n : Nat) (hn : n ≤ s.outCap.toNat) (ft : List FtEntry) :
    ∀ x, s.outBase.toNat ≤ x → x < s.outBase.toNat + n → inReaderBuffer (atPayload ft s).br x = false := by
  intro x h1 h2
  have := h.2.2
  rw [atPayload_inBuffer]
  simp only [decide_eq_false_iff_not]
  omega

theorem decoded_state (ft : List FtEntry) (out : List Byte) (bits : Nat) (s : State) (hm : DmemOk s)
    (ol r0 r1 r2 : Word) :
    Decoded ft (8 + 64 * ft.length + bits) out s { symbolsOut bits s.outBase.toNat out (atPayload ft s) with
        outLen := ol, result0 := r0, result1 := r1, result2 := r2 } := by
  refine ⟨?_, fun k hk => ?_, fun a ha => ?_⟩
  · simp [symbolsOut, atPayload, treed, pairsRead, consumed, decStart, clearTable, invalidate, latchedAt, freshReader]
  · have := Memory.read_writeAll_same s.dmem s.outBase.toNat out hm.canonical _ hk
    simpa [symbolsOut] using this
  · have := Memory.read_writeAll_other s.dmem s.outBase.toNat out a ha
    simpa [symbolsOut] using this

theorem words_of_35 (n : Nat) (h : n < 2 ^ 35) : (lowWord n).toNat + 2 ^ 32 * (highWord35 n).toNat = n := by
  simp only [lowWord, highWord35, slice, BitVec.toNat_ofNat]
  omega

theorem prefix_of_getD (p l : Bits) (hl : p.length ≤ l.length) (h : ∀ i,
    i < p.length → l.getD i false = p.getD i false) :
    p <+: l := by
  rw [List.prefix_iff_eq_take]
  refine List.ext_getElem (by simp; omega) fun i h1 h2 => ?_
  have := h i h1
  rw [List.getD_eq_getElem _ _ h1, List.getD_eq_getElem _ _ (by omega)] at this
  rw [List.getElem_take, this]

/-- A copy of a container starts with its header and payload. -/
theorem container_prefix (s t u : State) (codes : Codes) (henc : Encoded codes s t) (hu : u.inLen = t.outLen)
    (hb : ∀ k, k < t.outLen.toNat →
      Memory.read u.dmem (u.inBase.toNat + k) = Memory.read t.dmem (s.outBase.toNat + k)) :
    headerBits (countBytes (inputBytes s)) ++ payloadSeq codes (inputBytes s) <+: inputBits u := by
  have hlen := henc.length
  have hh := headerBits_length (countBytes (inputBytes s))
  simp only [containerLen, ceilDiv] at hlen
  refine prefix_of_getD _ _ ?_ fun i hi => ?_
  · simp only [List.length_append, inputBits, List.length_map, List.length_range, hu]
    omega
  · rw [List.length_append] at hi
    have hi' : i < 8 * t.outLen.toNat := by omega
    rw [← henc.container i hi']
    simp only [inputBits, List.getD_eq_getElem?_getD, hu]
    rw [List.getElem?_map, List.getElem?_range hi']
    simp only [Option.map_some, Option.getD_some, dmemBit]
    rw [hb _ (by omega)]

theorem countBytes_snoc (l : List Byte) (c : Byte) : countBytes (l ++ [c]) = countByte (countBytes l) c := by
  simp [countBytes]

/-- The entries stand in the order in which their symbols first occur (44 R461). -/
theorem countBytes_order (l : List Byte) :
    ((countBytes l).map fun e => l.idxOf e.sym).Pairwise (· < ·) := by
  have key : ∀ l : List Byte, (((countBytes l).map FtEntry.sym).map fun c => l.idxOf c).Pairwise (· < ·) := by
    intro l
    induction l using List.reverseRecOn with
    | nil => simp [countBytes]
    | append_singleton l c ih =>
      have hsame : ∀ d ∈ (countBytes l).map FtEntry.sym, (l ++ [c]).idxOf d = l.idxOf d := by
        intro d hd
        rw [mem_countBytes_syms] at hd
        exact List.idxOf_append_of_mem hd
      rw [countBytes_snoc, countByte_syms]
      split_ifs with hc
      · rw [List.map_congr_left hsame]; exact ih
      · rw [List.map_append, List.map_congr_left hsame, List.pairwise_append]
        refine ⟨ih, by simp, fun x hx y hy => ?_⟩
        rw [List.mem_map] at hx
        obtain ⟨d, hd, rfl⟩ := hx
        rw [mem_countBytes_syms] at hd hc
        simp only [List.map_cons, List.map_nil, List.mem_singleton] at hy
        rw [hy, List.idxOf_append_of_notMem hc]
        simpa using List.idxOf_lt_length_of_mem hd
  have := key l
  rw [List.map_map] at this
  exact this

theorem weighted_single (ft : List FtEntry) (hn : (ft.map FtEntry.sym).Nodup) (e : FtEntry) (he : e ∈ ft) :
    weighted (fun d => if d = e.sym then 1 else 0) ft = e.w.toNat := by
  induction ft with
  | nil => cases he
  | cons f ft ih =>
    rw [List.map_cons, List.nodup_cons] at hn
    have hzero : ∀ ft : List FtEntry, e.sym ∉ ft.map FtEntry.sym → weighted (fun d => if d = e.sym then 1 else 0) ft = 0 := by
      intro ft
      induction ft with
      | nil => simp [weighted]
      | cons g ft ih =>
        intro hg
        simp only [List.map_cons, List.mem_cons, not_or] at hg
        have := ih hg.2
        simp only [weighted] at this
        simp only [weighted, List.map_cons, List.sum_cons]
        rw [this, if_neg (Ne.symm hg.1)]
        rfl
    rcases List.mem_cons.1 he with rfl | he'
    · have := hzero ft hn.1
      simp only [weighted] at this
      simp only [weighted, List.map_cons, List.sum_cons]
      rw [this]
      simp
    · have := ih hn.2 he'
      have hne : f.sym ≠ e.sym := fun h => hn.1 (h ▸ List.mem_map_of_mem he')
      simp only [weighted] at this
      simp only [weighted, List.map_cons, List.sum_cons, this, if_neg hne]
      simp

theorem countBytes_weight (l : List Byte) (h : l.length < 2 ^ 32) (e : FtEntry) (he : e ∈ countBytes l) :
    e.w.toNat = l.count e.sym := by
  rw [← weighted_single _ (countBytes_nodup l) e he, weighted_countBytes _ _ h]
  clear he h
  induction l with
  | nil => rfl
  | cons d l ih =>
    rw [List.map_cons, List.sum_cons, ih, List.count_cons]
    by_cases hd : d = e.sym <;> simp [hd, Nat.add_comm]

end Sys2Proof.Machine
end

