-- ==== Sys2Proof/Laws/Encoding.lean ====
section
/-! SUPPORT. The fields of an assembled command word (spec/30_encoding.md R200, R201, R220). -/

namespace Sys2Proof

/-- An assembled word, bit by bit: OPC, WIDTH, BIT, 0, SYM, 0 from bit 0 up (30 R201, R220). -/
theorem assembleWord_getLsbD (opc : BitVec 8) (sym : Byte) (bit : Bool) (width : BitVec 6) (i : Nat) :
    (assembleWord opc sym bit width).getLsbD i =
      if i < 8 then opc.getLsbD i else if i < 14 then width.getLsbD (i - 8) else if i < 15 then decide (i = 14) && bit
      else if i < 16 then false else sym.getLsbD (i - 16) := by
  have h (n m : Nat) (x : BitVec n) (y : BitVec m) (j : Nat) :
      BitVec.getLsbD (w := n + m) (x ++ y) j = if j < m then y.getLsbD j else x.getLsbD (j - m) := by
    rw [BitVec.getLsbD_append]
  refine (h 24 8 _ opc i).trans ?_
  split_ifs with h1 <;> try rfl
  all_goals
    refine (h 18 6 _ width (i - 8)).trans ?_
  · rw [if_pos (by omega)]
  all_goals
    rw [if_neg (by omega)]
    refine (h 17 1 _ (BitVec.ofBool bit) _).trans ?_
  · rw [if_pos (by omega)]
    have : i = 14 := by omega
    subst this; simp
  all_goals
    rw [if_neg (by omega)]
    refine (h 16 1 _ 0#1 _).trans ?_
  · rw [if_pos (by omega)]; simp
  · rw [if_neg (by omega)]
    refine (h 8 8 0#8 sym _).trans ?_
    have : i - 8 - 6 - 1 - 1 = i - 16 := by omega
    rw [this]
    split_ifs
    · rfl
    · rw [BitVec.getLsbD_of_ge _ (i-16) (by omega)]; simp

/-- An assembled word has its fields where 30 R201 puts them. -/
theorem assembleWord_fields (opc : BitVec 8) (sym : Byte) (bit : Bool) (width : BitVec 6) :
    opcField (assembleWord opc sym bit width) = opc ∧ symField (assembleWord opc sym bit width) = sym ∧
      bitField (assembleWord opc sym bit width) = bit ∧ widthField (assembleWord opc sym bit width) = width := by
  refine ⟨?_, ?_, ?_, ?_⟩
  · refine BitVec.eq_of_getLsbD_eq fun i hi => ?_
    simp only [opcField, BitVec.getLsbD_extractLsb', assembleWord_getLsbD]
    rw [if_pos (by omega)]; simp [hi]
  · refine BitVec.eq_of_getLsbD_eq fun i hi => ?_
    simp only [symField, BitVec.getLsbD_extractLsb', assembleWord_getLsbD]
    rw [if_neg (by omega), if_neg (by omega), if_neg (by omega), if_neg (by omega)]; simp [hi]
  · rw [bitField, assembleWord_getLsbD]
    simp
  · refine BitVec.eq_of_getLsbD_eq fun i hi => ?_
    simp only [widthField, BitVec.getLsbD_extractLsb', assembleWord_getLsbD]
    rw [if_neg (by omega), if_pos (by omega)]; simp [hi]

/-- Masking an assembled word, bit by bit. -/
theorem assembleWord_and (opc : BitVec 8) (sym : Byte) (bit : Bool) (width : BitVec 6) (m r : Word)
    (h : ∀ i, i < 32 → (m.getLsbD i && (assembleWord opc sym bit width).getLsbD i) = r.getLsbD i) :
    assembleWord opc sym bit width &&& m = r := by
  refine BitVec.eq_of_getLsbD_eq fun i hi => ?_
  rw [BitVec.getLsbD_and, Bool.and_comm]
  exact h i hi
/-- An assembled word has zeros in the reserved fields (30 R200). -/
theorem assembleWord_reserved (opc : BitVec 8) (sym : Byte) (bit : Bool) (width : BitVec 6) :
   assembleWord opc sym bit width &&& 0xFF008000#32 = 0#32 := by
  refine assembleWord_and _ _ _ _ _ _ fun i hi => ?_
  rw [assembleWord_getLsbD]
  interval_cases i <;> simp

end Sys2Proof
end

