-- ==== Sys2Proof/Laws/PerInstr.lean ====
section
/-! SUPPORT. Families of lemmas with one lemma per instruction. `EncodeFields`: the assembled word of an instruction has
zeros in the reserved fields and in the fields the command does not use (spec/30_encoding.md R200, R210, R220), and its
opcode is the one of the map. -/

namespace Sys2Proof.Laws.EncodeFields

/-- The opcode of an instruction, by the map of 30 R210. -/
def opcode : Instr → BitVec 8
  | .nop => 0x00#8
  | .ftClear => 0x10#8
  | .ftAdd _ => 0x11#8
  | .ftGet => 0x12#8
  | .tbBuild => 0x13#8
  | .tbNode => 0x14#8
  | .ctDerive => 0x20#8
  | .ctLookup _ => 0x21#8
  | .bpInit => 0x30#8
  | .bpAppendBit _ => 0x31#8
  | .bpAppendSeq => 0x32#8
  | .bpAppendFixed _ => 0x33#8
  | .bpAppendCode _ => 0x34#8
  | .bpFinish => 0x35#8
  | .brInit => 0x40#8
  | .brReadBit => 0x41#8
  | .brReadFixed _ => 0x42#8
  | .brRemaining => 0x43#8
  | .brPosition => 0x44#8
  | .enc => 0x50#8
  | .dec => 0x51#8

/-- The reserved fields and the unused fields of the word are 0, and OPC is the instruction's opcode. -/
def Statement (i : Instr) : Prop :=
  encode i &&& 0xFF008000#32 = 0#32 ∧ encode i &&& usedMask i = encode i ∧ opcField (encode i) = opcode i

/-- A word without operands. -/
theorem plain (opc : BitVec 8) : assembleWord opc 0#8 false 0#6 &&& 0xFF008000#32 = 0#32 ∧
    assembleWord opc 0#8 false 0#6 &&& 0xFF0080FF#32 = assembleWord opc 0#8 false 0#6 ∧
    opcField (assembleWord opc 0#8 false 0#6) = opc := by
  refine ⟨assembleWord_reserved _ _ _ _, assembleWord_and _ _ _ _ _ _ fun i hi => ?_, (assembleWord_fields _ _ _ _).1⟩
  rw [assembleWord_getLsbD]
  interval_cases i <;> simp

/-- A word with a symbol. -/
theorem symbol (opc : BitVec 8) (sym : Byte) : assembleWord opc sym false 0#6 &&& 0xFF008000#32 = 0#32 ∧
    assembleWord opc sym false 0#6 &&& 0xFFFF80FF#32 = assembleWord opc sym false 0#6 ∧
    opcField (assembleWord opc sym false 0#6) = opc := by
  refine ⟨assembleWord_reserved _ _ _ _, assembleWord_and _ _ _ _ _ _ fun i hi => ?_, (assembleWord_fields _ _ _ _).1⟩
  rw [assembleWord_getLsbD]
  interval_cases i <;> simp

/-- A word with a bit. -/
theorem bit (opc : BitVec 8) (b : Bool) : assembleWord opc 0#8 b 0#6 &&& 0xFF008000#32 = 0#32 ∧
    assembleWord opc 0#8 b 0#6 &&& 0xFF00C0FF#32 = assembleWord opc 0#8 b 0#6 ∧
    opcField (assembleWord opc 0#8 b 0#6) = opc := by
  refine ⟨assembleWord_reserved _ _ _ _, assembleWord_and _ _ _ _ _ _ fun i hi => ?_, (assembleWord_fields _ _ _ _).1⟩
  rw [assembleWord_getLsbD]
  interval_cases i <;> simp

/-- A word with a width. -/
theorem width (opc : BitVec 8) (w : BitVec 6) : assembleWord opc 0#8 false w &&& 0xFF008000#32 = 0#32 ∧
    assembleWord opc 0#8 false w &&& 0xFF00BFFF#32 = assembleWord opc 0#8 false w ∧
    opcField (assembleWord opc 0#8 false w) = opc := by
  refine ⟨assembleWord_reserved _ _ _ _, assembleWord_and _ _ _ _ _ _ fun i hi => ?_, (assembleWord_fields _ _ _ _).1⟩
  rw [assembleWord_getLsbD]
  interval_cases i <;> simp

theorem nop : Statement .nop := plain _

theorem ftClear : Statement .ftClear := plain _

theorem ftAdd (c : Byte) : Statement (.ftAdd c) := symbol _ c

theorem ftGet : Statement .ftGet := plain _

theorem tbBuild : Statement .tbBuild := plain _

theorem tbNode : Statement .tbNode := plain _

theorem ctDerive : Statement .ctDerive := plain _

theorem ctLookup (c : Byte) : Statement (.ctLookup c) := symbol _ c

theorem bpInit : Statement .bpInit := plain _

theorem bpAppendBit (b : Bool) : Statement (.bpAppendBit b) := bit _ b

theorem bpAppendSeq : Statement .bpAppendSeq := plain _

theorem bpAppendFixed (w : BitVec 6) : Statement (.bpAppendFixed w) := width _ w

theorem bpAppendCode (c : Byte) : Statement (.bpAppendCode c) := symbol _ c

theorem bpFinish : Statement .bpFinish := plain _

theorem brInit : Statement .brInit := plain _

theorem brReadBit : Statement .brReadBit := plain _

theorem brReadFixed (w : BitVec 6) : Statement (.brReadFixed w) := width _ w

theorem brRemaining : Statement .brRemaining := plain _

theorem brPosition : Statement .brPosition := plain _

theorem enc : Statement .enc := plain _

theorem dec : Statement .dec := plain _

end Sys2Proof.Laws.EncodeFields
end

