-- ==== Sys2Proof/Laws/Shape.lean ====
section
/-! SUPPORT. How each part of a command can end and what it leaves alone, on any state: a value, an outcome
code raised, or a fault. -/

namespace Sys2Proof.Machine

/-- What the packer's operations leave alone. -/
structure PackFrame (s t : State) : Prop where
  rest : t = { s with bp := t.bp, dmem := t.dmem, br := { s.br with changed := t.br.changed } }
  active : t.bp.active = s.bp.active

theorem PackFrame.refl (s : State) : PackFrame s s := ⟨rfl, rfl⟩

theorem PackFrame.trans {s t u : State} (h : PackFrame s t) (h' : PackFrame t u) : PackFrame s u :=
  ⟨by rw [h'.rest, h.rest], h'.active.trans h.active⟩

theorem memWrite_shape (a : Nat) (v : Byte) (s : State) :
    memWrite a v s = .ok () (storeByte a v s) ∨ ∃ f, memWrite a v s = .fault f := by
  unfold memWrite; split_ifs
  · exact .inl rfl
  · exact .inr ⟨_, rfl⟩

theorem flushByte_shape (v : Byte) (s : State) :
    flushByte v s = .ok () { storeByte (packerAddr s) v s with bp := nextByte s.bp } ∨ ∃ f,
        flushByte v s = .fault f := by
  unfold flushByte
  rcases memWrite_shape (packerAddr s) v s with h | ⟨f, h⟩
  · rw [h]; exact .inl rfl
  · rw [h]; exact .inr ⟨f, rfl⟩

theorem putBit_shape (b : Bool) (s : State) : (∃ t, putBit b s = .ok () t ∧ PackFrame s t) ∨ ∃ f,
    putBit b s = .fault f := by
  unfold putBit
  split_ifs
  · rcases flushByte_shape (setByteBit s.bp.cur (7 - s.bp.cursor.val) b) s with h | ⟨f, h⟩
    · exact .inl ⟨_, h, rfl, rfl⟩
    · exact .inr ⟨f, h⟩
  · exact .inl ⟨_, rfl, rfl, rfl⟩

theorem putBits_shape (q : Bits) (s : State) : (∃ t, putBits q s = .ok () t ∧ PackFrame s t) ∨ ∃ f,
    putBits q s = .fault f := by
  induction q generalizing s with
  | nil => exact .inl ⟨s, rfl, PackFrame.refl s⟩
  | cons b q ih =>
    simp only [putBits]
    rcases putBit_shape b s with ⟨t, h, hf⟩ | ⟨f, h⟩
    · rw [h, Res.bind_ok]
      rcases ih t with ⟨u, h', hf'⟩ | ⟨f, h'⟩
      · exact .inl ⟨u, h', hf.trans hf'⟩
      · exact .inr ⟨f, h'⟩
    · rw [h]; exact .inr ⟨f, rfl⟩

theorem appendSeq_shape (q : Bits) (s : State) : (∃ t, appendSeq q s = .ok () t ∧ PackFrame s t) ∨
    appendSeq q s = .raise .capacity s ∨ ∃ f, appendSeq q s = .fault f := by
  unfold appendSeq; split_ifs
  · rcases putBits_shape q s with h | h
    · exact .inl h
    · exact .inr (.inr h)
  · exact .inr (.inl rfl)

/-- What finishing the packer leaves alone. -/
structure FinishFrame (s t : State) : Prop where
  rest : t = { s with bp := t.bp, dmem := t.dmem, outLen := t.outLen, br := { s.br with changed := t.br.changed } }
  inactive : t.bp.active = false

theorem bpFinish_shape (s : State) : (s.bp.active = true ∧ ∃ t, bpFinishBody s = .ok () t ∧ FinishFrame s t) ∨
    (s.bp.active = false ∧ bpFinishBody s = .raise .stateError s) ∨ ∃ f, bpFinishBody s = .fault f := by
  unfold bpFinishBody; split_ifs with h h1
  · rcases flushByte_shape s.bp.cur s with h' | ⟨f, h'⟩
    · rw [h']; exact .inl ⟨h, _, rfl, rfl, rfl⟩
    · rw [h']; exact .inr (.inr ⟨f, rfl⟩)
  · exact .inl ⟨h, _, rfl, rfl, rfl⟩
  · exact .inr (.inl ⟨by simpa using h, rfl⟩)

theorem readBytes_shape (n a : Nat) (s : State) : (∃ l, readBytes a n s = .ok l s) ∨ ∃ f,
    readBytes a n s = .fault f := by
  induction n generalizing a with
  | zero => exact .inl ⟨_, rfl⟩
  | succ n ih =>
    simp only [readBytes, memRead]
    split_ifs
    · rw [Res.bind_ok]
      rcases ih (a+1) with ⟨l, h⟩ | ⟨f, h⟩
      · rw [h]; exact .inl ⟨_, rfl⟩
      · rw [h]; exact .inr ⟨f, rfl⟩
    · exact .inr ⟨_, rfl⟩

theorem encWrite_shape (p : Nat) (s : State) :
    (∃ t, encWrite p s = .ok () (setResults (lowWord p) (highWord40 p) 0 t) ∧ FinishFrame s t) ∨ ∃ f,
        encWrite p s = .fault f := by
  unfold encWrite
  rcases putBits_shape (headerBits s.ft) { s with bp := freshPacker s.outBase s.outCap } with ⟨t1, h1, f1⟩ | ⟨f, h⟩
  swap
  · rw [h]; exact .inr ⟨f, rfl⟩
  rw [h1, Res.bind_ok]
  rcases readBytes_shape t1.inLen.toNat t1.inBase.toNat t1 with ⟨l, h2⟩ | ⟨f, h2⟩
  swap
  · rw [h2]; exact .inr ⟨f, rfl⟩
  rw [h2, Res.bind_ok]
  rcases putBits_shape (payloadSeq t1.ct.codes l) t1 with ⟨t2, h3, f2⟩ | ⟨f, h⟩
  swap
  · rw [h]; exact .inr ⟨f, rfl⟩
  rw [h3, Res.bind_ok]
  rcases bpFinish_shape t2 with ⟨-, t3, h4, f3⟩ | ⟨h, -⟩ | ⟨f, h⟩
  · rw [h4, Res.bind_ok]
    refine .inl ⟨t3, rfl, ?_, f3.inactive⟩
    rw [f3.rest, f2.rest, f1.rest]
  · exact absurd (f2.active.trans f1.active) (by rw [h]; simp [freshPacker])
  · rw [h]; exact .inr ⟨f, rfl⟩

/-- How ENC ends, on any state. -/
theorem enc_shape (s : State) :
    (encBody s = .raise .address s) ∨
    (encBody s = .raise .invalidInput { clearTable s with outLen := 0 }) ∨
    (∃ ft codes e, (e = .range ∨ e = .capacity) ∧ encBody s = .raise e { s with ft := ft, tree := buildTree ft, ct := ⟨true, codes⟩, outLen := 0 }) ∨
    (∃ ft codes p t, encBody s = .ok () (setResults (lowWord p) (highWord40 p) 0 t) ∧
      FinishFrame { s with ft := ft, tree := buildTree ft, ct := ⟨true, codes⟩ } t) ∨
    ∃ f, encBody s = .fault f := by
  unfold encBody
  split_ifs
  · exact .inl rfl
  rcases readBytes_shape s.inLen.toNat s.inBase.toNat (clearTable s) with ⟨l, h⟩ | ⟨f, h⟩
  swap
  · rw [h]; exact .inr (.inr (.inr (.inr ⟨f, rfl⟩)))
  rw [h, Res.bind_ok]
  simp only
  split_ifs with h0
  · refine .inr (.inl ?_)
    have : countBytes l = [] := by simpa using h0
    rw [this]
    rfl
  · have hb : tbBuildBody { clearTable s with ft := countBytes l } = .ok ()
        { clearTable s with ft := countBytes l, tree := buildTree (countBytes l), ct := { (clearTable s).ct with valid := false } } := by
      simp only [tbBuildBody]
      rw [if_neg h0]
    rw [hb, Res.bind_ok]
    unfold ctDeriveBody
    simp only
    rw [if_pos (show (buildTree (countBytes l)).valid = true from rfl)]
    cases hd : deriveCodes (buildTree (countBytes l)) with
    | error f => exact .inr (.inr (.inr (.inr ⟨f, rfl⟩)))
    | ok codes =>
      simp only [Res.bind_ok]
      unfold encChecked
      simp only
      split_ifs
      · exact .inr (.inr (.inl ⟨countBytes l, codes, _, .inl rfl, rfl⟩))
      · exact .inr (.inr (.inl ⟨countBytes l, codes, _, .inr rfl, rfl⟩))
      · rcases encWrite_shape (payloadBits (countBytes l) codes)
            { clearTable s with ft := countBytes l, tree := buildTree (countBytes l), ct := { valid := true, codes := codes } } with ⟨t, h, hf⟩ | ⟨f, h⟩
        · exact .inr (.inr (.inr (.inl ⟨countBytes l, codes, _, t, h, hf⟩)))
        · exact .inr (.inr (.inr (.inr ⟨f, h⟩)))

/-- What the parts of DEC leave alone. -/
structure DecFrame (s t : State) : Prop where
  rest : t = { s with ft := t.ft, br := t.br, dmem := t.dmem, draws := t.draws }
  active : t.br.active = s.br.active

theorem DecFrame.refl (s : State) : DecFrame s s := ⟨rfl, rfl⟩

theorem DecFrame.trans {s t u : State} (h : DecFrame s t) (h' : DecFrame t u) : DecFrame s u :=
  ⟨by rw [h'.rest, h.rest], h'.active.trans h.active⟩

/-- What reading bits leaves alone. -/
structure ReadFrame (s t : State) : Prop where
  rest : t = { s with br := { s.br with pos := t.br.pos }, draws := t.draws }

theorem ReadFrame.refl (s : State) : ReadFrame s s := ⟨rfl⟩

theorem ReadFrame.trans {s t u : State} (h : ReadFrame s t) (h' : ReadFrame t u) : ReadFrame s u :=
    ⟨by rw [h'.rest, h.rest]⟩

theorem ReadFrame.dec {s t : State} (h : ReadFrame s t) : DecFrame s t := ⟨by rw [h.rest], by rw [h.rest]⟩

theorem getBit_shape (s : State) : (∃ b t, getBit s = .ok b t ∧ ReadFrame s t) ∨ ∃ f, getBit s = .fault f := by
  unfold getBit readerByte memRead
  split_ifs
  · rw [Res.bind_ok]
    split_ifs
    · exact .inl ⟨_, _, rfl, ⟨rfl⟩⟩
    · exact .inl ⟨_, _, rfl, ⟨rfl⟩⟩
  · exact .inr ⟨_, rfl⟩

theorem readFixedFrom_shape (w v : Nat) (s : State) : (∃ b t, readFixedFrom w v s = .ok b t ∧ ReadFrame s t) ∨
    ∃ f, readFixedFrom w v s = .fault f := by
  induction w generalizing v s with
  | zero => exact .inl ⟨_, _, rfl, ReadFrame.refl s⟩
  | succ w ih =>
    simp only [readFixedFrom]
    rcases getBit_shape s with ⟨b, t, h, hf⟩ | ⟨f, h⟩
    · rw [h, Res.bind_ok]
      rcases ih (2 * v + b.toNat) t with ⟨b', u, h', hf'⟩ | ⟨f, h'⟩
      · exact .inl ⟨_, u, h', hf.trans hf'⟩
      · exact .inr ⟨f, h'⟩
    · rw [h]; exact .inr ⟨f, rfl⟩

theorem readFixed_shape (w : Nat) (s : State) : (∃ b t, readFixed w s = .ok b t ∧ ReadFrame s t) ∨ ∃ f,
    readFixed w s = .fault f :=
  readFixedFrom_shape w 0 s

theorem decPairs_shape (n : Nat) (s : State) :
    (∃ t, decPairs n s = .ok () t ∧ DecFrame s t ∧ t.dmem = s.dmem) ∨
    (∃ e t, (e = .corruptHeader ∨ e = .range) ∧ decPairs n s = .raise e { t with outLen := 0 } ∧ DecFrame s t ∧
        t.dmem = s.dmem) ∨ ∃ f, decPairs n s = .fault f := by
  induction n generalizing s with
  | zero => exact .inl ⟨s, rfl, DecFrame.refl s, rfl⟩
  | succ n ih =>
    unfold decPairs
    split_ifs
    · exact .inr (.inl ⟨_, s, .inl rfl, rfl, DecFrame.refl s, rfl⟩)
    rcases readFixed_shape 32 s with ⟨v, t, h, hf⟩ | ⟨f, h⟩
    swap
    · rw [h]; exact .inr (.inr ⟨f, rfl⟩)
    have hd1 : t.dmem = s.dmem := by rw [hf.rest]
    rw [h, Res.bind_ok]
    split_ifs
    · exact .inr (.inl ⟨_, t, .inr rfl, rfl, hf.dec, hd1⟩)
    · exact .inr (.inl ⟨_, t, .inl rfl, rfl, hf.dec, hd1⟩)
    · exact .inr (.inl ⟨_, t, .inl rfl, rfl, hf.dec, hd1⟩)
    rcases readFixed_shape 32 t with ⟨v', u, h', hf'⟩ | ⟨f, h'⟩
    swap
    · rw [h']; exact .inr (.inr ⟨f, rfl⟩)
    rw [h', Res.bind_ok]
    have hd2 : u.dmem = s.dmem := by rw [hf'.rest]; exact hd1
    have key : DecFrame s { u with ft := u.ft ++ [{ sym := BitVec.ofNat 8 v, w := BitVec.ofNat 32 v' }] } := by
      refine (hf.dec.trans hf'.dec).trans ⟨rfl, rfl⟩
    rcases ih { u with ft := u.ft ++ [{ sym := BitVec.ofNat 8 v, w := BitVec.ofNat 32 v' }] } with ⟨x, hx, fx,
        dx⟩ | ⟨e, x, he, hx, fx, dx⟩ | ⟨f, hx⟩
    · exact .inl ⟨x, hx, key.trans fx, dx.trans hd2⟩
    · exact .inr (.inl ⟨e, x, he, hx, key.trans fx, dx.trans hd2⟩)
    · exact .inr (.inr ⟨f, hx⟩)

theorem decHeader_shape (s : State) :
    (∃ t, decHeader s = .ok () t ∧ DecFrame s t ∧ t.dmem = s.dmem) ∨
    (∃ e t, (e = .corruptHeader ∨ e = .range) ∧ decHeader s = .raise e { t with outLen := 0 } ∧ DecFrame s t ∧
        t.dmem = s.dmem) ∨ ∃ f, decHeader s = .fault f := by
  unfold decHeader
  split_ifs
  · exact .inr (.inl ⟨_, s, .inl rfl, rfl, DecFrame.refl s, rfl⟩)
  rcases readFixed_shape 8 s with ⟨v, t, h, hf⟩ | ⟨f, h⟩
  swap
  · rw [h]; exact .inr (.inr ⟨f, rfl⟩)
  have hd1 : t.dmem = s.dmem := by rw [hf.rest]
  rw [h, Res.bind_ok]
  rcases decPairs_shape v t with ⟨x, hx, fx, dx⟩ | ⟨e, x, he, hx, fx, dx⟩ | ⟨f, hx⟩
  · exact .inl ⟨x, hx, hf.dec.trans fx, dx.trans hd1⟩
  · exact .inr (.inl ⟨e, x, he, hx, hf.dec.trans fx, dx.trans hd1⟩)
  · exact .inr (.inr ⟨f, hx⟩)

theorem decWalk_shape (d i : Nat) (s : State) :
    (∃ c t, decWalk d i s = .ok c t ∧ ReadFrame s t) ∨
    (∃ t, decWalk d i s = .raise .endOfStream { t with outLen := 0 } ∧ ReadFrame s t) ∨ ∃ f,
        decWalk d i s = .fault f := by
  induction d generalizing i s with
  | zero => exact .inr (.inr ⟨_, rfl⟩)
  | succ d ih =>
    unfold decWalk
    split
    · exact .inr (.inr ⟨_, rfl⟩)
    · exact .inl ⟨_, s, rfl, ReadFrame.refl s⟩
    · split_ifs
      · exact .inr (.inl ⟨s, rfl, ReadFrame.refl s⟩)
      · rcases getBit_shape s with ⟨b, t, h, hf⟩ | ⟨f, h⟩
        · rw [h, Res.bind_ok]
          rename_i z o w _ _
          rcases ih (if b then o.toNat else z.toNat) t with ⟨c, x, hx, fx⟩ | ⟨x, hx, fx⟩ | ⟨f, hx⟩
          · exact .inl ⟨c, x, hx, hf.trans fx⟩
          · exact .inr (.inl ⟨x, hx, hf.trans fx⟩)
          · exact .inr (.inr ⟨f, hx⟩)
        · rw [h]; exact .inr (.inr ⟨f, rfl⟩)

theorem decPayload_shape (n a : Nat) (s : State) :
    (∃ t, decPayload n a s = .ok () t ∧ DecFrame s t ∧ t.ft = s.ft) ∨
    (∃ t, decPayload n a s = .raise .endOfStream { t with outLen := 0 } ∧ DecFrame s t ∧ t.ft = s.ft) ∨ ∃ f,
        decPayload n a s = .fault f := by
  induction n generalizing a s with
  | zero => exact .inl ⟨s, rfl, DecFrame.refl s, rfl⟩
  | succ n ih =>
    unfold decPayload decSymbol
    rcases decWalk_shape s.tree.nodes.length s.tree.root s with ⟨c, x, hx, fx⟩ | ⟨x, hx, fx⟩ | ⟨f, hx⟩
    · rw [hx, Res.bind_ok]
      have hft : x.ft = s.ft := by rw [fx.rest]
      rcases memWrite_shape a c x with h | ⟨f, h⟩
      · rw [h, Res.bind_ok]
        have hs : DecFrame x (storeByte a c x) := ⟨rfl, rfl⟩
        rcases ih (a + 1) (storeByte a c x) with ⟨y, hy, fy, ey⟩ | ⟨y, hy, fy, ey⟩ | ⟨f, hy⟩
        · exact .inl ⟨y, hy, (fx.dec.trans hs).trans fy, ey.trans hft⟩
        · exact .inr (.inl ⟨y, hy, (fx.dec.trans hs).trans fy, ey.trans hft⟩)
        · exact .inr (.inr ⟨f, hy⟩)
      · rw [h]; exact .inr (.inr ⟨f, rfl⟩)
    · rw [hx]; exact .inr (.inl ⟨x, rfl, fx.dec, by rw [fx.rest]⟩)
    · rw [hx]; exact .inr (.inr ⟨f, rfl⟩)

/-- How DEC ends, on any state. -/
theorem dec_shape (s : State) :
    (decBody s = .raise .address s) ∨
    (∃ e t, (e = .corruptHeader ∨ e = .range ∨ e = .invalidInput) ∧ decBody s = .raise e { t with outLen := 0 } ∧
      DecFrame { clearTable s with br := freshReader s.inBase s.inLen } t ∧ t.dmem = s.dmem) ∨
    (∃ e ft t, (e = .capacity ∨ e = .endOfStream) ∧ decBody s = .raise e { t with outLen := 0 } ∧
      DecFrame { s with ft := ft, tree := buildTree ft, ct := { s.ct with valid := false }, br := freshReader s.inBase s.inLen } t ∧ t.ft = ft) ∨
    (∃ ft n h t, decBody s = .ok () (decResult n h t) ∧
      DecFrame { s with ft := ft, tree := buildTree ft, ct := { s.ct with valid := false }, br := freshReader s.inBase s.inLen } t ∧ t.ft = ft) ∨
    ∃ f, decBody s = .fault f := by
  unfold decBody
  split_ifs
  · exact .inl rfl
  rcases decHeader_shape { clearTable s with br := freshReader s.inBase s.inLen } with ⟨x, hx, fx, dx⟩ | ⟨e, x,
      he, hx, fx, dx⟩ | ⟨f, hx⟩
  · rw [hx, Res.bind_ok]
    unfold decRest
    split_ifs with h0
    · exact .inr (.inl ⟨_, x, .inr (.inr rfl), rfl, fx, dx⟩)
    · have hb : tbBuildBody x = .ok () { x with tree := buildTree x.ft, ct := { x.ct with valid := false } } := by
        simp only [tbBuildBody]
        rw [if_neg h0]
      rw [hb, Res.bind_ok]
      have key : DecFrame { s with ft := x.ft, tree := buildTree x.ft, ct := { s.ct with valid := false }, br := freshReader s.inBase s.inLen }
          { x with tree := buildTree x.ft, ct := { x.ct with valid := false } } := by
        refine ⟨?_, fx.active⟩
        have := fx.rest
        generalize x.br = b at *
        rw [this]
        rfl
      simp only
      split_ifs
      · exact .inr (.inr (.inl ⟨_, x.ft, _, .inl rfl, rfl, key, rfl⟩))
      · rcases decPayload_shape (totalWeight x.ft)
            x.outBase.toNat { x with tree := buildTree x.ft, ct := { x.ct with valid := false } } with ⟨y, hy,
                fy, ey⟩ | ⟨y, hy, fy, ey⟩ | ⟨f, hy⟩
        · rw [hy, Res.bind_ok]
          exact .inr (.inr (.inr (.inl ⟨x.ft, _, _, y, rfl, key.trans fy, ey⟩)))
        · rw [hy]
          exact .inr (.inr (.inl ⟨_, x.ft, y, .inr rfl, rfl, key.trans fy, ey⟩))
        · rw [hy]; exact .inr (.inr (.inr (.inr ⟨f, rfl⟩)))
  · rw [hx]
    refine .inr (.inl ⟨e, x, ?_, rfl, fx, dx⟩)
    rcases he with h | h
    · exact .inl h
    · exact .inr (.inl h)
  · rw [hx]; exact .inr (.inr (.inr (.inr ⟨f, rfl⟩)))

end Sys2Proof.Machine
end

