-- ==== Sys2Proof/Laws/Total.lean ====
section
/-! SUPPORT. What the parts of DEC leave of a good state whatever the input holds, and when the invariant
is kept. -/

namespace Sys2Proof.Machine

/-- Completion keeps the invariant. -/
theorem inv_completed {u : State} (e : ErrCode) (h1 : DmemOk u) (h2 : FtOk u) (h3 : TreeOk u) (h4 : CtOk u)
    (h5 : PackerOk u) (h6 : ReaderOk u) :
    Inv (completed e u) :=
  ⟨h1.congr rfl rfl, h2, h3, h4, h5.congr rfl rfl, h6.congr rfl rfl, fun h => by cases h⟩

theorem treeOk_false (s : State) (h : s.tree.valid = false) : TreeOk s := fun hv => by rw [h] at hv; cases hv

theorem ctOk_false (s : State) (h : s.ct.valid = false) : CtOk s := fun hv => by rw [h] at hv; cases hv

/-- A bit is left: it is read. -/
theorem getBit_total (s : State) (hf : Fresh s) (h : remaining s ≠ 0) : ∃ b, getBit s = .ok b (consumed 1 s) := by
  have := hf.reader.posLe
  simp only [remaining] at h
  rw [getBit_remaining s hf.reader (by omega), hf.unchanged, if_neg List.not_mem_nil]
  exact ⟨_, rfl⟩

theorem readFixed_total (w : Nat) (s : State) (hf : Fresh s) (h : w ≤ remaining s) : ∃ v, v < 2 ^ w ∧
    readFixed w s = .ok v (consumed w s) := by
  have := hf.reader.posLe
  simp only [remaining] at h
  rw [readFixed_unchanged w s hf.reader (by omega) (hf.unchangedBits _ _)]
  refine ⟨_, ?_, rfl⟩
  have := bitsToNat_lt (bufferSeq s s.br.pos w)
  simpa using this

/-- The entries of a header, whatever the bits are: a table of distinct symbols, or an error. -/
theorem decPairs_total (n : Nat) (s : State) (hf : Fresh s) (hd : FtOk s) :
    ∃ ft k, (ft.map FtEntry.sym).Nodup ∧ k ≤ remaining s ∧
      (decPairs n s = .ok () { consumed k s with ft := ft } ∨
        ∃ e, decPairs n s = .raise e { consumed k s with ft := ft, outLen := 0 }) := by
  induction n generalizing s with
  | zero => exact ⟨s.ft, 0, hd, Nat.zero_le _, .inl rfl⟩
  | succ n ih =>
    unfold decPairs
    split_ifs with h1
    · exact ⟨s.ft, 0, hd, Nat.zero_le _, .inr ⟨_, rfl⟩⟩
    obtain ⟨v, hv, h2⟩ := readFixed_total 32 s hf (by omega)
    rw [h2, Res.bind_ok]
    have hf1 := hf.consumed 32 (by omega)
    split_ifs with h3 h4 h5
    · exact ⟨s.ft, 32, hd, by omega, .inr ⟨_, rfl⟩⟩
    · exact ⟨s.ft, 32, hd, by omega, .inr ⟨_, rfl⟩⟩
    · exact ⟨s.ft, 32, hd, by omega, .inr ⟨_, rfl⟩⟩
    obtain ⟨v', hv', h6⟩ := readFixed_total 32 (consumed 32 s) hf1 (by omega)
    rw [h6, Res.bind_ok]
    have hrem : remaining (consumed 32 (consumed 32 s)) = remaining s - 64 := by
      rw [remaining_consumed, remaining_consumed]; omega
    rw [remaining_consumed] at h5
    have hf2 := hf1.consumed 32 (by rw [remaining_consumed]; omega)
    obtain ⟨ft, k, hn, hk, hh⟩ := ih { consumed 32 (consumed 32 s) with ft := (consumed 32 (consumed 32 s)).ft ++ [{ sym := BitVec.ofNat 8 v, w := BitVec.ofNat 32 v' }] }
      (hf2.congr rfl rfl) (by
        show ((s.ft ++ [_]).map FtEntry.sym).Nodup
        rw [List.map_append]
        refine nodup_append_singleton _ _ hd ?_
        have : ftHas s.ft (BitVec.ofNat 8 v) = false := by
          have h4' : ¬ftHas s.ft (BitVec.ofNat 8 v) = true := h4
          simpa using h4'
        rw [ftHas_eq_false_iff] at this
        exact this)
    have hk' : k ≤ remaining (consumed 32 (consumed 32 s)) := hk
    rw [hrem] at hk'
    refine ⟨ft, 64 + k, hn, by omega, ?_⟩
    rcases hh with hh | ⟨e, hh⟩
    · left; rw [hh]; simp only [consumed]; congr 2; simp; omega
    · right; refine ⟨e, ?_⟩; rw [hh]; simp only [consumed]; congr 2; simp; omega

/-- A header, whatever the bits are: a table of distinct symbols, or an error. -/
theorem decHeader_total (s : State) (hf : Fresh s) (hd : FtOk s) :
    ∃ ft k, (ft.map FtEntry.sym).Nodup ∧ k ≤ remaining s ∧
      (decHeader s = .ok () { consumed k s with ft := ft } ∨
        ∃ e, decHeader s = .raise e { consumed k s with ft := ft, outLen := 0 }) := by
  unfold decHeader
  split_ifs with h1
  · exact ⟨s.ft, 0, hd, Nat.zero_le _, .inr ⟨_, rfl⟩⟩
  obtain ⟨v, hv, h2⟩ := readFixed_total 8 s hf (by omega)
  rw [h2, Res.bind_ok]
  obtain ⟨ft, k, hn, hk, hh⟩ := decPairs_total v (consumed 8 s) (hf.consumed 8 (by omega)) hd
  rw [remaining_consumed] at hk
  refine ⟨ft, 8 + k, hn, by omega, ?_⟩
  rcases hh with hh | ⟨e, hh⟩
  · left; rw [hh]; simp only [consumed]; congr 2; simp; omega
  · right; refine ⟨e, ?_⟩; rw [hh]; simp only [consumed]; congr 2; simp; omega

/-- A walk down a tree, whatever the bits are: a symbol, or the end of the stream. -/
theorem decWalk_total {ft : List FtEntry} (d i : Nat) (s : State) (hf : Fresh s) (ht : TreeOf ft s.tree)
    (hi : i < s.tree.nodes.length) (hd : i < d) :
    ∃ k, k ≤ remaining s ∧ ((∃ c, decWalk d i s = .ok c (consumed k s)) ∨
        decWalk d i s = .raise .endOfStream { consumed k s with outLen := 0 }) := by
  induction d generalizing i s with
  | zero => omega
  | succ d ih =>
    unfold decWalk
    split
    · rename_i h; rw [List.getElem?_eq_none_iff] at h; omega
    · exact ⟨0, Nat.zero_le _, .inl ⟨_, rfl⟩⟩
    · rename_i z o w h
      have hlt := ht.internal_lt h
      split_ifs with h0
      · exact ⟨0, Nat.zero_le _, .inr rfl⟩
      · obtain ⟨b, hb⟩ := getBit_total s hf h0
        rw [hb, Res.bind_ok]
        have hnext : (if b = true then o.toNat else z.toNat) < i := by split_ifs <;> omega
        obtain ⟨k, hk, hh⟩ := ih (if b then o.toNat else z.toNat) (consumed 1 s) (hf.consumed 1 (by omega))
            ht (by show _ < s.tree.nodes.length; omega) (by omega)
        rw [remaining_consumed] at hk
        refine ⟨1 + k, by omega, ?_⟩
        rcases hh with ⟨c, hh⟩ | hh
        · exact .inl ⟨c, by rw [hh, consumed_consumed]⟩
        · exact .inr (by rw [hh, consumed_consumed])

/-- A payload, whatever the bits are: only the bytes of the output change. -/
theorem decPayload_total {ft : List FtEntry} (n a : Nat) (s : State) (hf : Fresh s) (ht : TreeOf ft s.tree)
    (ha : a + n ≤ s.dmemSize)
    (hm : DmemOk s) (hd : ∀ x, a ≤ x → x < a + n → inReaderBuffer s.br x = false) :
    ∃ k m, k ≤ remaining s ∧ (∀ x, ¬(a ≤ x ∧ x < a + n) → Memory.read m x = Memory.read s.dmem x) ∧
        DmemOk { s with dmem := m } ∧
      (decPayload n a s = .ok () { consumed k s with dmem := m } ∨
          decPayload n a s = .raise .endOfStream { consumed k s with dmem := m, outLen := 0 }) := by
  induction n generalizing a s with
  | zero => exact ⟨0, s.dmem, Nat.zero_le _, fun _ _ => rfl, hm, .inl rfl⟩
  | succ n ih =>
    unfold decPayload decSymbol
    obtain ⟨k, hk, hh⟩ := decWalk_total s.tree.nodes.length s.tree.root s hf ht (by have := ht.nodesPos; omega)
        (by have := ht.nodesPos; omega)
    rcases hh with ⟨c, hh⟩ | hh
    · rw [hh, Res.bind_ok, memWrite_inDmem _ _ _ (by show a < s.dmemSize; omega), Res.bind_ok]
      have hna : inReaderBuffer (consumed k s).br a = false := hd a (le_refl _) (by omega)
      have hst : storeByte a c (consumed k s) = { consumed k s with dmem := Memory.write s.dmem a c } := by
        simp only [storeByte, hna]; simp [consumed]
      rw [hst]
      have hm' : DmemOk { consumed k s with dmem := Memory.write s.dmem a c } :=
        (storeByte_dmemOk a c s (by omega) hm).congr rfl rfl
      obtain ⟨k', m, hk', h1, h2, h3⟩ := ih (a + 1)
          { consumed k s with dmem := Memory.write s.dmem a c } ((hf.consumed k hk).congr rfl rfl) ht
        (by show a + 1 + n ≤ s.dmemSize; omega) hm' (fun x hx1 hx2 => hd x (by omega) (by omega))
      have hk'' : k' ≤ remaining (consumed k s) := hk'
      rw [remaining_consumed] at hk''
      refine ⟨k + k', m, by omega, fun x hx => ?_, h2.congr rfl rfl, ?_⟩
      · rw [h1 x (by omega)]; exact Memory.read_write_other _ _ _ _ (by omega)
      · rcases h3 with h3 | h3
        · left; rw [h3]; simp [consumed, Nat.add_assoc]
        · right; rw [h3]; simp [consumed, Nat.add_assoc]
    · rw [hh]
      exact ⟨k, s.dmem, hk, fun _ _ => rfl, hm, .inr rfl⟩

theorem inv_afterTurn {s : State} (h : Inv s) : Inv (afterTurn s) :=
  ⟨h.dmem.congr rfl rfl, h.ft, h.tree, h.ct, h.bp.congr rfl rfl, h.br.congr rfl rfl, h.status⟩

/-- A step that leaves what the invariant speaks of alone keeps it. -/
theorem Inv.congr {s t : State} (h : Inv s) (h1 : t.dmem = s.dmem) (h2 : t.dmemSize = s.dmemSize)
    (h3 : t.ft = s.ft) (h4 : t.tree = s.tree) (h5 : t.ct = s.ct)
    (h6 : t.bp = s.bp) (h7 : t.br = s.br) (h8 : t.busy = true → t.done = false) : Inv t := by
  refine ⟨h.dmem.congr h1 h2, ?_, ?_, ?_, h.bp.congr h6 h2, h.br.congr h7 h2, h8⟩
  · have := h.ft
    simpa only [FtOk, h3] using this
  · have := h.tree
    simpa only [TreeOk, h3, h4] using this
  · have := h.ct
    simpa only [CtOk, h4, h5] using this

/-- Draws, byte by byte: each byte its own draw, every other byte as before (70 R552). -/
theorem drawBytes_spec (a n : Nat) (s : State) (hm : Memory.wf s.dmem) :
    (drawBytes a n s) = { s with dmem := (drawBytes a n s).dmem, draws := s.draws + n } ∧
    (∀ x, ¬(a ≤ x ∧ x < a + n) → Memory.read (drawBytes a n s).dmem x = Memory.read s.dmem x) ∧
    (∀ x, a ≤ x → x < a + n → Memory.read (drawBytes a n s).dmem x = Config.freeByte (s.draws + (x - a))) ∧
    (Memory.wf (drawBytes a n s).dmem ∧ ∀ m, (∀ c ∈ s.dmem, c.1 < m)
        → a + n ≤ m → ∀ c ∈ (drawBytes a n s).dmem, c.1 < m) := by
  induction n generalizing a s with
  | zero => exact ⟨rfl, fun _ _ => rfl, fun x h1 h2 => by omega, hm, fun m h _ => h⟩
  | succ n ih =>
    simp only [drawBytes]
    obtain ⟨h1, h2, h3, h4, h5⟩ := ih (a + 1) { s with dmem := Memory.write s.dmem a (Config.freeByte s.draws), draws := s.draws + 1 } (Memory.write_wf _ _ _ hm)
    refine ⟨?_, fun x hx => ?_, fun x hx1 hx2 => ?_, h4,
        fun m hb hl => h5 m (Memory.write_bounded _ _ _ _ (by omega) hb) (by omega)⟩
    · rw [h1]; simp; omega
    · rw [h2 x (by omega)]; exact Memory.read_write_other _ _ _ _ (by omega)
    · by_cases hxa : x = a
      · subst hxa
        rw [h2 x (by omega)]
        simp only
        rw [Memory.read_write_same _ _ _ hm]; simp
      · rw [h3 x (by omega) (by omega)]
        simp only; congr 1; omega

/-- Draws keep DMEM in form. -/
theorem drawBytes_mem (a n : Nat) (s : State) (hm : DmemOk s) (hl : a + n ≤ s.dmemSize ∨ n = 0) :
    DmemOk (drawBytes a n s) ∧ (drawBytes a n s).dmemSize = s.dmemSize := by
  induction n generalizing a s with
  | zero => exact ⟨hm, rfl⟩
  | succ n ih =>
    simp only [drawBytes]
    obtain ⟨h1, h2⟩ := ih (a + 1) { s with dmem := Memory.write s.dmem a (Config.freeByte s.draws), draws := s.draws + 1 }
      ((storeByte_dmemOk a _ s (by omega) hm).congr rfl rfl) (by show a + 1 + n ≤ s.dmemSize ∨ _; omega)
    exact ⟨h1, h2⟩

/-- A turn is the engine's, or a move of the host. -/
theorem takeTurn_cases (s : State) : (engineNext s = true ∧ takeTurn s = engineStep (afterTurn s)) ∨ ∃ m rest,
    s.agenda = .host m :: rest ∧ takeTurn s = hostMove m (afterTurn s) := by
  unfold takeTurn engineNext
  split
  · rename_i h
    refine .inl ⟨rfl, ?_⟩
    cases s; simp_all [afterTurn]
  · rename_i h; refine .inl ⟨rfl, ?_⟩; simp [afterTurn, h]
  · rename_i h; refine .inr ⟨_, _, h, ?_⟩; simp [afterTurn, h]

end Sys2Proof.Machine
end

