-- ==== Sys2Proof/Tests/Slice0.lean ====
section
/-! SUPPORT. The model's own tests: ill-formed instructions, command words written out from spec/30_encoding.md, and one
step each of the vectors of spec/95_test_vectors.md. No expected value comes from the model. -/

open Sys2Proof Sys2Proof.Machine

namespace Sys2Proof.Tests

/-! ### States to test on -/

/-- Store bytes from an address upward. -/
def bytesAt (a : Nat) : List Byte → Memory → Memory
  | [], m => m
  | b :: bs, m => bytesAt (a + 1) bs (Memory.write m a b)

/-- The state of a next outcome; a state no test expects where there is none. -/
def after : Host.Outcome State Fault Refusal → State
  | .next s => s
  | .fault _ => { State.reset with cmd := 0xDEADDEAD#32, done := true }
  | .refused _ => { State.reset with cmd := 0xDEADDEAD#32, done := true }

/-- Why an outcome stops, where it does. -/
def stop : Host.Outcome State Fault Refusal → Option Fault
  | .next _ => none
  | .fault f => some f
  | .refused _ => none

/-- "aaab" (V-ENC-1). -/
def aaab : List Byte := [0x61#8, 0x61#8, 0x61#8, 0x62#8]

/-- The container of "aaab" (V-ENC-1). -/
def container : List Byte :=
  [0x02#8, 0x00#8, 0x00#8, 0x00#8, 0x61#8, 0x00#8, 0x00#8, 0x00#8, 0x03#8, 0x00#8, 0x00#8, 0x00#8, 0x62#8, 0x00#8,
    0x00#8, 0x00#8, 0x01#8, 0xE0#8]

/-- The table of "aaab" (V-FT-1). -/
def table : List FtEntry := [{ sym := 0x61#8, w := 3#32 }, { sym := 0x62#8, w := 1#32 }]

/-- The table of "abracadabra" (V-TB-6). -/
def tableLong : List FtEntry :=
  [{ sym := 0x61#8, w := 5#32 }, { sym := 0x62#8, w := 2#32 }, { sym := 0x72#8, w := 2#32 },
    { sym := 0x63#8, w := 1#32 }, { sym := 0x64#8, w := 1#32 }]

/-- An idle core with bytes in DMEM from an address upward, and the two ranges in the operand registers. -/
def withInput (bytes : List Byte) (outBase outCap : Word) : State :=
  { State.reset with
    dmem := bytesAt 0 bytes [], inLen := BitVec.ofNat 32 bytes.length, outBase := outBase, outCap := outCap }

/-- A core with a table and its tree. -/
def withTree (ft : List FtEntry) : State := { State.reset with ft := ft, tree := buildTree ft }

/-- A core with a table, its tree and its codes. -/
def withCodes (ft : List FtEntry) : State := after (exec .ctDerive (withTree ft))

/-- A core with an active packer of two bytes at 0x100, four bits in (V-BP-1's "1101"). -/
def packing : State :=
  { State.reset with
    bp := { active := true, base := 0x100#32, cap := 2#32, bytes := 0#32, cur := 0xD0#8, cursor := 4 } }

/-- A core that reads the five bytes of V-BR-2 at 0x200. -/
def reading : State :=
  { State.reset with
    dmem := bytesAt 0x200 [0x12#8, 0x34#8, 0x56#8, 0x78#8, 0x9A#8] []
    br := { active := true, base := 0x200#32, len := 5#32, pos := 4, changed := [] } }

/-! ### WellFormed: an ill-formed instruction for each check (30 R203) -/

theorem test_wellFormed_bpAppendFixed : (Instr.bpAppendFixed 33#6).wellFormed = false := by decide

theorem test_wellFormed_brReadFixed : (Instr.brReadFixed 63#6).wellFormed = false := by decide

theorem test_wellFormed_width32 :
    (Instr.bpAppendFixed 32#6).wellFormed = true ∧ (Instr.brReadFixed 32#6).wellFormed = true := by decide

/-! ### Decoding: words written out from 30 R200, R201 and R210 -/

theorem test_decode_control : decode 0b00000000_00000000_00000000_00000000#32 = .ok .nop := by decide

theorem test_decode_table :
    decode 0b00000000_00000000_00000000_00010000#32 = .ok .ftClear ∧
    decode 0b00000000_01100001_00000000_00010001#32 = .ok (.ftAdd 0x61#8) ∧
    decode 0b00000000_00000000_00000000_00010010#32 = .ok .ftGet := by decide

theorem test_decode_tree :
    decode 0b00000000_00000000_00000000_00010011#32 = .ok .tbBuild ∧
    decode 0b00000000_00000000_00000000_00010100#32 = .ok .tbNode := by decide

theorem test_decode_codes :
    decode 0b00000000_00000000_00000000_00100000#32 = .ok .ctDerive ∧
    decode 0b00000000_01100010_00000000_00100001#32 = .ok (.ctLookup 0x62#8) := by decide

theorem test_decode_packer :
    decode 0b00000000_00000000_00000000_00110000#32 = .ok .bpInit ∧
    decode 0b00000000_00000000_01000000_00110001#32 = .ok (.bpAppendBit true) ∧
    decode 0b00000000_00000000_00000000_00110010#32 = .ok .bpAppendSeq ∧
    decode 0b00000000_00000000_00100000_00110011#32 = .ok (.bpAppendFixed 32#6) ∧
    decode 0b00000000_01100001_00000000_00110100#32 = .ok (.bpAppendCode 0x61#8) ∧
    decode 0b00000000_00000000_00000000_00110101#32 = .ok .bpFinish := by decide

theorem test_decode_reader :
    decode 0b00000000_00000000_00000000_01000000#32 = .ok .brInit ∧
    decode 0b00000000_00000000_00000000_01000001#32 = .ok .brReadBit ∧
    decode 0b00000000_00000000_00001000_01000010#32 = .ok (.brReadFixed 8#6) ∧
    decode 0b00000000_00000000_00000000_01000011#32 = .ok .brRemaining ∧
    decode 0b00000000_00000000_00000000_01000100#32 = .ok .brPosition := by decide

theorem test_decode_codec :
    decode 0b00000000_00000000_00000000_01010000#32 = .ok .enc ∧
    decode 0b00000000_00000000_00000000_01010001#32 = .ok .dec := by decide

/-- V-CW-1: fields a command does not use may hold anything. -/
theorem test_decode_ignored :
    decode 0x00FF7F00#32 = .ok .nop ∧ decode 0x00FF7F13#32 = .ok .tbBuild ∧ decode 0x00002113#32 = .ok .tbBuild := by
  decide

/-- V-CW-1: the illegal words. -/
theorem test_decode_illegal :
    decode 0x01000000#32 = .error .reservedBits ∧ decode 0x00008010#32 = .error .reservedBits ∧
    decode 0x00000001#32 = .error (.reservedOpcode 0x01#8) ∧ decode 0x00000015#32 = .error (.reservedOpcode 0x15#8) ∧
    decode 0x000000FF#32 = .error (.reservedOpcode 0xFF#8) ∧ decode 0x00002133#32 = .error (.appendWidth 33#6) ∧
    decode 0x00003F42#32 = .error (.readWidth 63#6) := by decide

/-- V-CW-1, the assembled words. -/
theorem test_encode :
    encode .nop = 0x00000000#32 ∧ encode (.ftAdd 0xFF#8) = 0x00FF0011#32 ∧
    encode (.ctLookup 0x62#8) = 0x00620021#32 ∧ encode (.bpAppendBit true) = 0x00004031#32 ∧
    encode (.bpAppendFixed 3#6) = 0x00000333#32 ∧ encode (.brReadFixed 8#6) = 0x00000842#32 ∧
    encode (.bpAppendCode 0x61#8) = 0x00610034#32 ∧ encode .dec = 0x00000051#32 := by decide

/-! ### Turns and control -/

/-- V-CTL-1: an illegal word from reset completes with STATUS 0x506, and CMD keeps the word. -/
theorem test_illegal_word :
    statusWord (after (step (State.reset.withFetchWord 32 0x01000000))) = 0x00000506#32 ∧
    (after (step (State.reset.withFetchWord 32 0x01000000))).cmd = 0x01000000#32 := by decide

/-- V-CW-1: 0x00FF7F13 from reset is TB_BUILD of an empty table, STATUS 0x106. -/
theorem test_withFetchWord : statusWord (after (step (State.reset.withFetchWord 32 0x00FF7F13))) = 0x00000106#32 := by
  decide

/-- V-CTL-1: NOP. -/
theorem test_nop : statusWord (after (exec .nop { State.reset with busy := true })) = 0x00000002#32 := by decide

/-- V-CTL-2: a write while BUSY is dropped and sets LOST. -/
theorem test_dropped_write :
    statusWord (after (hostMove (.regWrite 0x10#8 32 9#32) { State.reset with busy := true })) = 0x00000009#32 ∧
    (after (hostMove (.regWrite 0x10#8 32 9#32) { State.reset with busy := true })).arg0 = 0#32 := by decide

/-- 30 R221 and V-CTL-2: a command statement without a WAIT before it, while an earlier command is BUSY, is dropped; its
word is not stored. -/
theorem test_dropped_command :
    (Stmt.command .ftClear).turns = [.host (.regWrite 0x0C#8 32 0x00000010#32)] ∧
    statusWord (after (step { State.reset with busy := true, agenda := (Stmt.command .ftClear).turns })) =
      0x00000009#32 ∧
    (after (step { State.reset with busy := true, agenda := (Stmt.command .ftClear).turns })).cmd = 0#32 := by decide

/-- 30 R221: the expansion of PUTFIXED 5, 3. -/
theorem test_putfixed_turns :
    (Stmt.putfixed 5#32 3#6).turns =
      [.host (.regWrite 0x10#8 32 5#32), .host (.regWrite 0x0C#8 32 0x00000333#32), .engine,
        .host (.regRead 0x08#8 32)] := by decide

/-- V-CTL-2: CLRDONE leaves LOST, and a 1 at bit 3 clears it. -/
theorem test_status_write :
    statusWord (after (hostMove (.regWrite 0x08#8 32 2#32) { State.reset with done := true, lost := true })) =
      0x00000008#32 ∧
    statusWord (after (hostMove (.regWrite 0x08#8 32 8#32) { State.reset with lost := true })) = 0x00000000#32 := by
  decide

/-- V-CTL-3: setting IRQ_EN while DONE = 1 raises the line, clearing it lowers the line and leaves DONE. -/
theorem test_irq :
    irq (after (hostMove (.regWrite 0x04#8 32 2#32) { State.reset with done := true })) = true ∧
    irq (after (hostMove (.regWrite 0x04#8 32 0#32) { State.reset with done := true, irqEn := true })) = false ∧
    (after (hostMove (.regWrite 0x04#8 32 0#32) { State.reset with done := true, irqEn := true })).done = true := by
  decide

/-- 20 R166: the host may not write the output range of an ENC in flight. -/
theorem test_duty :
    stop (hostMove (.dmemWrite 0x400#32 1#8)
      { withInput aaab 0x400#32 0x12#32 with cmd := 0x50#32, busy := true }) = some (.hostDutyBroken 0x400) := by decide

/-- 70 R574: a byte of the reader's buffer that the host writes is a changed one. -/
theorem test_changed_byte : (after (hostMove (.dmemWrite 0x201#32 1#8) reading)).br.changed = [0x201] := by decide

/-! ### The frequency table -/

theorem test_ftClear : (after (exec .ftClear (withTree table))).ft = [] := by decide

/-- V-FT-1: a duplicate symbol, STATUS 0x106, and the table is unchanged. -/
theorem test_ftAdd_duplicate :
    (after (exec (.ftAdd 0x61#8) { State.reset with ft := table, arg0 := 7#32 })).errcode = .invalidInput ∧
    (after (exec (.ftAdd 0x61#8) { State.reset with ft := table, arg0 := 7#32 })).ft = table := by decide

/-- V-FT-1: the second entry. -/
theorem test_ftAdd_appends :
    (after (exec (.ftAdd 0x62#8) { State.reset with ft := [{ sym := 0x61#8, w := 3#32 }], arg0 := 1#32 })).ft = table := by
  decide

/-- V-FT-1: entry 1 is ('b', 1). -/
theorem test_ftGet :
    (after (exec .ftGet { State.reset with ft := table, arg0 := 1#32 })).result0 = 1#32 ∧
    (after (exec .ftGet { State.reset with ft := table, arg0 := 1#32 })).result1 = 0x62#32 := by decide

/-- V-FT-1: an index at the end is StateError and RESULT0 stays. -/
theorem test_ftGet_end :
    (after (exec .ftGet { State.reset with ft := table, arg0 := 2#32, result0 := 1#32 })).errcode = .stateError ∧
    (after (exec .ftGet { State.reset with ft := table, arg0 := 2#32, result0 := 1#32 })).result0 = 1#32 := by decide

/-! ### The tree -/

/-- V-TB-4: weights past 32 bits, and equal weights by position. -/
theorem test_tbBuild_weights :
    (buildTree [{ sym := 1#8, w := 0xFFFFFFFF#32 }, { sym := 2#8, w := 0xFFFFFFFF#32 },
      { sym := 3#8, w := 0xFFFFFFFF#32 }]).nodes.drop 3 =
    [.internal 0#9 1#9 0x1FFFFFFFE#40, .internal 2#9 3#9 0x2FFFFFFFD#40] := by decide

/-- V-TB-1: the tree of "aaab". -/
theorem test_tbBuild :
    (after (exec .tbBuild { State.reset with ft := table })).tree.root = 2 ∧
    (after (exec .tbBuild { State.reset with ft := table })).tree.nn = 3 := by decide

/-- V-TB-1: node 2 is internal, its zero-branch 1 and its one-branch 0. -/
theorem test_tbNode_internal :
    (after (exec .tbNode { withTree table with arg0 := 2#32 })).result0 = 4#32 ∧
    (after (exec .tbNode { withTree table with arg0 := 2#32 })).result1 = 0#32 ∧
    (after (exec .tbNode { withTree table with arg0 := 2#32 })).result2 = 1#32 := by decide

/-- V-TB-1: node 0 is the leaf 'a'. -/
theorem test_tbNode_leaf :
    (after (exec .tbNode { withTree table with arg0 := 0#32 })).result0 = 3#32 ∧
    (after (exec .tbNode { withTree table with arg0 := 0#32 })).result1 = 0x80006100#32 := by decide

/-! ### The codes -/

/-- V-CT-1: the codes of "abracadabra". -/
theorem test_ctDerive :
    codeOf (withCodes tableLong).ct.codes 0x61#8 = some [false] ∧
    codeOf (withCodes tableLong).ct.codes 0x62#8 = some [true, true, false] ∧
    codeOf (withCodes tableLong).ct.codes 0x64#8 = some [true, false, true] ∧
    codeOf (withCodes tableLong).ct.codes 0x78#8 = none := by decide

/-- V-TB-3: a table of one symbol gives it the empty code. -/
theorem test_ctDerive_single :
    codeOf (withCodes [{ sym := 0x7A#8, w := 5#32 }]).ct.codes 0x7A#8 = some [] := by decide

/-- V-CT-1: the code of 'r' in the window. -/
theorem test_ctLookup :
    (after (exec (.ctLookup 0x72#8) (withCodes tableLong))).result0 = 3#32 ∧
    (after (exec (.ctLookup 0x72#8) (withCodes tableLong))).bitwin[0] = 0xE0000000#32 := by decide

/-! ### The packer -/

/-- V-BP-4: a range that ends past DMEM is AddressError; an empty one at its end is not. -/
theorem test_bpInit :
    (after (exec .bpInit { State.reset with outBase := 0xFFF#32, outCap := 2#32 })).errcode = .address ∧
    (after (exec .bpInit { State.reset with outBase := 0x1000#32, outCap := 0#32 })).errcode = .ok := by decide

/-- V-BP-1: one bit into an empty packer. -/
theorem test_bpAppendBit :
    (after (exec (.bpAppendBit true) { packing with bp := { packing.bp with cur := 0#8, cursor := 0 } })).bp.cur = 0x80#8 ∧
    (after (exec (.bpAppendBit true) { packing with bp := { packing.bp with cur := 0#8, cursor := 0 } })).bp.cursor = 1 := by
  decide

/-- V-BP-3: three bits of the window, the first from bit 31 of BITWIN0. -/
theorem test_bpAppendSeq :
    (after (exec .bpAppendSeq { packing with
      bp := { packing.bp with cur := 0#8, cursor := 0 }, bitwin := packing.bitwin.set 0 0xA0000000#32,
      arg1 := 3#32 })).bp.cur = 0xA0#8 := by decide

/-- V-BP-3: a length of 256 is IllegalCommand. -/
theorem test_bpAppendSeq_length : (after (exec .bpAppendSeq { packing with arg1 := 256#32 })).errcode = .illegalCommand := by
  decide

/-- V-BP-1: a bit, then 5 in three bits. -/
theorem test_bpAppendFixed :
    (after (exec (.bpAppendFixed 3#6) { packing with
      bp := { packing.bp with cur := 0x80#8, cursor := 1 }, arg0 := 5#32 })).bp.cur = 0xD0#8 := by decide

/-- V-BP-2: 256 does not fit eight bits, and 1 does not fit none. -/
theorem test_bpAppendFixed_range :
    (after (exec (.bpAppendFixed 8#6) { packing with arg0 := 256#32 })).errcode = .range ∧
    (after (exec (.bpAppendFixed 0#6) { packing with arg0 := 1#32 })).errcode = .range := by decide

/-- V-BP-5: the codes of "aaab" are b: "0", a: "1". -/
theorem test_bpAppendCode :
    (after (exec (.bpAppendCode 0x61#8) { withCodes table with bp := packing.bp })).bp.cur = 0xD8#8 := by decide

/-- V-BP-1: the partial byte goes out, OUT_LEN is 1 and the packer is inactive. -/
theorem test_bpFinish :
    (after (exec .bpFinish packing)).outLen = 1#32 ∧ (after (exec .bpFinish packing)).bp.active = false ∧
    Memory.read (after (exec .bpFinish packing)).dmem 0x100 = 0xD0#8 := by decide

/-! ### The reader -/

/-- V-BR-3: a range that ends past DMEM. -/
theorem test_brInit : (after (exec .brInit { State.reset with inBase := 0xFFC#32, inLen := 5#32 })).errcode = .address := by
  decide

/-- V-BR-1: the first bit of 0xD0. -/
theorem test_brReadBit :
    (after (exec .brReadBit { reading with
      dmem := bytesAt 0x200 [0xD0#8] [], br := { reading.br with pos := 0 } })).result0 = 1#32 := by decide

/-- V-BR-2: 32 bits across bytes. -/
theorem test_brReadFixed : (after (exec (.brReadFixed 32#6) reading)).result0 = 0x23456789#32 := by decide

/-- V-BR-1: too few bits, nothing consumed. -/
theorem test_brReadFixed_short :
    (after (exec (.brReadFixed 8#6) { reading with br := { reading.br with len := 1#32 } })).errcode = .endOfStream ∧
    (after (exec (.brReadFixed 8#6) { reading with br := { reading.br with len := 1#32 } })).br.pos = 4 := by decide

/-- V-BR-1: four bits are left of one byte. -/
theorem test_brRemaining :
    (after (exec .brRemaining { reading with br := { reading.br with len := 1#32 } })).result0 = 4#32 := by decide

/-- V-BR-1: the position, with the bits above 31 in RESULT1 (10 R63). -/
theorem test_brPosition :
    (after (exec .brPosition { reading with br := { reading.br with pos := 0x100000008 } })).result0 = 8#32 ∧
    (after (exec .brPosition { reading with br := { reading.br with pos := 0x100000008 } })).result1 = 1#32 := by decide

/-! ### The codec -/

set_option maxRecDepth 20000 in
/-- V-ENC-1: the container of "aaab", byte for byte, with OUT_CAP exactly its length. -/
theorem test_enc :
    (List.range 18).map (fun k => Memory.read (after (exec .enc (withInput aaab 0x400#32 18#32))).dmem (0x400 + k)) =
      container := by decide

set_option maxRecDepth 20000 in
/-- V-ENC-3: one byte of capacity too few. -/
theorem test_enc_capacity : statusWord (after (exec .enc (withInput aaab 0x400#32 17#32))) = 0x00000736#32 := by decide

set_option maxRecDepth 20000 in
/-- V-DEC-1: the container of "aaab" gives it back. -/
theorem test_dec :
    (List.range 4).map (fun k => Memory.read (after (exec .dec (withInput container 0x400#32 16#32))).dmem (0x400 + k)) =
      aaab := by decide

set_option maxRecDepth 20000 in
/-- V-DEC-4: room for three bytes is CapacityError. -/
theorem test_dec_capacity : statusWord (after (exec .dec (withInput container 0x400#32 3#32))) = 0x00000796#32 := by
  decide

end Sys2Proof.Tests
end

