-- ==== Sys2Proof/Tests/Witnesses.lean ====
section
/-! SUPPORT. For every statement with hypotheses, states and operands that meet them, clause by clause, at the ends of their
ranges: `witness_<Statement>`. -/

open Sys2Proof Sys2Proof.Machine

namespace Sys2Proof.Tests

/-- The outcome is a next state. -/
def isNext : Host.Outcome State Fault Refusal → Bool
  | .next _ => true
  | .fault _ => false
  | .refused _ => false

theorem eq_after {o : Host.Outcome State Fault Refusal} (h : isNext o = true) : o = .next (after o) := by
  cases o with
  | next s => rfl
  | fault f => cases h
  | refused r => cases h

/-- A command is in flight. -/
def inFlight (w : Word) (s : State) : State := { s with cmd := w, busy := true, done := false }

/-- The codes of a tree, where it has them. -/
def codesOf (t : Tree) : Codes :=
  match deriveCodes t with
  | .ok codes => codes
  | .error _ => noCodes

theorem derive_eq {t : Tree} (h : (deriveCodes t).toOption.isSome = true) : deriveCodes t = .ok (codesOf t) := by
  unfold codesOf
  cases hd : deriveCodes t with
  | ok codes => rfl
  | error f => rw [hd] at h; cases h

theorem derive_table : deriveCodes (buildTree table) = .ok (codesOf (buildTree table)) := derive_eq (by decide)

/-- A core with a table, its tree and its codes. -/
def derived (ft : List FtEntry) : State := { withTree ft with ct := { valid := true, codes := codesOf (buildTree ft) } }

/-- A core with everything in use: a table, its tree and codes, a packer with nine bits in a full range, a reader one bit
in, one of whose two bytes has changed. -/
def rich : State :=
  { derived table with
    busy := false
    done := true
    dmem := bytesAt 0x200 [0xD0#8, 0x12#8] (bytesAt 0x100 [0x35#8] (bytesAt 0 aaab []))
    inLen := 4#32
    outBase := 0x400#32
    outCap := 18#32
    bp := { active := true, base := 0x100#32, cap := 2#32, bytes := 1#32, cur := 0x80#8, cursor := 1 }
    br := { active := true, base := 0x200#32, len := 2#32, pos := 1, changed := [0x201] } }

theorem rich_dmemOk : DmemOk rich := ⟨by decide, by decide, by decide, by decide⟩

theorem rich_ftOk : FtOk rich := by unfold FtOk; decide

theorem rich_treeOk : TreeOk rich := fun _ => by decide

theorem rich_ctOk : CtOk rich := fun _ => ⟨by decide, derive_table⟩

theorem rich_packerOk : PackerOk rich := by
  refine ⟨by decide, by decide, fun i h => ?_⟩
  have h' : i + 1 < 8 := h
  have : i < 7 := by omega
  interval_cases i <;> decide

theorem rich_readerOk : ReaderOk rich := ⟨by decide, by decide, by decide, by decide⟩

theorem rich_inv : Inv rich :=
  ⟨rich_dmemOk, rich_ftOk, rich_treeOk, rich_ctOk, rich_packerOk, rich_readerOk, fun h => by cases h⟩

/-- The same core with an ENC in flight. -/
def richEnc : State := inFlight 0x50#32 rich

theorem richEnc_inv : Inv richEnc :=
  ⟨⟨by decide, by decide, by decide, by decide⟩, rich_ftOk, rich_treeOk, rich_ctOk,
    ⟨rich_packerOk.inDmem, rich_packerOk.fits, rich_packerOk.openBits⟩,
    ⟨rich_readerOk.inDmem, rich_readerOk.posLe, rich_readerOk.rising, rich_readerOk.inBuffer⟩, fun _ => rfl⟩

/-! ### The command word -/

theorem witness_DecodeOfEncode :
    (Instr.bpAppendFixed 32#6).wellFormed = true ∧ (Instr.brReadFixed 0#6).wellFormed = true ∧
    (Instr.ftAdd 0xFF#8).wellFormed = true := by decide

theorem witness_OpcodeMap_plain :
    0x00FF7F00#32 &&& 0xFF0080FF#32 = 0x00#32 ∧ 0x00000010#32 &&& 0xFF0080FF#32 = 0x10#32 ∧
    0x00000012#32 &&& 0xFF0080FF#32 = 0x12#32 ∧ 0x00FF7F13#32 &&& 0xFF0080FF#32 = 0x13#32 ∧
    0x00000014#32 &&& 0xFF0080FF#32 = 0x14#32 ∧ 0x00000020#32 &&& 0xFF0080FF#32 = 0x20#32 ∧
    0x00000030#32 &&& 0xFF0080FF#32 = 0x30#32 ∧ 0x00000032#32 &&& 0xFF0080FF#32 = 0x32#32 ∧
    0x00000035#32 &&& 0xFF0080FF#32 = 0x35#32 ∧ 0x00000040#32 &&& 0xFF0080FF#32 = 0x40#32 ∧
    0x00000041#32 &&& 0xFF0080FF#32 = 0x41#32 ∧ 0x00000043#32 &&& 0xFF0080FF#32 = 0x43#32 ∧
    0x00000044#32 &&& 0xFF0080FF#32 = 0x44#32 ∧ 0x00000050#32 &&& 0xFF0080FF#32 = 0x50#32 ∧
    0x00000051#32 &&& 0xFF0080FF#32 = 0x51#32 := by decide

theorem witness_OpcodeMap_operand :
    0x00FF0011#32 &&& 0xFF0080FF#32 = 0x11#32 ∧ 0x00620021#32 &&& 0xFF0080FF#32 = 0x21#32 ∧
    0x00004031#32 &&& 0xFF0080FF#32 = 0x31#32 ∧ 0x00610034#32 &&& 0xFF0080FF#32 = 0x34#32 ∧
    (0x00002033#32 &&& 0xFF0080FF#32 = 0x33#32 ∧ (BitVec.extractLsb' 8 6 0x00002033#32).toNat ≤ 32) ∧
    (0x00002042#32 &&& 0xFF0080FF#32 = 0x42#32 ∧ (BitVec.extractLsb' 8 6 0x00002042#32).toNat ≤ 32) := by decide

/-- Two different words of BP_APPEND_BIT that differ in fields it does not use. -/
theorem witness_UnusedFieldsAreIgnored :
    0x00004031#32 &&& 0xFF0080FF#32 = 0x00FF7F31#32 &&& 0xFF0080FF#32 ∧
    ((BitVec.extractLsb' 0 8 0x00004031#32).toNat ∈ [0x11, 0x21, 0x34] →
      BitVec.extractLsb' 16 8 0x00004031#32 = BitVec.extractLsb' 16 8 0x00FF7F31#32) ∧
    ((BitVec.extractLsb' 0 8 0x00004031#32).toNat = 0x31 →
      BitVec.getLsbD 0x00004031#32 14 = BitVec.getLsbD 0x00FF7F31#32 14) ∧
    ((BitVec.extractLsb' 0 8 0x00004031#32).toNat ∈ [0x33, 0x42] →
      BitVec.extractLsb' 8 6 0x00004031#32 = BitVec.extractLsb' 8 6 0x00FF7F31#32) := by decide

/-- A word of FT_ADD and one of BR_READ_FIXED, each with an unused field changed. -/
theorem witness_UnusedFieldsAreIgnored_operand :
    (0x00610011#32 &&& 0xFF0080FF#32 = 0x00617F11#32 &&& 0xFF0080FF#32 ∧
      BitVec.extractLsb' 16 8 0x00610011#32 = BitVec.extractLsb' 16 8 0x00617F11#32) ∧
    (0x00002042#32 &&& 0xFF0080FF#32 = 0x00FF6042#32 &&& 0xFF0080FF#32 ∧
      BitVec.extractLsb' 8 6 0x00002042#32 = BitVec.extractLsb' 8 6 0x00FF6042#32) := by decide

/-! ### Turns -/

theorem witness_StepRunsDecodedCommand :
    engineNext richEnc = true ∧ richEnc.busy = true ∧ decode richEnc.cmd = .ok .enc ∧
    engineNext (State.reset.withFetchWord 32 0x10) = true ∧ (State.reset.withFetchWord 32 0x10).busy = true ∧
    decode (State.reset.withFetchWord 32 0x10).cmd = .ok .ftClear := by decide

theorem witness_OtherTurns :
    ({ rich with agenda := [.host .observeIrq] } : State).agenda = .host .observeIrq :: [] ∧
    engineNext rich = true ∧ rich.busy = false := by decide

theorem witness_IllegalWordCompletes :
    engineNext (inFlight 0x01000000#32 rich) = true ∧ (inFlight 0x01000000#32 rich).busy = true ∧
    decode (inFlight 0x01000000#32 rich).cmd = .error .reservedBits := by decide

theorem witness_WidthCheck_legal :
    (inFlight 0x00002033#32 rich).cmd &&& 0xFF0080FF#32 = 0x33#32 ∧
    ((inFlight 0x00002033#32 rich).cmd.extractLsb' 8 6).toNat = 32 ∧
    (inFlight 0x00000042#32 rich).cmd &&& 0xFF0080FF#32 = 0x42#32 ∧
    ((inFlight 0x00000042#32 rich).cmd.extractLsb' 8 6).toNat = 0 := by decide

theorem witness_WidthCheck_illegal :
    (inFlight 0x00002133#32 rich).cmd &&& 0xFF0080FF#32 = 0x33#32 ∧
    ((inFlight 0x00002133#32 rich).cmd.extractLsb' 8 6).toNat = 33 ∧
    (inFlight 0x00003F42#32 rich).cmd &&& 0xFF0080FF#32 = 0x42#32 ∧
    ((inFlight 0x00003F42#32 rich).cmd.extractLsb' 8 6).toNat = 63 ∧
    engineNext (inFlight 0x00003F42#32 rich) = true ∧ (inFlight 0x00003F42#32 rich).busy = true := by decide

/-! ### The host registers -/

theorem witness_CmdWriteIssues : rich.busy = false := rfl

theorem witness_OperandWrites : rich.busy = false := rfl

theorem witness_WritesWhileBusyAreDropped :
    richEnc.busy = true ∧
    (0x0C#8).toNat ∈ [0x0C, 0x10, 0x14, 0x18, 0x1C, 0x20, 0x24, 0x60, 0x64, 0x68, 0x6C, 0x70, 0x74, 0x78, 0x7C] ∧
    (0x7C#8).toNat ∈ [0x0C, 0x10, 0x14, 0x18, 0x1C, 0x20, 0x24, 0x60, 0x64, 0x68, 0x6C, 0x70, 0x74, 0x78, 0x7C] := by
  decide

theorem witness_StatusAndCtrlWrites : (0xFFFFFFFE#32).getLsbD 0 = false := by decide

theorem witness_IgnoredAccesses :
    16 ≠ 32 ∧ (0x09#8).toNat % 4 ≠ 0 ∧ (0x54 ≤ (0x54#8).toNat ∧ (0x54#8).toNat ≤ 0x5F) ∧
    (0x54 ≤ (0x5F#8).toNat ∧ (0x5F#8).toNat ≤ 0x5F) ∧ 0x80 ≤ (0x80#8).toNat ∧ 0x80 ≤ (0xFF#8).toNat ∧
    (0x00#8).toNat ∈ [0x00, 0x28, 0x2C, 0x30, 0x34, 0x38, 0x3C, 0x40, 0x44, 0x48, 0x4C, 0x50] ∧
    (0x50#8).toNat ∈ [0x00, 0x28, 0x2C, 0x30, 0x34, 0x38, 0x3C, 0x40, 0x44, 0x48, 0x4C, 0x50] := by decide

theorem witness_PlainReads : rich.busy = false := rfl

theorem witness_ViewReads : rich.busy = false ∧ FtOk rich ∧ TreeOk rich ∧ ReaderOk rich :=
  ⟨rfl, rich_ftOk, rich_treeOk, rich_readerOk⟩

theorem witness_ReadsWhileBusy :
    richEnc.busy = true ∧
    (0x28#8).toNat ∈ [0x28, 0x2C, 0x30, 0x34, 0x38, 0x3C, 0x40, 0x44, 0x48, 0x4C, 0x50, 0x60, 0x64, 0x68, 0x6C, 0x70,
      0x74, 0x78, 0x7C] ∧
    (0x7C#8).toNat ∈ [0x28, 0x2C, 0x30, 0x34, 0x38, 0x3C, 0x40, 0x44, 0x48, 0x4C, 0x50, 0x60, 0x64, 0x68, 0x6C, 0x70,
      0x74, 0x78, 0x7C] ∧
    (0x00#8).toNat ∈ [0x00, 0x04, 0x08, 0x0C, 0x10, 0x14, 0x18, 0x1C, 0x20, 0x24] ∧
    (0x24#8).toNat ∈ [0x00, 0x04, 0x08, 0x0C, 0x10, 0x14, 0x18, 0x1C, 0x20, 0x24] := by decide

theorem witness_IrqLine :
    (0x00000002#32).getLsbD 0 = false ∧ rich.busy = false ∧ exec .nop rich = .next (completed .ok rich) :=
  ⟨by decide, rfl, rfl⟩

/-! ### DMEM as the host reaches it -/

theorem witness_HostDmem :
    DmemOk rich ∧ rich.busy = false ∧ (0x000#32).toNat < rich.dmemSize ∧ (0xFFF#32).toNat < rich.dmemSize ∧
    (rich.br.base.toNat ≤ (0x200#32).toNat ∧ (0x200#32).toNat < rich.br.base.toNat + rich.br.len.toNat) :=
  ⟨rich_dmemOk, rfl, by decide, by decide, by decide⟩

theorem witness_HostDuty : richEnc.busy = true ∧ decode richEnc.cmd = .ok .enc ∧ (0xFFF#32).toNat < richEnc.dmemSize := by
  decide

theorem witness_HostDuty_read :
    mayRead .enc richEnc (0x000#32).toNat ∧ mayRead .enc richEnc (0x003#32).toNat ∧
    ¬mayRead .enc richEnc (0x004#32).toNat ∧ ¬mayWrite .enc richEnc (0x004#32).toNat :=
  ⟨⟨by decide, by decide⟩, ⟨by decide, by decide⟩, fun h => absurd h.2 (by decide), fun h => absurd h.1 (by decide)⟩

theorem witness_HostDuty_write :
    mayWrite .enc richEnc (0x400#32).toNat ∧ mayWrite .enc richEnc (0x411#32).toNat ∧
    ¬mayWrite .enc richEnc (0x3FF#32).toNat ∧ ¬mayWrite .enc richEnc (0x412#32).toNat :=
  ⟨⟨by decide, by decide⟩, ⟨by decide, by decide⟩, fun h => absurd h.1 (by decide), fun h => absurd h.2 (by decide)⟩

/-! ### Reset -/

theorem witness_ResetValues :
    (∃ v : Word, v.getLsbD 0 = true ∧ HostMove.regWrite 0x04#8 32 3#32 = .regWrite 0x04#8 32 v) ∧ rich.busy = false :=
  ⟨⟨3#32, by decide, rfl⟩, rfl⟩

theorem witness_SoftReset : (0x00000001#32).getLsbD 0 = true ∧ (0xFFFFFFFF#32).getLsbD 0 = true := by decide

theorem witness_ResetDuringCommand :
    DmemOk richEnc ∧ richEnc.busy = true ∧ decode richEnc.cmd = .ok .enc ∧ 0x411 < richEnc.dmemSize ∧
    mayWrite .enc richEnc 0x400 ∧ mayWrite .enc richEnc 0x411 ∧ ¬mayWrite .enc richEnc 0x412 :=
  ⟨richEnc_inv.dmem, rfl, by decide, by decide, ⟨by decide, by decide⟩, ⟨by decide, by decide⟩,
    fun h => absurd h.2 (by decide)⟩

/-! ### The machine as a whole -/

theorem witness_InvAtReset_smallest :
    (1 ≤ 1 ∧ 1 ≤ 2 ^ 32) ∧ Memory.wf [(0, 1#8)] ∧ ∀ c ∈ ([(0, 1#8)] : Memory), c.1 < 1 := by decide

theorem witness_InvAtReset_largest :
    (1 ≤ 2 ^ 32 ∧ 2 ^ 32 ≤ 2 ^ 32) ∧ Memory.wf [(0xFFFFFFFF, 1#8)] ∧
      ∀ c ∈ ([(0xFFFFFFFF, 1#8)] : Memory), c.1 < 2 ^ 32 := by decide

theorem witness_StepKeepsInv :
    Inv { rich with agenda := [.host .observeIrq] } ∧
    step { rich with agenda := [.host .observeIrq] } =
      .next { rich with reply := some (.line false), agenda := [] } :=
  ⟨⟨⟨by decide, by decide, by decide, by decide⟩, rich_ftOk, rich_treeOk, rich_ctOk,
    ⟨rich_packerOk.inDmem, rich_packerOk.fits, rich_packerOk.openBits⟩,
    ⟨rich_readerOk.inDmem, rich_readerOk.posLe, rich_readerOk.rising, rich_readerOk.inBuffer⟩, fun h => by cases h⟩, rfl⟩

theorem witness_DutifulStepsComplete : Inv richEnc ∧ dutyKept richEnc = true := ⟨richEnc_inv, rfl⟩

/-- A host write that just misses the ranges of the ENC in flight keeps the duty. -/
theorem witness_DutifulStepsComplete_host :
    dutyKept { richEnc with agenda := [.host (.dmemWrite 0x412#32 1#8)] } = true := by decide

theorem witness_CommandsComplete : Inv richEnc ∧ richEnc.busy = true ∧ engineNext richEnc = true :=
  ⟨richEnc_inv, rfl, rfl⟩

theorem witness_CommandOutcomes : exec .nop rich = .next (completed .ok rich) := rfl

theorem witness_FailingCommands :
    exec .ftGet State.reset = .next (completed .stateError State.reset) ∧
    (completed .stateError State.reset).errcode ≠ .ok ∧ Instr.ftGet ≠ .enc ∧ Instr.ftGet ≠ .dec := ⟨rfl, by decide⟩

theorem witness_FailingCommands_address :
    exec .enc { rich with outBase := 3#32 } = .next (completed .address { rich with outBase := 3#32 }) := rfl

theorem witness_FailingCommands_codec :
    isNext (exec .enc { rich with inLen := 0#32 }) = true ∧
    (after (exec .enc { rich with inLen := 0#32 })).errcode = .invalidInput := by decide

/-- NOP meets the premises of every clause. -/
theorem witness_CommandFrame :
    exec .nop rich = .next (completed .ok rich) ∧ (∀ c, Instr.nop ≠ .ctLookup c) ∧ Instr.nop ≠ .bpFinish ∧
    Instr.nop ∉ [Instr.ftGet, .tbNode, .brReadBit, .brRemaining, .brPosition, .enc, .dec] ∧
    (∀ w, Instr.nop ≠ .brReadFixed w) ∧ Instr.nop ∉ [Instr.ftClear, .tbBuild, .ctDerive, .enc, .dec] ∧
    (∀ c, Instr.nop ≠ .ftAdd c) ∧ Instr.nop ∉ [Instr.bpInit, .bpAppendSeq, .bpFinish, .enc, .dec, .brInit] ∧
    (∀ b, Instr.nop ≠ .bpAppendBit b) ∧ (∀ w, Instr.nop ≠ .bpAppendFixed w) ∧ (∀ c, Instr.nop ≠ .bpAppendCode c) := by
  refine ⟨rfl, ?_, ?_, ?_, ?_, ?_, ?_, ?_, ?_, ?_, ?_⟩ <;> decide

/-- The packer's next byte is 0x101, and its range ends there. -/
theorem witness_DmemFrame :
    Inv rich ∧ exec (.bpAppendBit true) rich = .next (after (exec (.bpAppendBit true) rich)) ∧
    ¬mayWrite (.bpAppendBit true) rich 0x100 ∧ ¬mayWrite (.bpAppendBit true) rich 0x102 ∧
    mayWrite (.bpAppendBit true) rich 0x101 :=
  ⟨rich_inv, eq_after (by decide), fun h => absurd h.1 (by decide), fun h => absurd h.2 (by decide),
    ⟨by decide, by decide⟩⟩

theorem witness_FlagsTable :
    exec .bpFinish rich = .next (after (exec .bpFinish rich)) ∧ hostMove .hardwareReset rich = .next (reset rich) :=
  ⟨eq_after (by decide), rfl⟩

/-! ### The frequency table and the tree -/

theorem witness_FtAdd : (∀ e ∈ rich.ft, e.sym ≠ 0x63#8) ∧ ∃ e ∈ rich.ft, e.sym = 0x62#8 := by decide

theorem witness_FtGet :
    ({ rich with arg0 := 1#32 } : State).ft[({ rich with arg0 := 1#32 } : State).arg0.toNat]? =
      some { sym := 0x62#8, w := 1#32 } ∧
    ({ rich with arg0 := 2#32 } : State).ft.length ≤ ({ rich with arg0 := 2#32 } : State).arg0.toNat := by decide

theorem witness_TbBuild : FtOk rich ∧ rich.ft ≠ [] ∧ 1 < rich.ft.length ∧ FtOk State.reset ∧ State.reset.ft = [] :=
  ⟨rich_ftOk, by decide, by decide, List.nodup_nil, rfl⟩

theorem witness_TreeMerges :
    FtOk rich ∧ rich.ft ≠ [] ∧ exec .tbBuild rich = .next (after (exec .tbBuild rich)) ∧ rich.ft.length ≤ 2 ∧
    2 < (after (exec .tbBuild rich)).tree.nn := ⟨rich_ftOk, by decide, eq_after (by decide), by decide, by decide⟩

theorem witness_TreeShape : FtOk rich ∧ TreeOk rich ∧ rich.tree.valid = true := ⟨rich_ftOk, rich_treeOk, by decide⟩

theorem witness_TreeShape_nodes :
    rich.tree.nodes[2]? = some (.internal 1#9 0#9 4#40) ∧ (1 < rich.tree.nn ∧ 1 ≠ rich.tree.root) ∧
    follow rich.tree.nodes rich.tree.root [true] = some 0 ∧ rich.tree.nodes[0]? = some (.leaf 0x61#8 3#40) := by decide

theorem witness_TbNode :
    rich.tree.valid = true ∧
    rich.tree.nodes[({ rich with arg0 := 0#32 } : State).arg0.toNat]? = some (.leaf 0x61#8 3#40) ∧
    rich.tree.nodes[({ rich with arg0 := 2#32 } : State).arg0.toNat]? = some (.internal 1#9 0#9 4#40) ∧
    rich.tree.nn ≤ ({ rich with arg0 := 3#32 } : State).arg0.toNat ∧ State.reset.tree.valid = false := by decide

/-! ### The codes -/

theorem witness_CtDerive : FtOk rich ∧ TreeOk rich ∧ rich.tree.valid = true ∧ State.reset.tree.valid = false :=
  ⟨rich_ftOk, rich_treeOk, by decide, rfl⟩

theorem witness_CodesArePrefixFree :
    FtOk rich ∧ TreeOk rich ∧ CtOk rich ∧ rich.ct.valid = true ∧ codeOf rich.ct.codes 0x61#8 = some [true] ∧
    codeOf rich.ct.codes 0x62#8 = some [false] ∧ [true] <+: [true] ∧ 2 ≤ rich.ft.length :=
  ⟨rich_ftOk, rich_treeOk, rich_ctOk, by decide, by decide, by decide, List.prefix_rfl, by decide⟩

/-- A core with a table of one symbol. -/
def single : State := derived [{ sym := 0x7A#8, w := 5#32 }]

theorem witness_CodesArePrefixFree_single :
    FtOk single ∧ TreeOk single ∧ CtOk single ∧ single.ct.valid = true ∧ single.ft.length = 1 ∧
    codeOf single.ct.codes 0x7A#8 = some [] :=
  ⟨by unfold FtOk; decide, fun _ => by decide, fun _ => ⟨by decide, derive_eq (by decide)⟩, by decide, by decide,
    by decide⟩

/-- A code table with a code of 255 bits and an empty one. -/
def longCode : State :=
  { State.reset with ct := { valid := true, codes := setCode (setCode noCodes 1#8 (List.replicate 255 true)) 2#8 [] } }

theorem witness_CtLookup :
    longCode.ct.valid = true ∧ codeOf longCode.ct.codes 1#8 = some (List.replicate 255 true) ∧
    (List.replicate 255 true).length ≤ 255 ∧ codeOf longCode.ct.codes 2#8 = some [] ∧
    codeOf longCode.ct.codes 3#8 = none ∧ State.reset.ct.valid = false :=
  ⟨rfl, rfl, le_of_eq List.length_replicate, rfl, rfl, rfl⟩

/-! ### The packer and the reader -/

theorem witness_BitSequences : 31 < 32 ∧ 0 < 1 ∧ (254 : Fin 256).val < 255 := by decide

theorem witness_InitCommands :
    (0xFFE#32).toNat + (2#32).toNat ≤ State.reset.dmemSize ∧ State.reset.dmemSize < (0xFFE#32).toNat + (3#32).toNat ∧
    State.reset.dmemSize < (0xFFFFFFFF#32).toNat + (1#32).toNat := by decide

/-- Seven bits fill the range of `rich`'s packer, eight do not fit it. -/
theorem witness_BpAppendBit :
    State.reset.bp.active = false ∧ DmemOk rich ∧ PackerOk rich ∧ rich.bp.active = true ∧
    ceilDiv (8 * rich.bp.bytes.toNat + rich.bp.cursor.val + 1) 8 ≤ rich.bp.cap.toNat :=
  ⟨rfl, rich_dmemOk, rich_packerOk, rfl, by decide⟩

theorem witness_BpAppendBit_full :
    ({ rich with bp := { rich.bp with cap := 1#32, cursor := 0 } } : State).bp.active = true ∧
    ({ rich with bp := { rich.bp with cap := 1#32, cursor := 0 } } : State).bp.cap.toNat <
      ceilDiv (8 * rich.bp.bytes.toNat + 0 + 1) 8 := by decide

theorem witness_BpAppendSeq :
    255 < ({ rich with arg1 := 256#32 } : State).arg1.toNat ∧
    (({ State.reset with arg1 := 255#32 } : State).arg1.toNat ≤ 255 ∧ State.reset.bp.active = false) ∧
    rich.bp.cap.toNat < ceilDiv (8 * rich.bp.bytes.toNat + rich.bp.cursor.val + 8) 8 ∧
    ceilDiv (8 * rich.bp.bytes.toNat + rich.bp.cursor.val + 7) 8 ≤ rich.bp.cap.toNat := by decide

theorem witness_BpAppendSeq_fits :
    DmemOk { rich with arg1 := 7#32 } ∧ PackerOk { rich with arg1 := 7#32 } ∧
    ({ rich with arg1 := 7#32 } : State).arg1.toNat ≤ 255 ∧ rich.bp.active = true ∧
    ceilDiv (8 * rich.bp.bytes.toNat + rich.bp.cursor.val + ({ rich with arg1 := 7#32 } : State).arg1.toNat) 8 ≤
      rich.bp.cap.toNat :=
  ⟨⟨by decide, by decide, by decide, by decide⟩,
    ⟨rich_packerOk.inDmem, rich_packerOk.fits, rich_packerOk.openBits⟩, by decide, rfl, by decide⟩

theorem witness_BpAppendFixed :
    32 < (33#6).toNat ∧ (32#6).toNat ≤ 32 ∧ State.reset.bp.active = false ∧
    2 ^ (7#6).toNat ≤ ({ rich with arg0 := 128#32 } : State).arg0.toNat ∧
    ({ rich with arg0 := 127#32 } : State).arg0.toNat < 2 ^ (7#6).toNat ∧
    ({ rich with arg0 := 0xFFFFFFFF#32 } : State).arg0.toNat < 2 ^ (32#6).toNat ∧
    rich.bp.cap.toNat < ceilDiv (8 * rich.bp.bytes.toNat + rich.bp.cursor.val + (8#6).toNat) 8 := by decide

theorem witness_BpAppendFixed_fits :
    DmemOk { rich with arg0 := 127#32 } ∧ PackerOk { rich with arg0 := 127#32 } ∧ (7#6).toNat ≤ 32 ∧
    rich.bp.active = true ∧ ({ rich with arg0 := 127#32 } : State).arg0.toNat < 2 ^ (7#6).toNat ∧
    ceilDiv (8 * rich.bp.bytes.toNat + rich.bp.cursor.val + (7#6).toNat) 8 ≤ rich.bp.cap.toNat :=
  ⟨⟨by decide, by decide, by decide, by decide⟩,
    ⟨rich_packerOk.inDmem, rich_packerOk.fits, rich_packerOk.openBits⟩, by decide, rfl, by decide, by decide⟩

theorem witness_BpAppendCode :
    State.reset.bp.active = false ∧ packing.ct.valid = false ∧ codeOf rich.ct.codes 0x63#8 = none ∧
    DmemOk rich ∧ PackerOk rich ∧ rich.bp.active = true ∧ rich.ct.valid = true ∧
    codeOf rich.ct.codes 0x61#8 = some [true] ∧
    ceilDiv (8 * rich.bp.bytes.toNat + rich.bp.cursor.val + [true].length) 8 ≤ rich.bp.cap.toNat :=
  ⟨rfl, rfl, by decide, rich_dmemOk, rich_packerOk, rfl, by decide, by decide, by decide⟩

theorem witness_BpAppendCode_full :
    ({ rich with bp := { rich.bp with cap := 1#32, cursor := 0 } } : State).bp.cap.toNat <
      ceilDiv (8 * rich.bp.bytes.toNat + 0 + [true].length) 8 := by decide

theorem witness_BpFinish : State.reset.bp.active = false ∧ DmemOk rich ∧ PackerOk rich ∧ rich.bp.active = true :=
  ⟨rfl, rich_dmemOk, rich_packerOk, rfl⟩

/-- The first byte of `rich`'s buffer is unchanged, the second has changed. -/
theorem witness_BrReadBit :
    State.reset.br.active = false ∧ ReaderOk rich ∧ rich.br.active = true ∧ rich.br.pos < 8 * rich.br.len.toNat ∧
    rich.br.base.toNat + rich.br.pos / 8 ∉ rich.br.changed :=
  ⟨rfl, rich_readerOk, rfl, by decide, by decide⟩

/-- `rich` with its reader at another position. -/
def readAt (pos : Nat) : State := { rich with br := { rich.br with pos := pos } }

theorem witness_BrReadBit_changed :
    ReaderOk (readAt 15) ∧ (readAt 15).br.pos < 8 * (readAt 15).br.len.toNat ∧
    (readAt 15).br.base.toNat + (readAt 15).br.pos / 8 ∈ (readAt 15).br.changed :=
  ⟨⟨by decide, by decide, by decide, by decide⟩, by decide, by decide⟩

theorem witness_BrReadBit_end : (readAt 16).br.active = true ∧ 8 * (readAt 16).br.len.toNat ≤ (readAt 16).br.pos := by
  decide

theorem witness_BrReadFixed :
    32 < (33#6).toNat ∧ (32#6).toNat ≤ 32 ∧ State.reset.br.active = false ∧ rich.br.active = true ∧
    8 * rich.br.len.toNat - rich.br.pos < (16#6).toNat ∧ ReaderOk rich ∧
    rich.br.pos + (15#6).toNat ≤ 8 * rich.br.len.toNat :=
  ⟨by decide, by decide, rfl, rfl, by decide, rich_readerOk, by decide⟩

theorem witness_BrReadFixed_unchanged :
    rich.br.base.toNat + (rich.br.pos + 6) / 8 ∉ rich.br.changed ∧ unchangedBits rich rich.br.pos (7#6).toNat := by
  refine ⟨by decide, fun i h => ?_⟩
  have h' : i < 7 := h
  interval_cases i <;> decide

theorem witness_BrCounts : State.reset.br.active = false ∧ ReaderOk rich ∧ rich.br.active = true :=
  ⟨rfl, rich_readerOk, rfl⟩

/-! ### The codec -/

theorem rich_codecRanges : codecRanges rich := by unfold codecRanges; decide

theorem witness_EncTable : DmemOk rich ∧ codecRanges rich := ⟨rich_dmemOk, rich_codecRanges⟩

theorem rich_counts : countBytes (inputBytes rich) = table := by decide

/-- The capacity is exactly the container's length. -/
theorem witness_EncSucceeds :
    DmemOk rich ∧ codecRanges rich ∧ 0 < rich.inLen.toNat ∧ (inputBytes rich).dedup.length ≤ 255 ∧
    containerLen (inputBytes rich).dedup.length (payloadSeq rich.ct.codes (inputBytes rich)).length = rich.outCap.toNat ∧
    deriveCodes (buildTree (countBytes (inputBytes rich))) = .ok rich.ct.codes :=
  ⟨rich_dmemOk, rich_codecRanges, by decide, by decide, by decide, by rw [rich_counts]; exact derive_table⟩

/-- The output range starts at the last input byte. -/
theorem witness_EncErrors_address : ¬codecRanges { rich with outBase := 3#32 } := by unfold codecRanges; decide

theorem witness_EncErrors_empty :
    codecRanges { rich with inLen := 0#32 } ∧ ({ rich with inLen := 0#32 } : State).inLen.toNat = 0 := by
  unfold codecRanges
  decide

theorem witness_EncErrors_capacity :
    codecRanges { rich with outCap := 17#32 } ∧ 0 < rich.inLen.toNat ∧ (inputBytes rich).dedup.length ≤ 255 ∧
    ({ rich with outCap := 17#32 } : State).outCap.toNat <
      containerLen (inputBytes rich).dedup.length (payloadSeq rich.ct.codes (inputBytes rich)).length := by
  unfold codecRanges
  decide

/-- Every byte value once (V-ENC-3). -/
def allBytes : State :=
  { State.reset with
    dmem := (List.range' 1 255).map fun k => (k, BitVec.ofNat 8 k)
    inLen := 256#32
    outBase := 0x400#32
    outCap := 0x800#32 }

set_option maxRecDepth 20000 in
theorem allBytes_input : inputBytes allBytes = (List.range 256).map (BitVec.ofNat 8) := by decide

theorem witness_EncErrors_range :
    codecRanges allBytes ∧ 0 < allBytes.inLen.toNat ∧ (inputBytes allBytes).dedup.length = 256 := by
  refine ⟨by unfold codecRanges; decide, by decide, ?_⟩
  have h : ((List.range 256).map (BitVec.ofNat 8)).Nodup := by
    refine List.Nodup.map_on (fun x hx y hy hxy => ?_) List.nodup_range
    have hxy := congrArg BitVec.toNat hxy
    rw [BitVec.toNat_ofNat, BitVec.toNat_ofNat] at hxy
    rw [List.mem_range] at hx hy
    omega
  rw [allBytes_input, h.dedup, List.length_map, List.length_range]

/-- The container of "aaab" as DEC's input, with just enough room. -/
def decoding : State := withInput container 0x400#32 4#32

theorem decoding_dmemOk : DmemOk decoding := ⟨by decide, by decide, by decide, by decide⟩

theorem decoding_codecRanges : codecRanges decoding := by unfold codecRanges; decide

set_option maxRecDepth 20000 in
theorem witness_DecSucceeds :
    DmemOk decoding ∧ codecRanges decoding ∧ table ≠ [] ∧ table.length ≤ 255 ∧ (table.map FtEntry.sym).Nodup ∧
    deriveCodes (buildTree table) = .ok rich.ct.codes ∧ (∀ c ∈ aaab, ∃ e ∈ table, e.sym = c) ∧
    aaab.length = totalWeight table ∧ aaab.length ≤ decoding.outCap.toNat ∧
    headerBits table ++ payloadSeq rich.ct.codes aaab <+: inputBits decoding :=
  ⟨decoding_dmemOk, decoding_codecRanges, by decide, by decide, by decide, derive_table, by decide, by decide, by decide,
    by decide⟩

/-- The last byte of the input is the first of the output range. -/
theorem witness_DecErrors_address : ¬codecRanges { decoding with outBase := 17#32 } := by unfold codecRanges; decide

theorem witness_DecErrors_empty : codecRanges { decoding with inLen := 0#32 } := by unfold codecRanges; decide

/-- DEC's input is some bytes. -/
def decodes (bytes : List Byte) : State := withInput bytes 0x400#32 4#32

theorem witness_DecErrors_count0 : codecRanges (decodes [0#8]) ∧ msbBits 0 8 <+: inputBits (decodes [0#8]) :=
  ⟨by unfold codecRanges; decide, by decide⟩

/-- A header that ends 24 bits into its first symbol. -/
theorem witness_DecErrors_noSymbol :
    codecRanges (decodes [2#8, 0#8, 0#8, 0#8]) ∧
    inputBits (decodes [2#8, 0#8, 0#8, 0#8]) = msbBits 2 8 ++ ([] : List FtEntry).flatMap entryBits ++ msbBits 0 24 ∧
    (msbBits 0 24).length < 32 :=
  ⟨by unfold codecRanges; decide, by decide, by decide⟩

/-- A header whose first symbol is 256. -/
theorem witness_DecErrors_range :
    inputBits (decodes [255#8, 0#8, 0#8, 1#8, 0#8]) =
      msbBits 255 8 ++ ([] : List FtEntry).flatMap entryBits ++ msbBits 256 32 ∧
    msbBits 256 32 <+: msbBits 256 32 ∧ 255 < 256 ∧ 256 < 2 ^ 32 :=
  ⟨by decide, List.prefix_rfl, by decide, by decide⟩

/-- A header of one entry, whose next symbol is given, with 24 bits of a weight after it. -/
def secondSymbol (sym : Byte) : State :=
  decodes [2#8, 0#8, 0#8, 0#8, 0x61#8, 0#8, 0#8, 0#8, 3#8, 0#8, 0#8, 0#8, sym, 0#8, 0#8, 0#8]

/-- The one entry of that header. -/
def firstEntry : List FtEntry := [{ sym := 0x61#8, w := 3#32 }]

set_option maxRecDepth 20000 in
theorem witness_DecErrors_repeated :
    inputBits (secondSymbol 0x61#8) = msbBits 2 8 ++ firstEntry.flatMap entryBits ++ (msbBits 0x61 32 ++ msbBits 0 24) ∧
    (∃ e ∈ firstEntry, e.sym.toNat = 0x61) ∧ (firstEntry.map FtEntry.sym).Nodup ∧ firstEntry.length < 2 :=
  ⟨by decide, by decide, by decide, by decide⟩

set_option maxRecDepth 20000 in
theorem witness_DecErrors_noWeight :
    codecRanges (secondSymbol 0xFF#8) ∧
    inputBits (secondSymbol 0xFF#8) = msbBits 2 8 ++ firstEntry.flatMap entryBits ++ (msbBits 255 32 ++ msbBits 0 24) ∧
    (∀ e ∈ firstEntry, e.sym.toNat ≠ 255) ∧ (msbBits 255 32 ++ msbBits 0 24).length < 64 :=
  ⟨by unfold codecRanges; decide, by decide, by decide, by decide⟩

set_option maxRecDepth 20000 in
theorem witness_DecErrors_capacity :
    codecRanges { decoding with outCap := 3#32 } ∧ headerBits table <+: inputBits { decoding with outCap := 3#32 } ∧
    ({ decoding with outCap := 3#32 } : State).outCap.toNat < totalWeight table :=
  ⟨by unfold codecRanges; decide, by decide, by decide⟩

/-- The container of "aaab" without its payload byte (V-DEC-4). -/
def noPayload : State := decodes (container.take 17)

set_option maxRecDepth 20000 in
theorem witness_DecErrors_noPayload :
    codecRanges noPayload ∧ DmemOk noPayload ∧ headerBits table <+: inputBits noPayload ∧
    totalWeight table ≤ noPayload.outCap.toNat ∧ deriveCodes (buildTree table) = .ok rich.ct.codes ∧
    (∀ c ∈ ([] : List Byte), ∃ e ∈ table, e.sym = c) ∧ ([] : List Byte).length < totalWeight table ∧
    inputBits noPayload = headerBits table ++ payloadSeq rich.ct.codes [] ++ [] ∧
    follow (buildTree table).nodes (buildTree table).root [] = some 2 ∧
    (buildTree table).nodes[2]? = some (.internal 1#9 0#9 4#40) :=
  ⟨by unfold codecRanges; decide, ⟨by decide, by decide, by decide, by decide⟩, by decide, by decide, derive_table,
    by decide, by decide, by decide, by decide, by decide⟩

/-- The core after ENC of "aaab". -/
def encoded : State := after (exec .enc (withInput aaab 0x400#32 18#32))

set_option maxRecDepth 20000 in
theorem witness_RoundTrip :
    DmemOk (withInput aaab 0x400#32 18#32) ∧ exec .enc (withInput aaab 0x400#32 18#32) = .next encoded ∧
    encoded.errcode = .ok ∧ DmemOk decoding ∧ codecRanges decoding ∧ decoding.inLen = encoded.outLen ∧
    (withInput aaab 0x400#32 18#32).inLen.toNat ≤ decoding.outCap.toNat ∧
    ∀ k, k < encoded.outLen.toNat →
      Memory.read decoding.dmem (decoding.inBase.toNat + k) =
        Memory.read encoded.dmem ((withInput aaab 0x400#32 18#32).outBase.toNat + k) :=
  ⟨⟨by decide, by decide, by decide, by decide⟩, eq_after (by decide), by decide, decoding_dmemOk,
    decoding_codecRanges, by decide, by decide, by decide⟩

/-- The states of `witness_RoundTrip` meet the premises, and so does a DEC with no room for the input. -/
theorem witness_HeaderFidelity :
    (DmemOk (withInput aaab 0x400#32 18#32) ∧ exec .enc (withInput aaab 0x400#32 18#32) = .next encoded ∧
      encoded.errcode = .ok ∧ DmemOk decoding ∧ codecRanges decoding ∧ decoding.inLen = encoded.outLen ∧
      ∀ k, k < encoded.outLen.toNat →
        Memory.read decoding.dmem (decoding.inBase.toNat + k) =
          Memory.read encoded.dmem ((withInput aaab 0x400#32 18#32).outBase.toNat + k)) ∧
    codecRanges { decoding with outCap := 0#32 } :=
  ⟨⟨witness_RoundTrip.1, witness_RoundTrip.2.1, witness_RoundTrip.2.2.1, witness_RoundTrip.2.2.2.1,
    witness_RoundTrip.2.2.2.2.1, witness_RoundTrip.2.2.2.2.2.1, witness_RoundTrip.2.2.2.2.2.2.2⟩,
    by unfold codecRanges; decide⟩

set_option maxRecDepth 20000 in
theorem witness_HeaderFidelity_entry : encoded.ft[1]? = some { sym := 0x62#8, w := 1#32 } := by decide

end Sys2Proof.Tests
end

section
/-! PROOFS. The statements of spec/00_scope.md: whose turn it is, that the engine and a dutiful host never stop, the
invariant at the start of a run, and how bit sequences are spelt. -/

namespace Sys2Proof.Machine

/-! ### A part of a command that ends -/

/-- A part of a command begun in `s` ends with a value or with an outcome code, and not with a fault; CMD and LOST are
those of `s`. -/
inductive Ends {α : Type} (s : State) : Res α → Prop where
  | ok (a : α) (t : State) (hlost : t.lost = s.lost) (hcmd : t.cmd = s.cmd) : Ends s (.ok a t)
  | raise (e : ErrCode) (t : State) (hlost : t.lost = s.lost) (hcmd : t.cmd = s.cmd) : Ends s (.raise e t)

/-- The outcome is a completion of a command issued in `s`: BUSY is 0, DONE is 1, CMD and LOST are those of `s`
(60 R506). -/
def Completes (s : State) (o : Host.Outcome State Fault Refusal) : Prop :=
  ∃ t, o = .next t ∧ t.busy = false ∧ t.done = true ∧ t.lost = s.lost ∧ t.cmd = s.cmd

theorem complete_completes (e : ErrCode) {s t : State} (hlost : t.lost = s.lost) (hcmd : t.cmd = s.cmd) :
    Completes s (complete e t) :=
  ⟨_, complete_eq e t, rfl, rfl, hlost, hcmd⟩

/-- What ends when begun in `t` ends when begun in a state with the CMD and LOST of `t`. -/
theorem Ends.congr {α : Type} {s t : State} {r : Res α} (h : Ends t r) (hlost : t.lost = s.lost)
    (hcmd : t.cmd = s.cmd) : Ends s r := by
  cases h with
  | ok a u hl hc => exact .ok a u (hl.trans hlost) (hc.trans hcmd)
  | raise e u hl hc => exact .raise e u (hl.trans hlost) (hc.trans hcmd)

/-- A command whose body ends completes. -/
theorem Ends.completes {α : Type} {s : State} {r : Res α} (h : Ends s r) : Completes s (conclude r) := by
  cases h with
  | ok a t hlost hcmd => exact complete_completes .ok hlost hcmd
  | raise e t hlost hcmd => exact complete_completes e hlost hcmd

/-! ### The table, the tree and the codes -/

theorem ftAddBody_ends (sym : Byte) (s : State) : Ends s (ftAddBody sym s) := by
  unfold ftAddBody
  split_ifs
  · exact .raise _ _ rfl rfl
  · exact .ok _ _ rfl rfl

theorem ftGetBody_ends (s : State) : Ends s (ftGetBody s) := by
  unfold ftGetBody
  split
  · exact .raise _ _ rfl rfl
  · exact .ok _ _ rfl rfl

theorem tbBuildBody_ends (s : State) : Ends s (tbBuildBody s) := by
  unfold tbBuildBody
  split_ifs
  · exact .raise _ _ rfl rfl
  · exact .ok _ _ rfl rfl

theorem tbNodeBody_ends (s : State) : Ends s (tbNodeBody s) := by
  unfold tbNodeBody
  split_ifs
  · split
    · exact .raise _ _ rfl rfl
    · exact .ok _ _ rfl rfl
  · exact .raise _ _ rfl rfl

/-- The walk of CT_DERIVE meets a node at every turn: a valid tree is the builder's (40 R251, R269, 41 R300). -/
theorem ctDeriveBody_ends {s : State} (hft : FtOk s) (htree : TreeOk s) : Ends s (ctDeriveBody s) := by
  unfold ctDeriveBody
  split_ifs with hv
  · obtain ⟨hne, ht⟩ := htree hv
    obtain ⟨codes, hc, -⟩ := deriveCodes_spec (treeOf_buildTree s.ft hne hft) hft
    rw [ht, hc]
    exact .ok _ _ rfl rfl
  · exact .raise _ _ rfl rfl

theorem ctLookupBody_ends (sym : Byte) (s : State) : Ends s (ctLookupBody sym s) := by
  unfold ctLookupBody
  split
  · exact .raise _ _ rfl rfl
  · exact .ok _ _ rfl rfl

/-! ### The packer -/

theorem bpInitBody_ends (s : State) : Ends s (bpInitBody s) := by
  unfold bpInitBody
  split_ifs
  · exact .ok _ _ rfl rfl
  · exact .raise _ _ rfl rfl

section
variable {s : State} (hm : DmemOk s) (hp : PackerOk s)
include hm hp

/-- A sequence that fits goes to bytes of the packer's range, which lies in DMEM (20 R157, 42 R352). -/
theorem appendSeq_ends (seq : Bits) : Ends s (appendSeq seq s) := by
  rcases appendSeq_cases seq s hm hp with ⟨-, t, h, ha, -⟩ | ⟨-, h⟩
  · rw [h]
    exact .ok _ _ (by rw [ha.rest]) (by rw [ha.rest])
  · rw [h]
    exact .raise _ _ rfl rfl

theorem bpAppendBitBody_ends (bit : Bool) : Ends s (bpAppendBitBody bit s) := by
  unfold bpAppendBitBody
  split_ifs
  · exact appendSeq_ends hm hp _
  · exact .raise _ _ rfl rfl

theorem bpAppendSeqBody_ends : Ends s (bpAppendSeqBody s) := by
  unfold bpAppendSeqBody
  split_ifs
  · exact .raise _ _ rfl rfl
  · exact appendSeq_ends hm hp _
  · exact .raise _ _ rfl rfl

theorem bpAppendFixedBody_ends (width : BitVec 6) : Ends s (bpAppendFixedBody width s) := by
  unfold bpAppendFixedBody
  split_ifs
  · exact .raise _ _ rfl rfl
  · exact .raise _ _ rfl rfl
  · exact .raise _ _ rfl rfl
  · exact appendSeq_ends hm hp _

theorem bpAppendCodeBody_ends (sym : Byte) : Ends s (bpAppendCodeBody sym s) := by
  unfold bpAppendCodeBody
  split_ifs
  · split
    · exact .raise _ _ rfl rfl
    · exact appendSeq_ends hm hp _
  · exact .raise _ _ rfl rfl

theorem bpFinishBody_ends : Ends s (bpFinishBody s) := by
  by_cases ha : s.bp.active = true
  · obtain ⟨t, h, hf, -⟩ := bpFinishBody_active s hm hp ha
    rw [h]
    exact .ok _ _ (by rw [hf.rest]) (by rw [hf.rest])
  · rw [bpFinishBody, if_neg ha]
    exact .raise _ _ rfl rfl

end

/-! ### The reader -/

theorem brInitBody_ends (s : State) : Ends s (brInitBody s) := by
  unfold brInitBody
  split_ifs
  · exact .ok _ _ rfl rfl
  · exact .raise _ _ rfl rfl

/-- A bit that remains lies in the reader's buffer, and so in DMEM (43 R400, R402). -/
theorem brReadBitBody_ends {s : State} (hr : ReaderOk s) : Ends s (brReadBitBody s) := by
  unfold brReadBitBody
  split_ifs with _ h0
  · exact .raise _ _ rfl rfl
  · exact .raise _ _ rfl rfl
  · rw [getBit_remaining s hr (by simp only [remaining] at h0; omega)]
    split_ifs
    · exact .ok _ _ rfl rfl
    · exact .ok _ _ rfl rfl

theorem brReadFixedBody_ends {s : State} (hr : ReaderOk s) (width : BitVec 6) : Ends s (brReadFixedBody width s) := by
  unfold brReadFixedBody
  split_ifs with _ _ hw
  · exact .raise _ _ rfl rfl
  · exact .raise _ _ rfl rfl
  · exact .raise _ _ rfl rfl
  · have hpos := hr.posLe
    obtain ⟨v, d, -, h, -⟩ := readFixed_remaining width.toNat s hr (by simp only [remaining] at hw; omega)
    rw [h]
    exact .ok _ _ rfl rfl

theorem brRemainingBody_ends (s : State) : Ends s (brRemainingBody s) := by
  unfold brRemainingBody
  split_ifs
  · exact .ok _ _ rfl rfl
  · exact .raise _ _ rfl rfl

theorem brPositionBody_ends (s : State) : Ends s (brPositionBody s) := by
  unfold brPositionBody
  split_ifs
  · exact .ok _ _ rfl rfl
  · exact .raise _ _ rfl rfl

/-! ### ENC and DEC -/

/-- The checks of ENC's step 4, and what follows them, on a state whose table is the one of the input (44 R464, R465). -/
theorem encChecked_ends {s : State} (hm : DmemOk s) (hr : codecRangesOk s = true)
    (hft : s.ft = countBytes (inputBytes s)) : Ends s (encChecked s) := by
  have hp : payloadBits s.ft s.ct.codes = (payloadSeq s.ct.codes (inputBytes s)).length := by
    rw [hft]
    exact payloadBits_countBytes _ _ (by rw [inputBytes_length]; exact s.inLen.isLt)
  by_cases hn : s.ft.length ≤ 255
  · by_cases hc : containerLen s.ft.length (payloadBits s.ft s.ct.codes) ≤ s.outCap.toNat
    · obtain ⟨t, h, hw, -⟩ := encWrite_fits s hm hr (hp ▸ hc) (payloadBits s.ft s.ct.codes)
      rw [encChecked_fits s hn hc, h]
      exact .ok _ _ (by rw [hw.rest]; rfl) (by rw [hw.rest]; rfl)
    · rw [encChecked_capacity s hn (by omega)]
      exact .raise _ _ rfl rfl
  · rw [encChecked_range s (by omega)]
    exact .raise _ _ rfl rfl

theorem encBody_ends {s : State} (hm : DmemOk s) : Ends s (encBody s) := by
  rcases encBody_cases s with ⟨-, h⟩ | ⟨-, -, h⟩ | ⟨hr, -, codes, -, -, h⟩
  · rw [h]
    exact .raise _ _ rfl rfl
  · rw [h]
    exact .raise _ _ rfl rfl
  · rw [h]
    exact (encChecked_ends (s := encPrepared s codes) (hm.congr rfl rfl) hr rfl).congr rfl rfl

/-- Steps 3 to 5 of DEC after any header: every walk ends at a leaf or at the end of the stream, and every symbol goes to
the output range, which is in DMEM and not in the input (44 R483, R484). -/
theorem decRest_ends {s : State} (hm : DmemOk s) (hf : Fresh s) (hft : FtOk s)
    (hout : s.outBase.toNat + s.outCap.toNat ≤ s.dmemSize)
    (hdis : ∀ x, s.outBase.toNat ≤ x → x < s.outBase.toNat + s.outCap.toNat → inReaderBuffer s.br x = false) :
    Ends s (decRest s) := by
  by_cases hne : s.ft = []
  · rw [decRest, if_pos (by simp [hne])]
    exact .raise _ _ rfl rfl
  rw [decRest_ok s s.ft rfl hne]
  split_ifs with hc
  · exact .raise _ _ rfl rfl
  · obtain ⟨k, m, -, -, -, h⟩ := decPayload_total (ft := s.ft) (totalWeight s.ft) s.outBase.toNat (treed s.ft s)
      (hf.congr rfl rfl) (treeOf_buildTree s.ft hne hft) (by show _ ≤ s.dmemSize; omega) (hm.congr rfl rfl)
      fun x h1 h2 => hdis x h1 (by omega)
    rcases h with h | h
    · rw [h]
      exact .ok _ _ rfl rfl
    · rw [h]
      exact .raise _ _ rfl rfl

/-- Where the ranges of ENC and DEC pass their checks, no output byte is an input byte (20 R158). -/
theorem output_not_inReaderBuffer {s : State} (h : codecRanges s) (x : Nat) (h1 : s.outBase.toNat ≤ x)
    (h2 : x < s.outBase.toNat + s.outCap.toNat) : inReaderBuffer (freshReader s.inBase s.inLen) x = false := by
  obtain ⟨-, -, hdis⟩ := h
  refine decide_eq_false fun ⟨h3, h4⟩ => ?_
  simp only [freshReader] at h3 h4
  omega

theorem decBody_ends {s : State} (hm : DmemOk s) : Ends s (decBody s) := by
  by_cases hr : codecRanges s
  · rw [decBody_ranges s hr]
    obtain ⟨ft, k, hn, hk, h | ⟨e, h⟩⟩ := decHeader_total (decStart s) (decStart_fresh s hr) List.nodup_nil
    · rw [h, Res.bind_ok]
      have hf := (decStart_fresh s hr).consumed k hk
      have hout := output_not_inReaderBuffer hr
      exact (decRest_ends (s := { consumed k (decStart s) with ft := ft }) (hm.congr rfl rfl) (hf.congr rfl rfl) hn
        hr.2.1 hout).congr rfl rfl
    · rw [h]
      exact .raise _ _ rfl rfl
  · rw [codecRanges_iff, Bool.not_eq_true] at hr
    rw [decBody, hr]
    exact .raise _ _ rfl rfl

/-! ### Turns -/

/-- Every command that runs on a state with the invariant completes (00 R21, 60 R506). -/
theorem exec_completes (i : Instr) {s : State} (h : Inv s) : Completes s (exec i s) := by
  cases i with
  | nop => exact complete_completes .ok rfl rfl
  | ftClear => exact complete_completes .ok rfl rfl
  | ftAdd sym => exact (ftAddBody_ends sym s).completes
  | ftGet => exact (ftGetBody_ends s).completes
  | tbBuild => exact (tbBuildBody_ends s).completes
  | tbNode => exact (tbNodeBody_ends s).completes
  | ctDerive => exact (ctDeriveBody_ends h.ft h.tree).completes
  | ctLookup sym => exact (ctLookupBody_ends sym s).completes
  | bpInit => exact (bpInitBody_ends s).completes
  | bpAppendBit bit => exact (bpAppendBitBody_ends h.dmem h.bp bit).completes
  | bpAppendSeq => exact (bpAppendSeqBody_ends h.dmem h.bp).completes
  | bpAppendFixed width => exact (bpAppendFixedBody_ends h.dmem h.bp width).completes
  | bpAppendCode sym => exact (bpAppendCodeBody_ends h.dmem h.bp sym).completes
  | bpFinish => exact (bpFinishBody_ends h.dmem h.bp).completes
  | brInit => exact (brInitBody_ends s).completes
  | brReadBit => exact (brReadBitBody_ends h.br).completes
  | brReadFixed width => exact (brReadFixedBody_ends h.br width).completes
  | brRemaining => exact (brRemainingBody_ends s).completes
  | brPosition => exact (brPositionBody_ends s).completes
  | enc => exact (encBody_ends h.dmem).completes
  | dec => exact (decBody_ends h.dmem).completes

/-- The command in flight completes, whether its word is legal or not (60 R506, R507). -/
theorem engineStep_completes {s : State} (h : Inv s) (hb : s.busy = true) : Completes s (engineStep s) := by
  rw [engineStep, if_pos hb]
  split
  · exact exec_completes _ h
  · exact complete_completes .illegalCommand rfl rfl

/-- The engine with a command in flight completes it, and idle it does nothing: it never stops (60 R502, R523). -/
theorem engineStep_next {s : State} (h : Inv s) : ∃ t, engineStep s = .next t := by
  by_cases hb : s.busy = true
  · obtain ⟨t, ht, -⟩ := engineStep_completes h hb
    exact ⟨t, ht⟩
  · exact ⟨s, if_neg hb⟩

/-- The engine's turn is the engine's step on the rest of the agenda. -/
theorem step_of_engineNext {s : State} (h : engineNext s = true) : step s = engineStep (afterTurn s) := by
  rcases takeTurn_cases s with ⟨-, ht⟩ | ⟨m, rest, ha, -⟩
  · exact ht
  · simp [engineNext, ha] at h

/-- The duty of a move does not hang on the agenda. -/
@[simp] theorem moveKeepsDuty_afterTurn (m : HostMove) (s : State) :
    moveKeepsDuty m (afterTurn s) = moveKeepsDuty m s := rfl

/-- A move that keeps the host's duty meets a byte that exists and that the command in flight leaves alone (70 R573). -/
theorem hostMove_next {m : HostMove} {s : State} (h : moveKeepsDuty m s = true) : ∃ t, hostMove m s = .next t := by
  cases m with
  | regWrite offset width value => exact ⟨_, rfl⟩
  | regRead offset width => exact ⟨_, rfl⟩
  | dmemWrite addr value =>
    simp only [moveKeepsDuty, Bool.and_eq_true, decide_eq_true_eq, Bool.not_eq_true'] at h
    obtain ⟨⟨hlt, hread⟩, hwrite⟩ := h
    refine ⟨storeByte addr.toNat value s, ?_⟩
    simp [hostMove, hostDmemWrite, hread, hwrite, Nat.not_le.2 hlt]
  | dmemRead addr =>
    simp only [moveKeepsDuty, Bool.and_eq_true, decide_eq_true_eq, Bool.not_eq_true'] at h
    obtain ⟨hlt, hwrite⟩ := h
    refine ⟨answer (.byte (Memory.read s.dmem addr.toNat)) s, ?_⟩
    simp [hostMove, hostDmemRead, hwrite, Nat.not_le.2 hlt]
  | hardwareReset => exact ⟨_, rfl⟩
  | observeIrq => exact ⟨_, rfl⟩

/-! ### The start of a run -/

/-- The invariant holds where a run starts (10 R80, 70 R554). -/
theorem initial_inv {size : Nat} {init : Memory} (hpos : 1 ≤ size) (hle : size ≤ 2 ^ 32) (hwf : Memory.wf init)
    (hb : ∀ c ∈ init, c.1 < size) : Inv (State.initial size init) where
  dmem := ⟨hpos, hle, hwf, hb⟩
  ft := List.nodup_nil
  tree := treeOk_false _ rfl
  ct := ctOk_false _ rfl
  bp := ⟨Nat.zero_le _, Nat.le_refl 0, fun _ _ => BitVec.getLsbD_zero⟩
  br := ⟨Nat.zero_le _, Nat.le_refl 0, .nil, fun _ h => absurd h List.not_mem_nil⟩
  status := fun h => by cases h

/-! ### Bit sequences -/

/-- A bit of the window is a bit of one of its eight words (10 R64). -/
theorem bitwinBit_eq_getLsbD (win : Vector Word 8) (i : Nat) (h : i / 32 < 8) :
    bitwinBit win i = win[i / 32].getLsbD (31 - i % 32) := by
  simp [bitwinBit, List.getD_eq_getElem?_getD, h]

/-! ### The statements -/

/-- Settles O6: the engine's turn is its step, and the step of a legal word is its command. -/
theorem stepRunsDecodedCommand : Obligations.StepRunsDecodedCommand := by
  intro s i hnext hbusy hdec
  have hb : (afterTurn s).busy = true := hbusy
  have hf : fetch (afterTurn s) = .ok i := hdec
  rw [step_of_engineNext hnext, engineStep, if_pos hb, hf]

/-- Settles O25: every part of the invariant holds of the empty units of a reset core, whatever DMEM holds. -/
theorem invAtReset : Obligations.InvAtReset :=
  ⟨fun _ _ hpos hle hwf hb => initial_inv hpos hle hwf hb,
    initial_inv (by decide) (by decide) (by decide) fun _ h => absurd h List.not_mem_nil⟩

/-- Settles O44, from the laws of `msbBits` and of the window. -/
theorem bitSequences : Obligations.BitSequences := by
  refine ⟨fun v w i h => ⟨msbBits_length v w, msbBits_getD v w i h⟩, fun win len i h => ⟨bitwinSeq_length win len, ?_⟩⟩
  rw [bitwinSeq_getD win len i h, bitwinBit_eq_getLsbD]

/-- Settles O28: whatever word is in flight, the engine's step on a state with the invariant completes it. -/
theorem commandsComplete : Obligations.CommandsComplete := by
  intro s hinv hbusy hnext
  rw [step_of_engineNext hnext]
  exact engineStep_completes (inv_afterTurn hinv) hbusy

/-- Settles O27, by whose turn it is: the engine never stops on a state with the invariant, and a host move stops only by
breaking the duty. -/
theorem dutifulStepsComplete : Obligations.DutifulStepsComplete := by
  intro s hinv hduty
  rcases takeTurn_cases s with ⟨-, ht⟩ | ⟨m, rest, ha, ht⟩
  · rw [step, ht]
    exact engineStep_next (inv_afterTurn hinv)
  · have hm : moveKeepsDuty m s = true := by simpa [dutyKept, ha] using hduty
    rw [step, ht]
    exact hostMove_next hm

end Sys2Proof.Machine
end

section
/-! PROOFS. The statements of spec/10_state.md: what the host reads and writes of the registers, what a reset and each
command leave of the state, and the invariant that every step keeps. -/

namespace Sys2Proof.Machine

/-! ### Where a part of a command may end -/

/-- Wherever this part of a command ends, its outcome code and its state are in `P`; a fault ends nowhere. -/
inductive Res.EndsIn {α : Type} (P : ErrCode → State → Prop) : Res α → Prop where
  | ok (a : α) (t : State) (h : P .ok t) : EndsIn P (.ok a t)
  | raise (e : ErrCode) (t : State) (h : P e t) : EndsIn P (.raise e t)
  | fault (f : Fault) : EndsIn P (.fault f)

/-- A command whose body ends in `P` answers the completion of a state of `P` (60 R506). -/
theorem Res.EndsIn.of_conclude {α : Type} {P : ErrCode → State → Prop} {r : Res α} {t : State} (h : r.EndsIn P)
    (ht : conclude r = .next t) : ∃ e u, P e u ∧ t = completed e u := by
  cases h with
  | ok a u h => cases ht; exact ⟨.ok, u, h, rfl⟩
  | raise e u h => cases ht; exact ⟨e, u, h, rfl⟩
  | fault f => cases ht

/-! ### The invariant without its clause on STATUS -/

/-- What the body of a command keeps of the invariant; completion then makes the clause on STATUS true. -/
structure CoreOk (s : State) : Prop where
  dmem : DmemOk s
  ft : FtOk s
  tree : TreeOk s
  ct : CtOk s
  bp : PackerOk s
  br : ReaderOk s

theorem Inv.coreOk {s : State} (h : Inv s) : CoreOk s := ⟨h.dmem, h.ft, h.tree, h.ct, h.bp, h.br⟩

theorem CoreOk.inv_completed {s : State} (e : ErrCode) (h : CoreOk s) : Inv (completed e s) :=
  Machine.inv_completed e h.dmem h.ft h.tree h.ct h.bp h.br

/-- An update of DMEM, the packer and the reader leaves the table, the tree and the codes in order. -/
theorem CoreOk.of_units {s t : State} (h : CoreOk s) (hft : t.ft = s.ft) (htree : t.tree = s.tree) (hct : t.ct = s.ct)
    (hm : DmemOk t) (hp : PackerOk t) (hr : ReaderOk t) : CoreOk t where
  dmem := hm
  ft := by simpa only [FtOk, hft] using h.ft
  tree := by simpa only [TreeOk, hft, htree] using h.tree
  ct := by simpa only [CtOk, hct, htree] using h.ct
  bp := hp
  br := hr

/-- An update of the other fields leaves everything in order. -/
theorem CoreOk.congr {s t : State} (h : CoreOk s) (hmem : t.dmem = s.dmem) (hsize : t.dmemSize = s.dmemSize)
    (hft : t.ft = s.ft) (htree : t.tree = s.tree) (hct : t.ct = s.ct) (hbp : t.bp = s.bp) (hbr : t.br = s.br) :
    CoreOk t :=
  h.of_units hft htree hct (h.dmem.congr hmem hsize) (h.bp.congr hbp hsize) (h.br.congr hbr hsize)

/-- A new table of distinct symbols is in order once the tree and the codes are invalid (40 R251). -/
theorem CoreOk.newTable {s : State} (h : CoreOk s) {ft : List FtEntry} (hn : (ft.map FtEntry.sym).Nodup) :
    CoreOk (invalidate { s with ft := ft }) where
  dmem := h.dmem.congr rfl rfl
  ft := hn
  tree := treeOk_false _ rfl
  ct := ctOk_false _ rfl
  bp := h.bp.congr rfl rfl
  br := h.br.congr rfl rfl

theorem clearTable_coreOk {s : State} (h : CoreOk s) : CoreOk (clearTable s) := h.newTable List.nodup_nil

/-- Building the tree of a table that is not empty keeps order (40 R260, R267). -/
theorem treed_coreOk {s : State} (h : CoreOk s) (hne : s.ft ≠ []) : CoreOk (treed s.ft s) where
  dmem := h.dmem.congr rfl rfl
  ft := h.ft
  tree := fun _ => ⟨hne, rfl⟩
  ct := ctOk_false _ rfl
  bp := h.bp.congr rfl rfl
  br := h.br.congr rfl rfl

theorem freshReader_ok {s : State} (h : s.inBase.toNat + s.inLen.toNat ≤ s.dmemSize) :
    ReaderOk { s with br := freshReader s.inBase s.inLen } :=
  ⟨h, Nat.zero_le _, .nil, fun _ ha => absurd ha List.not_mem_nil⟩

/-! ### Every command keeps the invariant -/

/-- This part of a command ends only in states that are in order. -/
abbrev Keeps {α : Type} (r : Res α) : Prop := r.EndsIn fun _ t => CoreOk t

section
variable {s : State} (h : CoreOk s)
include h

theorem ftAddBody_keeps (sym : Byte) : Keeps (ftAddBody sym s) := by
  unfold ftAddBody
  split_ifs with hs
  · exact .raise _ _ h
  · have hnew : sym ∉ s.ft.map FtEntry.sym := by rwa [← ftHas_iff]
    refine .ok _ _ (h.newTable ?_)
    rw [List.map_append]
    exact nodup_append_singleton _ _ h.ft hnew

theorem ftGetBody_keeps : Keeps (ftGetBody s) := by
  unfold ftGetBody
  split
  · exact .raise _ _ h
  · exact .ok _ _ (h.congr rfl rfl rfl rfl rfl rfl rfl)

theorem tbBuildBody_keeps : Keeps (tbBuildBody s) := by
  unfold tbBuildBody
  split_ifs with he
  · exact .raise _ _ h
  · exact .ok _ _ (treed_coreOk h (by simpa using he))

theorem tbNodeBody_keeps : Keeps (tbNodeBody s) := by
  unfold tbNodeBody
  split_ifs
  · split
    · exact .raise _ _ h
    · exact .ok _ _ (h.congr rfl rfl rfl rfl rfl rfl rfl)
  · exact .raise _ _ h

theorem ctDeriveBody_keeps : Keeps (ctDeriveBody s) := by
  unfold ctDeriveBody
  split_ifs with hv
  · split
    · exact .fault _
    · rename_i codes hc
      exact .ok _ _
        ⟨h.dmem.congr rfl rfl, h.ft, h.tree, fun _ => ⟨hv, hc⟩, h.bp.congr rfl rfl, h.br.congr rfl rfl⟩
  · exact .raise _ _ h

theorem ctLookupBody_keeps (sym : Byte) : Keeps (ctLookupBody sym s) := by
  unfold ctLookupBody
  split
  · exact .raise _ _ h
  · exact .ok _ _ (h.congr rfl rfl rfl rfl rfl rfl rfl)

/-- A packer starts on a range that was checked (20 R157, 42 R353). -/
theorem bpInitBody_keeps : Keeps (bpInitBody s) := by
  unfold bpInitBody
  split_ifs with hr
  · exact .ok _ _ (h.of_units rfl rfl rfl (h.dmem.congr rfl rfl) (freshPacker_ok s (of_decide_eq_true hr))
      (h.br.congr rfl rfl))
  · exact .raise _ _ h

theorem appendSeq_keeps (seq : Bits) : Keeps (appendSeq seq s) := by
  rcases appendSeq_cases seq s h.dmem h.bp with ⟨-, t, ht, ha, hm, hp, hr⟩ | ⟨-, ht⟩
  · rw [ht]
    exact .ok _ _ (h.of_units (by rw [ha.rest]) (by rw [ha.rest]) (by rw [ha.rest]) hm hp (hr h.br))
  · rw [ht]
    exact .raise _ _ h

theorem bpAppendBitBody_keeps (bit : Bool) : Keeps (bpAppendBitBody bit s) := by
  unfold bpAppendBitBody
  split_ifs
  · exact appendSeq_keeps h _
  · exact .raise _ _ h

theorem bpAppendSeqBody_keeps : Keeps (bpAppendSeqBody s) := by
  unfold bpAppendSeqBody
  split_ifs
  · exact .raise _ _ h
  · exact appendSeq_keeps h _
  · exact .raise _ _ h

theorem bpAppendFixedBody_keeps (width : BitVec 6) : Keeps (bpAppendFixedBody width s) := by
  unfold bpAppendFixedBody
  split_ifs
  · exact .raise _ _ h
  · exact .raise _ _ h
  · exact .raise _ _ h
  · exact appendSeq_keeps h _

theorem bpAppendCodeBody_keeps (sym : Byte) : Keeps (bpAppendCodeBody sym s) := by
  unfold bpAppendCodeBody
  split_ifs
  · split
    · exact .raise _ _ h
    · exact appendSeq_keeps h _
  · exact .raise _ _ h

theorem bpFinishBody_keeps : Keeps (bpFinishBody s) := by
  by_cases ha : s.bp.active = true
  · obtain ⟨t, ht, hf, hm, hp, hr⟩ := bpFinishBody_active s h.dmem h.bp ha
    rw [ht]
    exact .ok _ _ (h.of_units (by rw [hf.rest]) (by rw [hf.rest]) (by rw [hf.rest]) hm hp (hr h.br))
  · rw [bpFinishBody, if_neg ha]
    exact .raise _ _ h

/-- A reader starts on a range that was checked (20 R157, 43 R403). -/
theorem brInitBody_keeps : Keeps (brInitBody s) := by
  unfold brInitBody
  split_ifs with hr
  · exact .ok _ _ (h.of_units rfl rfl rfl (h.dmem.congr rfl rfl) (h.bp.congr rfl rfl)
      (freshReader_ok (of_decide_eq_true hr)))
  · exact .raise _ _ h

/-- Bits that remain are consumed: the cursor stays in the buffer (43 R402). -/
theorem consumed_coreOk {n : Nat} (hn : n ≤ remaining s) (d : Nat) : CoreOk { consumed n s with draws := d } := by
  have hpos := h.br.posLe
  simp only [remaining] at hn
  exact h.of_units rfl rfl rfl (h.dmem.congr rfl rfl) (h.bp.congr rfl rfl) (consumed_readerOk n d s h.br (by omega))

theorem brReadBitBody_keeps : Keeps (brReadBitBody s) := by
  unfold brReadBitBody
  split_ifs with _ h0
  · exact .raise _ _ h
  · exact .raise _ _ h
  · have hread := fun d => consumed_coreOk h (n := 1) (by omega) d
    rw [getBit_remaining s h.br (by simp only [remaining] at h0; omega)]
    split_ifs
    · exact .ok _ _ ((hread (s.draws + 1)).congr rfl rfl rfl rfl rfl rfl rfl)
    · exact .ok _ _ ((hread s.draws).congr rfl rfl rfl rfl rfl rfl rfl)

theorem brReadFixedBody_keeps (width : BitVec 6) : Keeps (brReadFixedBody width s) := by
  unfold brReadFixedBody
  split_ifs with _ _ hw
  · exact .raise _ _ h
  · exact .raise _ _ h
  · exact .raise _ _ h
  · have hpos := h.br.posLe
    obtain ⟨v, d, -, ht, -⟩ := readFixed_remaining width.toNat s h.br (by simp only [remaining] at hw; omega)
    rw [ht]
    exact .ok _ _ ((consumed_coreOk h (by omega) d).congr rfl rfl rfl rfl rfl rfl rfl)

theorem brRemainingBody_keeps : Keeps (brRemainingBody s) := by
  unfold brRemainingBody
  split_ifs
  · exact .ok _ _ (h.congr rfl rfl rfl rfl rfl rfl rfl)
  · exact .raise _ _ h

theorem brPositionBody_keeps : Keeps (brPositionBody s) := by
  unfold brPositionBody
  split_ifs
  · exact .ok _ _ (h.congr rfl rfl rfl rfl rfl rfl rfl)
  · exact .raise _ _ h

/-- The checks of ENC's step 4, and what follows them, where the table is the one of the input (44 R464, R465). -/
theorem encChecked_keeps (hr : codecRangesOk s = true) (hft : s.ft = countBytes (inputBytes s)) :
    Keeps (encChecked s) := by
  have hp : payloadBits s.ft s.ct.codes = (payloadSeq s.ct.codes (inputBytes s)).length := by
    rw [hft]
    exact payloadBits_countBytes _ _ (by rw [inputBytes_length]; exact s.inLen.isLt)
  by_cases hn : s.ft.length ≤ 255
  · by_cases hc : containerLen s.ft.length (payloadBits s.ft s.ct.codes) ≤ s.outCap.toNat
    · obtain ⟨t, ht, hw, hm, hpk, hro⟩ := encWrite_fits s h.dmem hr (hp ▸ hc) (payloadBits s.ft s.ct.codes)
      rw [encChecked_fits s hn hc, ht]
      have ht' : CoreOk t := h.of_units (by rw [hw.rest]) (by rw [hw.rest]) (by rw [hw.rest]) hm hpk (hro h.br)
      exact .ok _ _ (ht'.congr rfl rfl rfl rfl rfl rfl rfl)
    · rw [encChecked_capacity s hn (by omega)]
      exact .raise _ _ (h.congr rfl rfl rfl rfl rfl rfl rfl)
  · rw [encChecked_range s (by omega)]
    exact .raise _ _ (h.congr rfl rfl rfl rfl rfl rfl rfl)

/-- The table ENC counts, with its tree and its codes, is in order (44 R461 to R463). -/
theorem encPrepared_coreOk (hpos : 0 < s.inLen.toNat) {codes : Codes}
    (hc : deriveCodes (buildTree (countBytes (inputBytes s))) = .ok codes) : CoreOk (encPrepared s codes) where
  dmem := h.dmem.congr rfl rfl
  ft := countBytes_nodup _
  tree := fun _ => ⟨by rw [Ne, encPrepared, countBytes_eq_nil_iff, inputBytes_eq_nil_iff]; omega, rfl⟩
  ct := fun _ => ⟨rfl, hc⟩
  bp := h.bp.congr rfl rfl
  br := h.br.congr rfl rfl

theorem encBody_keeps : Keeps (encBody s) := by
  rcases encBody_cases s with ⟨-, hb⟩ | ⟨-, -, hb⟩ | ⟨hr, hpos, codes, hc, -, hb⟩
  · rw [hb]
    exact .raise _ _ h
  · rw [hb]
    exact .raise _ _ ((clearTable_coreOk h).congr rfl rfl rfl rfl rfl rfl rfl)
  · rw [hb]
    exact encChecked_keeps (encPrepared_coreOk h hpos hc) hr rfl

/-- Steps 3 to 5 of DEC after any header: the output range is in DMEM and not in the input (44 R483, R484). -/
theorem decRest_keeps (hf : Fresh s) (hout : s.outBase.toNat + s.outCap.toNat ≤ s.dmemSize)
    (hdis : ∀ x, s.outBase.toNat ≤ x → x < s.outBase.toNat + s.outCap.toNat → inReaderBuffer s.br x = false) :
    Keeps (decRest s) := by
  by_cases hne : s.ft = []
  · rw [decRest, if_pos (by simp [hne])]
    exact .raise _ _ (h.congr rfl rfl rfl rfl rfl rfl rfl)
  have hd := treed_coreOk h hne
  rw [decRest_ok s s.ft rfl hne]
  split_ifs with hc
  · exact .raise _ _ (hd.congr rfl rfl rfl rfl rfl rfl rfl)
  · obtain ⟨k, m, hk, -, hm, hpay⟩ := decPayload_total (ft := s.ft) (totalWeight s.ft) s.outBase.toNat
      (treed s.ft s) (hf.congr rfl rfl) (treeOf_buildTree s.ft hne h.ft) (by show _ ≤ s.dmemSize; omega) hd.dmem
      fun x h1 h2 => hdis x h1 (by omega)
    have ht : CoreOk { consumed k (treed s.ft s) with dmem := m } :=
      (consumed_coreOk hd hk s.draws).of_units rfl rfl rfl (hm.congr rfl rfl) (hd.bp.congr rfl rfl)
        ((consumed_coreOk hd hk s.draws).br.congr rfl rfl)
    rcases hpay with hpay | hpay
    · rw [hpay]
      exact .ok _ _ (ht.congr rfl rfl rfl rfl rfl rfl rfl)
    · rw [hpay]
      exact .raise _ _ (ht.congr rfl rfl rfl rfl rfl rfl rfl)

theorem decBody_keeps : Keeps (decBody s) := by
  by_cases hr : codecRanges s
  · have hstart : CoreOk (decStart s) :=
      (clearTable_coreOk h).of_units rfl rfl rfl (h.dmem.congr rfl rfl) (h.bp.congr rfl rfl)
        (decStart_fresh s hr).reader
    rw [decBody_ranges s hr]
    obtain ⟨ft, k, hn, hk, hb⟩ := decHeader_total (decStart s) (decStart_fresh s hr) List.nodup_nil
    have hread : CoreOk { consumed k (decStart s) with ft := ft } :=
      ((consumed_coreOk hstart hk s.draws).newTable hn).congr rfl rfl rfl rfl rfl rfl rfl
    rcases hb with hb | ⟨e, hb⟩
    · rw [hb, Res.bind_ok]
      exact decRest_keeps hread (((decStart_fresh s hr).consumed k hk).congr rfl rfl) hr.2.1
        (output_not_inReaderBuffer hr)
    · rw [hb]
      exact .raise _ _ (hread.congr rfl rfl rfl rfl rfl rfl rfl)
  · rw [codecRanges_iff, Bool.not_eq_true] at hr
    rw [decBody, hr]
    exact .raise _ _ h

end

/-- A command whose body keeps order completes in a state with the invariant. -/
theorem Res.EndsIn.inv {α : Type} {r : Res α} {t : State} (h : Keeps r) (ht : conclude r = .next t) : Inv t := by
  obtain ⟨e, u, hu, rfl⟩ := h.of_conclude ht
  exact hu.inv_completed e

theorem complete_inv {e : ErrCode} {s t : State} (h : CoreOk s) (ht : complete e s = .next t) : Inv t := by
  cases ht
  exact h.inv_completed e

theorem exec_inv (i : Instr) {s t : State} (h : CoreOk s) (ht : exec i s = .next t) : Inv t := by
  cases i with
  | nop => exact complete_inv h ht
  | ftClear => exact complete_inv (clearTable_coreOk h) ht
  | ftAdd sym => exact (ftAddBody_keeps h sym).inv ht
  | ftGet => exact (ftGetBody_keeps h).inv ht
  | tbBuild => exact (tbBuildBody_keeps h).inv ht
  | tbNode => exact (tbNodeBody_keeps h).inv ht
  | ctDerive => exact (ctDeriveBody_keeps h).inv ht
  | ctLookup sym => exact (ctLookupBody_keeps h sym).inv ht
  | bpInit => exact (bpInitBody_keeps h).inv ht
  | bpAppendBit bit => exact (bpAppendBitBody_keeps h bit).inv ht
  | bpAppendSeq => exact (bpAppendSeqBody_keeps h).inv ht
  | bpAppendFixed width => exact (bpAppendFixedBody_keeps h width).inv ht
  | bpAppendCode sym => exact (bpAppendCodeBody_keeps h sym).inv ht
  | bpFinish => exact (bpFinishBody_keeps h).inv ht
  | brInit => exact (brInitBody_keeps h).inv ht
  | brReadBit => exact (brReadBitBody_keeps h).inv ht
  | brReadFixed width => exact (brReadFixedBody_keeps h width).inv ht
  | brRemaining => exact (brRemainingBody_keeps h).inv ht
  | brPosition => exact (brPositionBody_keeps h).inv ht
  | enc => exact (encBody_keeps h).inv ht
  | dec => exact (decBody_keeps h).inv ht

theorem engineStep_inv {s t : State} (h : Inv s) (ht : engineStep s = .next t) : Inv t := by
  unfold engineStep at ht
  split_ifs at ht with hb
  · split at ht
    · exact exec_inv _ h.coreOk ht
    · exact complete_inv h.coreOk ht
  · cases ht
    exact h

/-! ### Every host move keeps the invariant -/

/-- A host write of DMEM that is no fault stores the byte at an address that exists (70 R570). -/
theorem hostDmemWrite_eq_next {a : Nat} {v : Byte} {s t : State} (h : hostDmemWrite a v s = .next t) :
    a < s.dmemSize ∧ t = storeByte a v s := by
  unfold hostDmemWrite at h
  split_ifs at h with ha
  cases h
  exact ⟨Nat.lt_of_not_le ha, rfl⟩

/-- A host read of DMEM that is no fault answers the byte of an address that exists (70 R570). -/
theorem hostDmemRead_eq_next {a : Nat} {s t : State} (h : hostDmemRead a s = .next t) :
    a < s.dmemSize ∧ t = answer (.byte (Memory.read s.dmem a)) s := by
  unfold hostDmemRead at h
  split_ifs at h with ha
  cases h
  exact ⟨Nat.lt_of_not_le ha, rfl⟩

/-- A reset core is where a run starts, on a DMEM that the draws leave in order (10 R80, 70 R552). -/
theorem reset_inv {s : State} (h : DmemOk s) : Inv (reset s) := by
  obtain ⟨hm, -⟩ :=
    drawBytes_mem (writeRange s).lo (min (writeRange s).hi s.dmemSize - (writeRange s).lo) s h (by omega)
  exact (initial_inv hm.sizePos hm.sizeLe hm.canonical hm.bounded).congr rfl rfl rfl rfl rfl rfl rfl
    fun hb => by cases hb

section
variable {s : State} (h : Inv s)
include h

theorem writeWhenIdle_inv {t : State} (ht : Inv t) : Inv (writeWhenIdle s t) := by
  unfold writeWhenIdle
  split_ifs
  · exact h.congr rfl rfl rfl rfl rfl rfl rfl h.status
  · exact ht

theorem writeCtrl_inv (v : Word) : Inv (writeCtrl v s) := by
  unfold writeCtrl
  split_ifs
  · exact reset_inv h.dmem
  · exact h.congr rfl rfl rfl rfl rfl rfl rfl h.status

theorem writeStatus_inv (v : Word) : Inv (writeStatus v s) := by
  refine h.congr rfl rfl rfl rfl rfl rfl rfl fun hb => ?_
  show (s.done && !v.getLsbD 1) = false
  rw [h.status hb, Bool.false_and]

theorem writeReg_inv (r : HostReg) (v : Word) : Inv (writeReg r v s) := by
  cases r with
  | ctrl => exact writeCtrl_inv h v
  | status => exact writeStatus_inv h v
  | cmd => exact writeWhenIdle_inv h (h.congr rfl rfl rfl rfl rfl rfl rfl fun _ => rfl)
  | arg0 | arg1 | inBase | inLen | outBase | outCap | bitwin =>
    exact writeWhenIdle_inv h (h.congr rfl rfl rfl rfl rfl rfl rfl h.status)
  | _ => exact h

theorem hostRegWrite_inv (offset : BitVec 8) (width : Nat) (v : Word) : Inv (hostRegWrite offset width v s) := by
  unfold hostRegWrite
  split_ifs
  · split
    · exact writeReg_inv h _ v
    · exact h
  · exact h

theorem answer_inv (r : HostReply) : Inv (answer r s) := h.congr rfl rfl rfl rfl rfl rfl rfl h.status

theorem readReg_inv (r : HostReg) : Inv (readReg r s) := by
  unfold readReg
  split_ifs
  · exact h.congr rfl rfl rfl rfl rfl rfl rfl h.status
  · exact answer_inv h _

theorem hostRegRead_inv (offset : BitVec 8) (width : Nat) : Inv (hostRegRead offset width s) := by
  unfold hostRegRead
  split_ifs
  · split
    · exact readReg_inv h _
    · exact answer_inv h _
  · exact answer_inv h _

/-- The byte exists, so DMEM stays below DMEM_SIZE; a byte of the reader's buffer is listed as changed (70 R574). -/
theorem storeByte_inv {a : Nat} (ha : a < s.dmemSize) (v : Byte) : Inv (storeByte a v s) :=
  ⟨storeByte_dmemOk a v s ha h.dmem, h.ft, h.tree, h.ct, h.bp.congr rfl rfl, storeByte_readerOk a v s h.br,
    h.status⟩

theorem hostMove_inv {m : HostMove} {t : State} (ht : hostMove m s = .next t) : Inv t := by
  cases m with
  | regWrite offset width v =>
    cases ht
    exact hostRegWrite_inv h offset width v
  | regRead offset width =>
    cases ht
    exact hostRegRead_inv h offset width
  | dmemWrite a v =>
    obtain ⟨ha, rfl⟩ := hostDmemWrite_eq_next ht
    exact storeByte_inv h ha v
  | dmemRead a =>
    obtain ⟨-, rfl⟩ := hostDmemRead_eq_next ht
    exact answer_inv h _
  | hardwareReset =>
    cases ht
    exact reset_inv h.dmem
  | observeIrq =>
    cases ht
    exact answer_inv h _

end

/-- Settles O26, by whose turn it is: every command keeps the units in order and completes, and no host move puts one
out of order. -/
theorem stepKeepsInv : Obligations.StepKeepsInv := by
  intro s t hinv ht
  rcases takeTurn_cases s with ⟨-, hturn⟩ | ⟨m, rest, -, hturn⟩
  · rw [step, hturn] at ht
    exact engineStep_inv (inv_afterTurn hinv) ht
  · rw [step, hturn] at ht
    exact hostMove_inv (inv_afterTurn hinv) ht

end Sys2Proof.Machine
end

section
/-! PROOFS. The register window (spec/10_state.md R51 to R65): which register an access reaches, what it then does, and
what a reset leaves of the state. -/

namespace Sys2Proof.Machine

/-! ### Which register an access reaches -/

/-- A 32-bit access at the offset of a register reaches the register (10 R51). -/
@[simp] theorem regAt_regOffset (r : HostReg) : regAt (regOffset r) = some r := by
  cases r with
  | bitwin j => fin_cases j <;> rfl
  | _ => rfl

@[simp] theorem accessOk_regOffset (r : HostReg) : accessOk (regOffset r) 32 = true := by
  cases r with
  | bitwin j => fin_cases j <;> rfl
  | _ => rfl

/-- An offset reaches a register only where it is the register's own (10 R51). -/
theorem eq_regOffset_of_regAt {o : BitVec 8} {r : HostReg} (h : regAt o = some r) : o = regOffset r := by
  unfold regAt at h
  split at h <;> cases h <;> exact BitVec.eq_of_toNat_eq ‹_›

theorem regOffset_bitwin (j : Fin 8) : BitVec.ofNat 8 (0x60 + 4 * j.val) = regOffset (.bitwin j) := by
  fin_cases j <;> rfl

/-- A 32-bit write at the offset of a register writes the register (10 R52). -/
theorem regWrite_regOffset (r : HostReg) (v : Word) (s : State) :
    hostMove (.regWrite (regOffset r) 32 v) s = .next (writeReg r v s) := by
  simp [hostMove, hostRegWrite]

/-- A 32-bit read at the offset of a register reads the register (10 R52). -/
theorem regRead_regOffset (r : HostReg) (s : State) :
    hostMove (.regRead (regOffset r) 32) s = .next (readReg r s) := by
  simp [hostMove, hostRegRead]

/-- An access of another width or alignment, or at an offset the map does not list, writes nothing and reads 0
(10 R51, R52). -/
theorem access_ignored {o : BitVec 8} {width : Nat} (h : accessOk o width = false ∨ regAt o = none) (v : Word)
    (s : State) : hostRegWrite o width v s = s ∧ hostRegRead o width s = answer (.register 0) s := by
  rcases h with h | h
  · simp [hostRegWrite, hostRegRead, h]
  · simp [hostRegWrite, hostRegRead, h]

theorem accessOk_eq_false {o : BitVec 8} {width : Nat} (h : width ≠ 32 ∨ o.toNat % 4 ≠ 0) :
    accessOk o width = false :=
  decide_eq_false fun ⟨h1, h2⟩ => h.elim (· h1) (· h2)

/-- The map lists nothing from 0x54 to 0x5F and nothing from 0x80 on (10 R51). -/
theorem regAt_eq_none {o : BitVec 8} (h : (0x54 ≤ o.toNat ∧ o.toNat ≤ 0x5F) ∨ 0x80 ≤ o.toNat) :
    regAt o = none := by
  unfold regAt
  split
  on_goal -1 => rfl
  all_goals omega

/-! ### Writes -/

/-- The registers whose write is dropped while BUSY = 1: CMD, the operand registers and BITWIN (10 R52). -/
def closedWhileBusy : HostReg → Bool
  | .cmd | .arg0 | .arg1 | .inBase | .inLen | .outBase | .outCap | .bitwin _ => true
  | _ => false

/-- The registers a write does not change (10 R52). -/
def readOnly : HostReg → Bool
  | .id | .outLen | .ftCount | .tbRoot | .tbNodes | .bpBytes | .bpState | .brPosLo | .brPosHi | .result0 | .result1
  | .result2 => true
  | _ => false

theorem writeWhenIdle_busy {s : State} (h : s.busy = true) (t : State) :
    writeWhenIdle s t = { s with lost := true } := if_pos h

theorem writeWhenIdle_idle {s : State} (h : s.busy = false) (t : State) : writeWhenIdle s t = t := by
  rw [writeWhenIdle, h]
  rfl

theorem writeReg_busy {r : HostReg} (hr : closedWhileBusy r = true) {s : State} (hb : s.busy = true) (v : Word) :
    writeReg r v s = { s with lost := true } := by
  cases r with
  | cmd | arg0 | arg1 | inBase | inLen | outBase | outCap | bitwin => exact writeWhenIdle_busy hb _
  | _ => cases hr

theorem writeReg_readOnly {r : HostReg} (hr : readOnly r = true) (v : Word) (s : State) : writeReg r v s = s := by
  cases r with
  | ctrl | status | cmd | arg0 | arg1 | inBase | inLen | outBase | outCap | bitwin => cases hr
  | _ => rfl

/-- Settles O10: the write reaches CMD, which is open while the core is idle. -/
theorem cmdWriteIssues : Obligations.CmdWriteIssues := by
  intro s w hb
  exact (regWrite_regOffset .cmd w s).trans (congrArg _ (writeWhenIdle_idle hb _))

/-- Settles O11: each write reaches its register, which is open while the core is idle. -/
theorem operandWrites : Obligations.OperandWrites := by
  intro s v hb
  have key : ∀ r t, writeReg r v s = writeWhenIdle s t → hostMove (.regWrite (regOffset r) 32 v) s = .next t := by
    intro r t h
    rw [regWrite_regOffset, h, writeWhenIdle_idle hb]
  refine ⟨key .arg0 _ rfl, key .arg1 _ rfl, key .inBase _ rfl, key .inLen _ rfl, key .outBase _ rfl,
    key .outCap _ rfl, fun j => ?_⟩
  rw [regOffset_bitwin]
  exact key (.bitwin j) _ rfl

/-- An offset that is one of a list whose members all reach registers with a property reaches such a register. -/
theorem regAt_of_mem {l : List Nat} {p : HostReg → Bool}
    (hl : ∀ n ∈ l, (regAt (BitVec.ofNat 8 n)).any p = true) {o : BitVec 8} (ho : o.toNat ∈ l) :
    ∃ r, p r = true ∧ o = regOffset r := by
  have h := hl _ ho
  rw [BitVec.ofNat_toNat, BitVec.setWidth_eq, Option.any_eq_true] at h
  obtain ⟨r, hr, hp⟩ := h
  exact ⟨r, hp, eq_regOffset_of_regAt hr⟩

/-- Settles O12: each of the fifteen offsets is that of a register closed while BUSY = 1. -/
theorem writesWhileBusyAreDropped : Obligations.WritesWhileBusyAreDropped := by
  intro s o v hb ho
  obtain ⟨r, hr, rfl⟩ := regAt_of_mem (p := closedWhileBusy) (by decide) ho
  rw [regWrite_regOffset, writeReg_busy hr hb]

/-- Settles O13: neither STATUS nor CTRL asks whether a command is in flight. -/
theorem statusAndCtrlWrites : Obligations.StatusAndCtrlWrites := by
  refine fun s v => ⟨regWrite_regOffset .status v s, fun h => (regWrite_regOffset .ctrl v s).trans (congrArg _ ?_)⟩
  rw [writeReg, writeCtrl, h]
  rfl

/-- Settles O14: such an access reaches no register, or one that a write does not change. -/
theorem ignoredAccesses : Obligations.IgnoredAccesses := by
  refine fun s o width v => ⟨fun h => ?_, fun ho => ?_⟩
  · have hign : accessOk o width = false ∨ regAt o = none := by
      rcases h with h | h | h
      · exact .inl (accessOk_eq_false (.inl h))
      · exact .inl (accessOk_eq_false (.inr h))
      · exact .inr (regAt_eq_none h)
    obtain ⟨hw, hr⟩ := access_ignored hign v s
    exact ⟨congrArg _ hw, congrArg _ hr⟩
  · obtain ⟨r, hr, rfl⟩ := regAt_of_mem (p := readOnly) (by decide) ho
    by_cases hw : width = 32
    · rw [hw, regWrite_regOffset, writeReg_readOnly hr]
    · exact congrArg _ (access_ignored (.inl (accessOk_eq_false (.inl hw))) v s).1

/-! ### Reads -/

/-- A register that is open to the read answers its value (10 R65). -/
theorem regRead_open {r : HostReg} {s : State} (h : s.busy = false ∨ readableWhileBusy r = true) :
    hostMove (.regRead (regOffset r) 32) s = .next { s with reply := some (.register (regValue r s)) } := by
  rw [regRead_regOffset, readReg, if_neg (by rcases h with h | h <;> simp [h])]
  rfl

theorem ctrlWord_eq (s : State) : ctrlWord s = if s.irqEn then 2#32 else 0#32 := by
  unfold ctrlWord
  cases s.irqEn <;> rfl

/-- Settles O16: these registers are open to the read, and their value is the field. -/
theorem plainReads : Obligations.PlainReads := by
  intro s
  have always : ∀ r, readableWhileBusy r = true →
      hostMove (.regRead (regOffset r) 32) s = .next { s with reply := some (.register (regValue r s)) } :=
    fun r h => regRead_open (.inr h)
  refine ⟨always .id rfl, ?_, always .cmd rfl, always .arg0 rfl, always .arg1 rfl, always .inBase rfl,
    always .inLen rfl, always .outBase rfl, always .outCap rfl, fun hb => ?_⟩
  · rw [← ctrlWord_eq]
    exact always .ctrl rfl
  · have idle : ∀ r,
        hostMove (.regRead (regOffset r) 32) s = .next { s with reply := some (.register (regValue r s)) } :=
      fun r => regRead_open (.inl hb)
    refine ⟨idle .outLen, idle .result0, idle .result1, idle .result2, fun j => ?_⟩
    rw [regOffset_bitwin]
    exact idle (.bitwin j)

theorem errFlag_eq (s : State) : errFlag s = decide (s.errcode ≠ .ok) := by
  unfold errFlag
  cases s.errcode <;> rfl

/-- The bits of an append above its right part are those of its left part. -/
theorem extractLsb'_append_left {n m : Nat} (x : BitVec n) (y : BitVec m) {start : Nat} (h : m ≤ start) (len : Nat) :
    (x ++ y).extractLsb' start len = x.extractLsb' (start - m) len := by
  refine BitVec.eq_of_getLsbD_eq fun i hi => ?_
  rw [BitVec.getLsbD_extractLsb', BitVec.getLsbD_extractLsb', BitVec.getLsbD_append, if_neg (by omega),
    Nat.sub_add_comm h]

theorem extractLsb'_append_right {n m : Nat} (x : BitVec n) (y : BitVec m) : (x ++ y).extractLsb' 0 m = y := by
  refine BitVec.eq_of_getLsbD_eq fun i hi => ?_
  rw [BitVec.getLsbD_extractLsb', BitVec.getLsbD_append, Nat.zero_add, if_pos hi, decide_eq_true hi, Bool.true_and]

/-- The eight one-bit fields of STATUS (10 R55). -/
theorem statusWord_bits (s : State) :
    (statusWord s).getLsbD 0 = s.busy ∧ (statusWord s).getLsbD 1 = s.done ∧ (statusWord s).getLsbD 2 = errFlag s ∧
      (statusWord s).getLsbD 3 = s.lost ∧ (statusWord s).getLsbD 4 = s.tree.valid ∧
      (statusWord s).getLsbD 5 = s.ct.valid ∧ (statusWord s).getLsbD 6 = s.bp.active ∧
      (statusWord s).getLsbD 7 = s.br.active := by
  simp only [statusWord, BitVec.getLsbD_append, BitVec.getLsbD_ofBool]
  simp

/-- ERRCODE of STATUS, and the zeros above it (10 R55). -/
theorem statusWord_errcode (s : State) :
    (statusWord s).extractLsb' 8 4 = s.errcode.code ∧ (statusWord s).extractLsb' 12 20 = 0#20 := by
  unfold statusWord
  simp (disch := decide) only [extractLsb'_append_left]
  exact ⟨extractLsb'_append_right _ _, rfl⟩

/-- Settles O15, bit by bit of the word that STATUS reads at any time. -/
theorem statusRead : Obligations.StatusRead := by
  refine ⟨fun s => ⟨statusWord s, regRead_open (r := .status) (.inr rfl), ?_⟩,
    rfl, rfl, rfl, rfl, rfl, rfl, rfl, rfl, rfl⟩
  obtain ⟨busy, done, err, lost, tree, ct, bp, br⟩ := statusWord_bits s
  exact ⟨busy, done, err.trans (errFlag_eq s), lost, tree, ct, bp, br, statusWord_errcode s⟩

/-- A number that fits the low bits of a register is what the register reads (00 R13). -/
theorem toNat_slice_zero {n hi : Nat} (hn : n < 2 ^ (hi + 1)) (hhi : hi < 32) :
    (BitVec.ofNat 32 (slice n hi 0)).toNat = n := by
  have h32 : n < 2 ^ 32 := lt_of_lt_of_le hn (Nat.pow_le_pow_right (by decide) hhi)
  rw [BitVec.toNat_ofNat, slice, pow_zero, Nat.div_one, Nat.sub_zero, Nat.mod_eq_of_lt hn, Nat.mod_eq_of_lt h32]

/-- A valid tree has at most 511 nodes, and its root is one of them (10 R71, 40 R269). -/
theorem tree_bounds {s : State} (hft : FtOk s) (htree : TreeOk s) (hv : s.tree.valid = true) :
    s.tree.root < s.tree.nn ∧ s.tree.nn ≤ 511 := by
  obtain ⟨hne, ht⟩ := htree hv
  have hb := treeOf_buildTree s.ft hne hft
  have hlen := ft_length_le s.ft hft
  have hroot := hb.nodesPos
  have hnn := hb.nn
  rw [ht, Tree.nn]
  omega

/-- The two fields of BP_STATE as numbers (10 R61). -/
theorem bpStateWord_toNat (bp : Packer) : (bpStateWord bp).toNat = bp.cursor.val + 256 * bp.cur.toNat := by
  have hc := bp.cursor.isLt
  have hcur : (0#16 ++ bp.cur ++ 0#5).toNat = bp.cur.toNat * 32 := by
    rw [BitVec.toNat_append, BitVec.toNat_append]
    simp [Nat.shiftLeft_eq]
  have hlow : (BitVec.ofNat 3 bp.cursor.val).toNat = bp.cursor.val := by
    rw [BitVec.toNat_ofNat, Nat.mod_eq_of_lt hc]
  rw [bpStateWord, BitVec.toNat_append, ← Nat.shiftLeft_add_eq_or_of_lt (BitVec.isLt _), hcur, hlow, Nat.shiftLeft_eq]
  omega

/-- Settles O17: while the core is idle each view is open to the read, and under the premises its number fits. -/
theorem viewReads : Obligations.ViewReads := by
  intro s hb hft htree hbr
  have idle : ∀ r,
      hostMove (.regRead (regOffset r) 32) s = .next { s with reply := some (.register (regValue r s)) } :=
    fun r => regRead_open (.inl hb)
  refine ⟨_, _, _, _, _, _, _, idle .ftCount, ?_, idle .tbRoot, ?_, idle .tbNodes, ?_, idle .bpBytes, rfl,
    idle .bpState, bpStateWord_toNat s.bp, idle .brPosLo, idle .brPosHi, words_of_35 _ ?_⟩
  · have := ft_length_le s.ft hft
    exact toNat_slice_zero (by omega) (by decide)
  · rw [regValue]
    split_ifs with hv
    · obtain ⟨hroot, hnn⟩ := tree_bounds hft htree hv
      exact toNat_slice_zero (by omega) (by decide)
    · rfl
  · rw [regValue]
    split_ifs with hv
    · obtain ⟨-, hnn⟩ := tree_bounds hft htree hv
      exact toNat_slice_zero (by omega) (by decide)
    · rfl
  · have := hbr.posLe
    have := s.br.len.isLt
    omega

/-! ### Reset -/

/-- Draws change DMEM and the number of draws, and not its size. -/
theorem drawBytes_dmemSize (a n : Nat) (s : State) : (drawBytes a n s).dmemSize = s.dmemSize := by
  induction n generalizing a s with
  | zero => rfl
  | succ n ih => exact ih _ _

theorem reset_dmemSize (s : State) : (reset s).dmemSize = s.dmemSize := drawBytes_dmemSize _ _ s

/-- A reset of an idle core leaves DMEM alone: nothing is in flight (10 R80, 70 R552). -/
theorem reset_dmem_idle {s : State} (h : s.busy = false) : (reset s).dmem = s.dmem := by
  have hw : writeRange s = emptyRange := by simp [writeRange, h]
  simp [reset, hw, emptyRange, drawBytes]

/-- After a reset every register but ID reads 0 (10 R51, R80). -/
theorem regValue_reset (r : HostReg) (s : State) : regValue r (reset s) = if r = .id then idWord else 0#32 := by
  have hinit : regValue r (reset s) = regValue r State.reset := by cases r <;> rfl
  rw [hinit]
  cases r with
  | bitwin j => fin_cases j <;> rfl
  | _ => decide

theorem regOffset_eq_zero_iff (r : HostReg) : regOffset r = 0x00#8 ↔ r = .id := by
  constructor
  · intro h
    have := regAt_regOffset r
    rw [h] at this
    exact (Option.some.inj this).symm
  · rintro rfl
    rfl

/-- After a reset the window reads 0 at every offset but that of ID (10 R51, R80). -/
theorem regRead_reset (o : BitVec 8) (s : State) : hostMove (.regRead o 32) (reset s) =
    .next { reset s with reply := some (.register (if o = 0x00#8 then 0x48554646#32 else 0#32)) } := by
  cases hr : regAt o with
  | some r =>
    obtain rfl := eq_regOffset_of_regAt hr
    rw [regRead_open (.inl rfl), regValue_reset]
    simp only [regOffset_eq_zero_iff]
    rfl
  | none =>
    have ho : o ≠ 0x00#8 := by
      rintro rfl
      cases hr
    rw [if_neg ho]
    exact congrArg _ (access_ignored (.inr hr) 0 _).2

/-- A hardware reset and a soft reset are the same move of the core (70 R551). -/
theorem hostMove_reset {m : HostMove} (s : State)
    (h : m = .hardwareReset ∨ ∃ v : Word, v.getLsbD 0 = true ∧ m = .regWrite 0x04#8 32 v) :
    hostMove m s = .next (reset s) := by
  rcases h with rfl | ⟨v, hv, rfl⟩
  · rfl
  · exact (regWrite_regOffset .ctrl v s).trans (congrArg _ (if_pos hv))

/-- Settles O22: either reset leaves the reset state on the same DMEM, and the window reads it. -/
theorem resetValues : Obligations.ResetValues := by
  intro s m hm
  refine ⟨reset s, hostMove_reset s hm, rfl, rfl, rfl, rfl, rfl, rfl, rfl, rfl, rfl, rfl, rfl, rfl, rfl, rfl, rfl,
    rfl, rfl, fun j => ?_, rfl, rfl, rfl, rfl, rfl, rfl, rfl, rfl, rfl, rfl, rfl, rfl, rfl, rfl, rfl, reset_dmem_idle,
    reset_dmemSize s, fun o => regRead_reset o s⟩
  exact (regValue_reset (.bitwin j) s).trans (if_neg HostReg.noConfusion)

end Sys2Proof.Machine
end

section
/-! PROOFS. What each command changes: one inversion lemma for `exec`, and from it what failing commands leave, the frame
of every command, and the table of the flags (spec/10_state.md R57 to R77, spec/60_exceptions.md R503,
spec/70_reset_and_hazards.md R556). -/

namespace Sys2Proof.Machine

/-- The four append commands of the packer (42 R360 to R364). -/
inductive Appends : Instr → Prop where
  | bit (b : Bool) : Appends (.bpAppendBit b)
  | seq : Appends .bpAppendSeq
  | fixed (width : BitVec 6) : Appends (.bpAppendFixed width)
  | code (sym : Byte) : Appends (.bpAppendCode sym)

theorem Appends.not_codec {i : Instr} (h : Appends i) : i ≠ .enc ∧ i ≠ .dec := by
  cases h <;> exact ⟨Instr.noConfusion, Instr.noConfusion⟩

/-- The query commands that change RESULT and nothing else (10 R63). -/
inductive Queries : Instr → Prop where
  | ftGet : Queries .ftGet
  | tbNode : Queries .tbNode
  | brRemaining : Queries .brRemaining
  | brPosition : Queries .brPosition

/-- The two commands that read bits (43 R411, R412). -/
inductive ReadsBits : Instr → Prop where
  | bit : ReadsBits .brReadBit
  | fixed (width : BitVec 6) : ReadsBits (.brReadFixed width)

/-- What a command may leave of a state before completion, by command and outcome code: each constructor names the
fields it changes, so that every other field is unchanged (10 R57 to R77, 60 R503). -/
inductive Effect (s : State) : Instr → ErrCode → State → Prop where
  | unchanged (i : Instr) (e : ErrCode) (he : e ≠ .ok) (hi : e = .address ∨ (i ≠ .enc ∧ i ≠ .dec)) : Effect s i e s
  | nop : Effect s .nop .ok s
  | ftClear : Effect s .ftClear .ok (clearTable s)
  | ftAdd (sym : Byte) (ft : List FtEntry) : Effect s (.ftAdd sym) .ok (invalidate { s with ft := ft })
  | query (i : Instr) (hi : Queries i) (r0 r1 r2 : Word) : Effect s i .ok (setResults r0 r1 r2 s)
  | tbBuild (ft : List FtEntry) : Effect s .tbBuild .ok (treed ft s)
  | ctDerive (codes : Codes) : Effect s .ctDerive .ok { s with ct := { valid := true, codes := codes } }
  | ctLookup (sym : Byte) (r0 r1 r2 : Word) (win : Vector Word 8) :
    Effect s (.ctLookup sym) .ok { setResults r0 r1 r2 s with bitwin := win }
  | bpInit (base cap : Word) : Effect s .bpInit .ok { s with bp := freshPacker base cap }
  | append (i : Instr) (hi : Appends i) (bp : Packer) (hbp : bp.active = s.bp.active) (dmem : Memory)
      (changed : List Nat) : Effect s i .ok { s with bp := bp, dmem := dmem, br := { s.br with changed := changed } }
  | bpFinish (bp : Packer) (hbp : bp.active = false) (dmem : Memory) (outLen : Word) (changed : List Nat) :
    Effect s .bpFinish .ok { s with bp := bp, dmem := dmem, outLen := outLen, br := { s.br with changed := changed } }
  | brInit (base len : Word) : Effect s .brInit .ok { s with br := freshReader base len }
  | read (i : Instr) (hi : ReadsBits i) (pos draws : Nat) (r0 r1 r2 : Word) :
    Effect s i .ok (setResults r0 r1 r2 { s with br := { s.br with pos := pos }, draws := draws })
  | encDone (ft : List FtEntry) (codes : Codes) (bp : Packer) (hbp : bp.active = false) (dmem : Memory) (outLen : Word)
      (changed : List Nat) (r0 r1 r2 : Word) :
    Effect s .enc .ok (setResults r0 r1 r2 { s with
      ft := ft, tree := buildTree ft, ct := { valid := true, codes := codes }, bp := bp, dmem := dmem,
      outLen := outLen, br := { s.br with changed := changed } })
  | encEmpty : Effect s .enc .invalidInput { clearTable s with outLen := 0 }
  | encStopped (e : ErrCode) (he : e = .range ∨ e = .capacity) (ft : List FtEntry) (codes : Codes) :
    Effect s .enc e { s with ft := ft, tree := buildTree ft, ct := { valid := true, codes := codes }, outLen := 0 }
  | decDone (ft : List FtEntry) (br : Reader) (hbr : br.active = true) (dmem : Memory) (draws : Nat) (outLen : Word)
      (r0 r1 r2 : Word) :
    Effect s .dec .ok (setResults r0 r1 r2 { treed ft { s with ft := ft } with
      br := br, dmem := dmem, draws := draws, outLen := outLen })
  | decHeader (e : ErrCode) (he : e = .corruptHeader ∨ e = .range ∨ e = .invalidInput) (ft : List FtEntry) (br : Reader)
      (hbr : br.active = true) (draws : Nat) :
    Effect s .dec e { invalidate { s with ft := ft } with br := br, draws := draws, outLen := 0 }
  | decStopped (e : ErrCode) (he : e = .capacity ∨ e = .endOfStream) (ft : List FtEntry) (br : Reader)
      (hbr : br.active = true) (dmem : Memory) (draws : Nat) :
    Effect s .dec e { treed ft { s with ft := ft } with br := br, dmem := dmem, draws := draws, outLen := 0 }

/-! ### Every body has one of the effects -/

/-- The effect of a command that fails before it changes anything (60 R503). -/
theorem Effect.failed {s : State} {i : Instr} {e : ErrCode} (he : e ≠ .ok := by decide)
    (hi : e = .address ∨ (i ≠ .enc ∧ i ≠ .dec) := by simp) : Effect s i e s := .unchanged i e he hi

section
variable (s : State)

theorem ftAddBody_effect (sym : Byte) : (ftAddBody sym s).EndsIn (Effect s (.ftAdd sym)) := by
  unfold ftAddBody
  split_ifs
  · exact .raise _ _ .failed
  · exact .ok _ _ (.ftAdd sym _)

theorem ftGetBody_effect : (ftGetBody s).EndsIn (Effect s .ftGet) := by
  unfold ftGetBody
  split
  · exact .raise _ _ .failed
  · exact .ok _ _ (.query _ .ftGet _ _ _)

theorem tbBuildBody_effect : (tbBuildBody s).EndsIn (Effect s .tbBuild) := by
  unfold tbBuildBody
  split_ifs
  · exact .raise _ _ .failed
  · exact .ok _ _ (.tbBuild s.ft)

theorem tbNodeBody_effect : (tbNodeBody s).EndsIn (Effect s .tbNode) := by
  unfold tbNodeBody
  split_ifs
  · split
    · exact .raise _ _ .failed
    · exact .ok _ _ (.query _ .tbNode _ _ _)
  · exact .raise _ _ .failed

theorem ctDeriveBody_effect : (ctDeriveBody s).EndsIn (Effect s .ctDerive) := by
  unfold ctDeriveBody
  split_ifs
  · split
    · exact .fault _
    · exact .ok _ _ (.ctDerive _)
  · exact .raise _ _ .failed

theorem ctLookupBody_effect (sym : Byte) : (ctLookupBody sym s).EndsIn (Effect s (.ctLookup sym)) := by
  unfold ctLookupBody
  split
  · exact .raise _ _ .failed
  · exact .ok _ _ (.ctLookup sym _ _ _ _)

theorem bpInitBody_effect : (bpInitBody s).EndsIn (Effect s .bpInit) := by
  unfold bpInitBody
  split_ifs
  · exact .ok _ _ (.bpInit _ _)
  · exact .raise _ _ .failed

/-- An append changes the packer, DMEM and the list of changed bytes, or nothing (42 R352, R361). -/
theorem appendSeq_effect {i : Instr} (hi : Appends i) (seq : Bits) :
    (appendSeq seq s).EndsIn (Effect s i) := by
  rcases appendSeq_shape seq s with ⟨t, h, hf⟩ | h | ⟨f, h⟩
  · rw [h]
    refine .ok _ _ ?_
    rw [hf.rest]
    exact .append i hi _ hf.active _ _
  · rw [h]
    exact .raise _ _ (.failed (hi := .inr hi.not_codec))
  · rw [h]
    exact .fault f

theorem bpAppendBitBody_effect (bit : Bool) : (bpAppendBitBody bit s).EndsIn (Effect s (.bpAppendBit bit)) := by
  unfold bpAppendBitBody
  split_ifs
  · exact appendSeq_effect s (.bit bit) _
  · exact .raise _ _ .failed

theorem bpAppendSeqBody_effect : (bpAppendSeqBody s).EndsIn (Effect s .bpAppendSeq) := by
  unfold bpAppendSeqBody
  split_ifs
  · exact .raise _ _ .failed
  · exact appendSeq_effect s .seq _
  · exact .raise _ _ .failed

theorem bpAppendFixedBody_effect (width : BitVec 6) :
    (bpAppendFixedBody width s).EndsIn (Effect s (.bpAppendFixed width)) := by
  unfold bpAppendFixedBody
  split_ifs
  · exact .raise _ _ .failed
  · exact .raise _ _ .failed
  · exact .raise _ _ .failed
  · exact appendSeq_effect s (.fixed width) _

theorem bpAppendCodeBody_effect (sym : Byte) : (bpAppendCodeBody sym s).EndsIn (Effect s (.bpAppendCode sym)) := by
  unfold bpAppendCodeBody
  split_ifs
  · split
    · exact .raise _ _ .failed
    · exact appendSeq_effect s (.code sym) _
  · exact .raise _ _ .failed

theorem bpFinishBody_effect : (bpFinishBody s).EndsIn (Effect s .bpFinish) := by
  rcases bpFinish_shape s with ⟨-, t, h, hf⟩ | ⟨-, h⟩ | ⟨f, h⟩
  · rw [h]
    refine .ok _ _ ?_
    rw [hf.rest]
    exact .bpFinish _ hf.inactive _ _ _
  · rw [h]
    exact .raise _ _ .failed
  · rw [h]
    exact .fault f

theorem brInitBody_effect : (brInitBody s).EndsIn (Effect s .brInit) := by
  unfold brInitBody
  split_ifs
  · exact .ok _ _ (.brInit _ _)
  · exact .raise _ _ .failed

/-- Results set after a read of bits. -/
theorem ReadFrame.effect {s t : State} (h : ReadFrame s t) {i : Instr} (hi : ReadsBits i) (r0 r1 r2 : Word) :
    Effect s i .ok (setResults r0 r1 r2 t) := by
  rw [h.rest]
  exact .read i hi _ _ r0 r1 r2

theorem brReadBitBody_effect : (brReadBitBody s).EndsIn (Effect s .brReadBit) := by
  unfold brReadBitBody
  split_ifs
  · exact .raise _ _ .failed
  · exact .raise _ _ .failed
  · rcases getBit_shape s with ⟨b, t, h, hf⟩ | ⟨f, h⟩
    · rw [h]
      exact .ok _ _ (hf.effect .bit _ _ _)
    · rw [h]
      exact .fault f

theorem brReadFixedBody_effect (width : BitVec 6) :
    (brReadFixedBody width s).EndsIn (Effect s (.brReadFixed width)) := by
  unfold brReadFixedBody
  split_ifs
  · exact .raise _ _ .failed
  · exact .raise _ _ .failed
  · exact .raise _ _ .failed
  · rcases readFixed_shape width.toNat s with ⟨v, t, h, hf⟩ | ⟨f, h⟩
    · rw [h]
      exact .ok _ _ (hf.effect (.fixed width) _ _ _)
    · rw [h]
      exact .fault f

theorem brRemainingBody_effect : (brRemainingBody s).EndsIn (Effect s .brRemaining) := by
  unfold brRemainingBody
  split_ifs
  · exact .ok _ _ (.query _ .brRemaining _ _ _)
  · exact .raise _ _ .failed

theorem brPositionBody_effect : (brPositionBody s).EndsIn (Effect s .brPosition) := by
  unfold brPositionBody
  split_ifs
  · exact .ok _ _ (.query _ .brPosition _ _ _)
  · exact .raise _ _ .failed

theorem encBody_effect : (encBody s).EndsIn (Effect s .enc) := by
  rcases enc_shape s with h | h | ⟨ft, codes, e, he, h⟩ | ⟨ft, codes, p, t, h, hf⟩ | ⟨f, h⟩
  · rw [h]
    exact .raise _ _ .failed
  · rw [h]
    exact .raise _ _ .encEmpty
  · rw [h]
    exact .raise _ _ (.encStopped e he ft codes)
  · rw [h]
    refine .ok _ _ ?_
    rw [hf.rest]
    exact .encDone ft codes _ hf.inactive _ _ _ _ _ _
  · rw [h]
    exact .fault f

theorem decBody_effect : (decBody s).EndsIn (Effect s .dec) := by
  rcases dec_shape s with h | ⟨e, t, he, h, hf, hd⟩ | ⟨e, ft, t, he, h, hf, hft⟩ | ⟨ft, n, p, t, h, hf, hft⟩ | ⟨f, h⟩
  · rw [h]
    exact .raise _ _ .failed
  · rw [h]
    have hrest := hf.rest
    rw [hd] at hrest
    refine .raise _ _ ?_
    rw [hrest]
    exact .decHeader e he _ _ hf.active _
  · rw [h]
    have hrest := hf.rest
    rw [hft] at hrest
    refine .raise _ _ ?_
    rw [hrest]
    exact .decStopped e he ft _ hf.active _ _
  · rw [h]
    have hrest := hf.rest
    rw [hft] at hrest
    refine .ok _ _ ?_
    rw [decResult, countResults, hrest]
    exact .decDone ft _ hf.active _ _ _ _ _ _
  · rw [h]
    exact .fault f

end

/-- What `exec` can answer: the completion of one of the effects of the command (60 R506). -/
theorem exec_effect {i : Instr} {s t : State} (h : exec i s = .next t) :
    ∃ e u, Effect s i e u ∧ t = completed e u := by
  cases i with
  | nop => cases h; exact ⟨.ok, s, .nop, rfl⟩
  | ftClear => cases h; exact ⟨.ok, _, .ftClear, rfl⟩
  | ftAdd sym => exact (ftAddBody_effect s sym).of_conclude h
  | ftGet => exact (ftGetBody_effect s).of_conclude h
  | tbBuild => exact (tbBuildBody_effect s).of_conclude h
  | tbNode => exact (tbNodeBody_effect s).of_conclude h
  | ctDerive => exact (ctDeriveBody_effect s).of_conclude h
  | ctLookup sym => exact (ctLookupBody_effect s sym).of_conclude h
  | bpInit => exact (bpInitBody_effect s).of_conclude h
  | bpAppendBit bit => exact (bpAppendBitBody_effect s bit).of_conclude h
  | bpAppendSeq => exact (bpAppendSeqBody_effect s).of_conclude h
  | bpAppendFixed width => exact (bpAppendFixedBody_effect s width).of_conclude h
  | bpAppendCode sym => exact (bpAppendCodeBody_effect s sym).of_conclude h
  | bpFinish => exact (bpFinishBody_effect s).of_conclude h
  | brInit => exact (brInitBody_effect s).of_conclude h
  | brReadBit => exact (brReadBitBody_effect s).of_conclude h
  | brReadFixed width => exact (brReadFixedBody_effect s width).of_conclude h
  | brRemaining => exact (brRemainingBody_effect s).of_conclude h
  | brPosition => exact (brPositionBody_effect s).of_conclude h
  | enc => exact (encBody_effect s).of_conclude h
  | dec => exact (decBody_effect s).of_conclude h

/-! ### What failing commands leave -/

namespace Effect

variable {s u : State} {i : Instr} {e : ErrCode}

/-- Only ENC and DEC change anything when they fail (60 R503). -/
theorem eq_of_failed (h : Effect s i e u) (he : e ≠ .ok) (henc : i ≠ .enc) (hdec : i ≠ .dec) : u = s := by
  cases h with
  | unchanged => rfl
  | encEmpty | encStopped => exact absurd rfl henc
  | decHeader | decStopped => exact absurd rfl hdec
  | _ => exact absurd rfl he

/-- A range that fails its check is found before anything is changed (20 R157). -/
theorem eq_of_address (h : Effect s i .address u) : u = s := by
  cases h with
  | unchanged => rfl
  | encStopped _ he => rcases he with he | he <;> cases he
  | decHeader _ he => rcases he with he | he | he <;> cases he
  | decStopped _ he => rcases he with he | he <;> cases he

theorem result_of_failed (h : Effect s i e u) (he : e ≠ .ok) :
    u.result0 = s.result0 ∧ u.result1 = s.result1 ∧ u.result2 = s.result2 := by
  cases h with
  | unchanged | encEmpty | encStopped | decHeader | decStopped => exact ⟨rfl, rfl, rfl⟩
  | _ => exact absurd rfl he

/-- ENC and DEC set OUT_LEN to 0 when they fail after their range checks (10 R59). -/
theorem outLen_of_failed (h : Effect s i e u) (he : e ≠ .ok) (hi : i = .enc ∨ i = .dec) (ha : e ≠ .address) :
    u.outLen = 0#32 := by
  cases h with
  | unchanged _ _ _ hc =>
    rcases hc with hc | ⟨henc, hdec⟩
    · exact absurd hc ha
    · exact absurd hi (not_or.2 ⟨henc, hdec⟩)
  | encEmpty | encStopped | decHeader | decStopped => rfl
  | _ => exact absurd rfl he

/-- ENC checks everything before it writes (44 R470). -/
theorem enc_failed (h : Effect s .enc e u) (he : e ≠ .ok) : u.dmem = s.dmem ∧ u.bp = s.bp := by
  cases h with
  | unchanged | encEmpty | encStopped => exact ⟨rfl, rfl⟩
  | _ => exact absurd rfl he

/-! ### What every command leaves -/

theorem operands (h : Effect s i e u) :
    u.irqEn = s.irqEn ∧ u.lost = s.lost ∧ u.cmd = s.cmd ∧ u.arg0 = s.arg0 ∧ u.arg1 = s.arg1 ∧ u.inBase = s.inBase ∧
      u.inLen = s.inLen ∧ u.outBase = s.outBase ∧ u.outCap = s.outCap ∧ u.dmemSize = s.dmemSize ∧
      u.agenda = s.agenda ∧ u.reply = s.reply := by
  cases h <;> exact ⟨rfl, rfl, rfl, rfl, rfl, rfl, rfl, rfl, rfl, rfl, rfl, rfl⟩

theorem bitwin_eq (h : Effect s i e u) (hi : ∀ c, i ≠ .ctLookup c) : u.bitwin = s.bitwin := by
  cases h with
  | ctLookup sym => exact absurd rfl (hi sym)
  | _ => rfl

theorem outLen_eq (h : Effect s i e u) (hfin : i ≠ .bpFinish) (henc : i ≠ .enc) (hdec : i ≠ .dec) :
    u.outLen = s.outLen := by
  cases h with
  | bpFinish => exact absurd rfl hfin
  | encDone | encEmpty | encStopped => exact absurd rfl henc
  | decDone | decHeader | decStopped => exact absurd rfl hdec
  | _ => rfl

theorem result_eq (h : Effect s i e u)
    (hi : i ∉ [.ftGet, .tbNode, .brReadBit, .brRemaining, .brPosition, .enc, .dec]) (hlook : ∀ c, i ≠ .ctLookup c)
    (hread : ∀ w, i ≠ .brReadFixed w) :
    u.result0 = s.result0 ∧ u.result1 = s.result1 ∧ u.result2 = s.result2 := by
  cases h with
  | query _ hq => cases hq <;> simp at hi
  | ctLookup sym => exact absurd rfl (hlook sym)
  | read _ hr =>
    cases hr with
    | bit => simp at hi
    | fixed width => exact absurd rfl (hread width)
  | encDone | decDone => simp at hi
  | _ => exact ⟨rfl, rfl, rfl⟩

theorem ft_eq (h : Effect s i e u) (hi : i ∉ [.ftClear, .enc, .dec]) (hadd : ∀ c, i ≠ .ftAdd c) : u.ft = s.ft := by
  cases h with
  | ftAdd sym => exact absurd rfl (hadd sym)
  | ftClear | encDone | encEmpty | encStopped | decDone | decHeader | decStopped => simp at hi
  | _ => rfl

theorem tree_eq (h : Effect s i e u) (hi : i ∉ [.ftClear, .tbBuild, .enc, .dec]) (hadd : ∀ c, i ≠ .ftAdd c) :
    u.tree = s.tree := by
  cases h with
  | ftAdd sym => exact absurd rfl (hadd sym)
  | ftClear | tbBuild | encDone | encEmpty | encStopped | decDone | decHeader | decStopped => simp at hi
  | _ => rfl

theorem ct_eq (h : Effect s i e u) (hi : i ∉ [.ftClear, .tbBuild, .ctDerive, .enc, .dec])
    (hadd : ∀ c, i ≠ .ftAdd c) : u.ct = s.ct := by
  cases h with
  | ftAdd sym => exact absurd rfl (hadd sym)
  | ftClear | tbBuild | ctDerive | encDone | encEmpty | encStopped | decDone | decHeader | decStopped => simp at hi
  | _ => rfl

end Effect

theorem not_appends {i : Instr} (hseq : i ≠ .bpAppendSeq) (hbit : ∀ b, i ≠ .bpAppendBit b)
    (hfixed : ∀ w, i ≠ .bpAppendFixed w) (hcode : ∀ c, i ≠ .bpAppendCode c) : ¬Appends i := by
  intro h
  cases h with
  | bit b => exact hbit b rfl
  | seq => exact hseq rfl
  | fixed width => exact hfixed width rfl
  | code sym => exact hcode sym rfl

theorem not_readsBits {i : Instr} (hbit : i ≠ .brReadBit) (hfixed : ∀ w, i ≠ .brReadFixed w) : ¬ReadsBits i := by
  intro h
  cases h with
  | bit => exact hbit rfl
  | fixed width => exact hfixed width rfl

namespace Effect

variable {s u : State} {i : Instr} {e : ErrCode}

theorem bp_eq (h : Effect s i e u) (hi : i ∉ [.bpInit, .bpFinish, .enc]) (happ : ¬Appends i) : u.bp = s.bp := by
  cases h with
  | append _ ha => exact absurd ha happ
  | bpInit | bpFinish | encDone => simp at hi
  | _ => rfl

theorem br_eq (h : Effect s i e u) (hi : i ∉ [.brInit, .dec]) (hread : ¬ReadsBits i) :
    u.br = { s.br with changed := u.br.changed } ∧ u.draws = s.draws := by
  cases h with
  | read _ hr => exact absurd hr hread
  | brInit | decDone | decHeader | decStopped => simp at hi
  | _ => exact ⟨rfl, rfl⟩

theorem dmem_eq (h : Effect s i e u) (hi : i ∉ [.bpFinish, .enc, .dec]) (happ : ¬Appends i) : u.dmem = s.dmem := by
  cases h with
  | append _ ha => exact absurd ha happ
  | bpFinish | encDone | decDone | decStopped => simp at hi
  | _ => rfl

end Effect

/-- A failing command that is not ENC or DEC leaves the flags alone, and so does AddressError (70 R556). -/
theorem flagsAfter_failed {i : Instr} {e : ErrCode} (he : e ≠ .ok) (hi : e = .address ∨ (i ≠ .enc ∧ i ≠ .dec))
    (f : Flags) : flagsAfter i e f = f := by
  rcases hi with rfl | ⟨henc, hdec⟩
  · cases i <;> rfl
  · cases i with
    | enc => exact absurd rfl henc
    | dec => exact absurd rfl hdec
    | _ =>
      cases e with
      | ok => exact absurd rfl he
      | _ => rfl

/-- The flags of an effect are those of the table of 70 R556. -/
theorem Effect.flags {s u : State} {i : Instr} {e : ErrCode} (h : Effect s i e u) :
    flagsOf u = flagsAfter i e (flagsOf s) := by
  cases h with
  | unchanged _ _ he hi => exact (flagsAfter_failed he hi _).symm
  | query _ hq => cases hq <;> rfl
  | append _ ha _ hbp => cases ha <;> simp [flagsOf, flagsAfter, hbp]
  | read _ hr => cases hr <;> rfl
  | bpFinish _ hbp => simp [flagsOf, flagsAfter, hbp]
  | encDone _ _ _ hbp => simp [flagsOf, flagsAfter, hbp, buildTree]
  | encStopped _ he => rcases he with rfl | rfl <;> rfl
  | decDone _ _ hbr => simp [flagsOf, flagsAfter, hbr, treed, buildTree]
  | decHeader _ he _ _ hbr => rcases he with rfl | rfl | rfl <;> simp [flagsOf, flagsAfter, hbr]
  | decStopped _ he _ _ hbr => rcases he with rfl | rfl <;> simp [flagsOf, flagsAfter, hbr, treed, buildTree]
  | _ => rfl

/-! ### The statements -/

/-- Settles O30, from the effects that a failing command can have. -/
theorem failingCommands : Obligations.FailingCommands := by
  intro i s t h he
  obtain ⟨e, u, hu, rfl⟩ := exec_effect h
  have he : e ≠ .ok := he
  obtain ⟨h0, h1, h2⟩ := hu.result_of_failed he
  refine ⟨fun henc hdec => congrArg (completed e) (hu.eq_of_failed he henc hdec), fun ha => ?_, h0, h1, h2,
    fun hi ha => hu.outLen_of_failed he hi ha, fun hi => ?_⟩
  · obtain rfl : e = .address := ha
    exact congrArg _ hu.eq_of_address
  · subst hi
    exact hu.enc_failed he

/-- Settles O31: each part of the frame is read off the effects, and completion touches STATUS only. -/
theorem commandFrame : Obligations.CommandFrame := by
  intro i s t h
  obtain ⟨e, u, hu, rfl⟩ := exec_effect h
  obtain ⟨irqEn, lost, cmd, arg0, arg1, inBase, inLen, outBase, outCap, size, agenda, reply⟩ := hu.operands
  refine ⟨⟨irqEn, lost, cmd, arg0, arg1, inBase, inLen, outBase, outCap, size, agenda, reply, rfl, rfl⟩,
    hu.bitwin_eq, hu.outLen_eq, hu.result_eq, hu.ft_eq, hu.tree_eq, hu.ct_eq, ?_, ?_, ?_⟩
  · intro hi hbit hfixed hcode
    simp only [List.mem_cons, List.not_mem_nil, or_false, not_or] at hi
    obtain ⟨hinit, hseq, hfin, henc⟩ := hi
    exact hu.bp_eq (by simp [hinit, hfin, henc]) (not_appends hseq hbit hfixed hcode)
  · intro hi hread
    simp only [List.mem_cons, List.not_mem_nil, or_false, not_or] at hi
    obtain ⟨hinit, hbit, hdec⟩ := hi
    exact hu.br_eq (by simp [hinit, hdec]) (not_readsBits hbit hread)
  · intro hi hbit hfixed hcode
    simp only [List.mem_cons, List.not_mem_nil, or_false, not_or] at hi
    obtain ⟨hseq, hfin, henc, hdec⟩ := hi
    exact hu.dmem_eq (by simp [hfin, henc, hdec]) (not_appends hseq hbit hfixed hcode)

/-- Settles O33, from the flags of each effect; a reset core has none set. -/
theorem flagsTable : Obligations.FlagsTable := by
  refine ⟨fun i s t h => ?_, fun s t h => ?_⟩
  · obtain ⟨e, u, hu, rfl⟩ := exec_effect h
    exact hu.flags
  · cases h
    rfl

end Sys2Proof.Machine
end

section
/-! PROOFS. The statements of spec/20_memory.md: what the host reads and writes of DMEM while the core is idle and while
a command is in flight (spec/70_reset_and_hazards.md R573), and which bytes of DMEM a command may change. -/

namespace Sys2Proof.Machine

/-! ### The ranges of the command in flight -/

theorem AddrRange.has_iff (r : AddrRange) (a : Nat) : r.has a = true ↔ r.lo ≤ a ∧ a < r.hi := decide_eq_true_iff

@[simp] theorem emptyRange_has (a : Nat) : emptyRange.has a = false :=
  decide_eq_false fun h => Nat.not_lt_zero a h.2

theorem readRange_of_idle {s : State} (h : s.busy = false) : readRange s = emptyRange := by simp [readRange, h]

theorem writeRange_of_idle {s : State} (h : s.busy = false) : writeRange s = emptyRange := by simp [writeRange, h]

theorem readRange_of_decode {s : State} {i : Instr} (hb : s.busy = true) (hd : decode s.cmd = .ok i) :
    readRange s = readRangeOf i s := by
  simp [readRange, fetch, hb, hd]

theorem writeRange_of_decode {s : State} {i : Instr} (hb : s.busy = true) (hd : decode s.cmd = .ok i) :
    writeRange s = writeRangeOf i s := by
  simp [writeRange, fetch, hb, hd]

/-- The read range the core checks a host access against is that of the table of 70 R573. -/
theorem readRangeOf_has_iff (i : Instr) (s : State) (a : Nat) : (readRangeOf i s).has a = true ↔ mayRead i s a := by
  cases i with
  | enc | dec | brReadBit | brReadFixed => exact AddrRange.has_iff _ a
  | _ => simp [readRangeOf, mayRead]

/-- The write range the core checks a host access against is that of the table of 70 R573. -/
theorem writeRangeOf_has_iff (i : Instr) (s : State) (a : Nat) : (writeRangeOf i s).has a = true ↔ mayWrite i s a := by
  cases i with
  | enc | dec | bpAppendBit | bpAppendSeq | bpAppendFixed | bpAppendCode | bpFinish => exact AddrRange.has_iff _ a
  | _ => simp [writeRangeOf, mayWrite]

/-! ### Host accesses -/

section
variable {a : Nat} {s : State} (ha : a < s.dmemSize)
include ha

theorem hostDmemWrite_open (v : Byte) (hr : ¬(readRange s).has a = true) (hw : ¬(writeRange s).has a = true) :
    hostDmemWrite a v s = .next (storeByte a v s) := by
  simp [hostDmemWrite, Nat.not_le.2 ha, hr, hw]

theorem hostDmemWrite_closed (v : Byte) (h : (readRange s).has a = true ∨ (writeRange s).has a = true) :
    hostDmemWrite a v s = .fault (.hostDutyBroken a) := by
  simp [hostDmemWrite, Nat.not_le.2 ha, h]

theorem hostDmemRead_open (hw : ¬(writeRange s).has a = true) :
    hostDmemRead a s = .next (answer (.byte (Memory.read s.dmem a)) s) := by
  simp [hostDmemRead, Nat.not_le.2 ha, hw]

theorem hostDmemRead_closed (hw : (writeRange s).has a = true) :
    hostDmemRead a s = .fault (.hostDutyBroken a) := by
  simp [hostDmemRead, Nat.not_le.2 ha, hw]

end

/-- Read after write in DMEM, at every address (20 R150). -/
theorem read_storeByte {s : State} (h : DmemOk s) (a : Nat) (v : Byte) (b : Nat) :
    Memory.read (storeByte a v s).dmem b = if b = a then v else Memory.read s.dmem b := by
  rw [storeByte_dmem]
  split_ifs with hb
  · rw [hb, Memory.read_write_same _ _ _ h.canonical]
  · exact Memory.read_write_other _ _ _ _ hb

/-- Settles O20: no range is closed to the host while the core is idle, and its write is one stored byte. -/
theorem hostDmem : Obligations.HostDmem := by
  intro s a v hm hidle ha
  have hr : ¬(readRange s).has a.toNat = true := by simp [readRange_of_idle hidle]
  have hw : ¬(writeRange s).has a.toNat = true := by simp [writeRange_of_idle hidle]
  refine ⟨hostDmemRead_open ha hw, storeByte a.toNat v s, hostDmemWrite_open ha v hr hw, rfl,
    read_storeByte hm a.toNat v, fun b => ?_⟩
  rw [mem_storeByte_changed, inReaderBuffer, decide_eq_true_iff, and_comm (b := b = a.toNat)]

/-- Settles O21: the ranges checked are those of the command whose word is in flight. -/
theorem hostDuty : Obligations.HostDuty := by
  intro s i a v hb hd ha
  rw [← readRangeOf_has_iff, ← writeRangeOf_has_iff, ← readRange_of_decode hb hd, ← writeRange_of_decode hb hd]
  exact ⟨hostDmemWrite_closed ha v, hostDmemWrite_open ha v, hostDmemRead_closed ha, hostDmemRead_open ha⟩

/-! ### The bytes a part of a command may change -/

/-- Where a part of a command ends in `P`, it ends in all that `P` implies. -/
theorem Res.EndsIn.mono {α : Type} {P Q : ErrCode → State → Prop} {r : Res α} (h : r.EndsIn P)
    (hpq : ∀ e t, P e t → Q e t) : r.EndsIn Q := by
  cases h with
  | ok a t h => exact .ok a t (hpq _ _ h)
  | raise e t h => exact .raise e t (hpq _ _ h)
  | fault f => exact .fault f

/-- Where a sequence of two parts ends: as its second part does, or as its first part where that raises a code. -/
theorem Res.EndsIn.bind {α β : Type} {P Q : ErrCode → State → Prop} {r : Res α} {k : α → State → Res β}
    (h : r.EndsIn P) (hok : ∀ a t, P .ok t → (k a t).EndsIn Q) (hraise : ∀ e t, P e t → Q e t) :
    (r.bind k).EndsIn Q := by
  cases h with
  | ok a t h => exact hok a t h
  | raise e t h => exact .raise e t (hraise e t h)
  | fault f => exact .fault f

/-- Every byte that the command may not write in `s` reads in `t` as it does in `s` (20 R153, 70 R573). -/
def KeepsBytes (i : Instr) (s t : State) : Prop :=
  ∀ a, ¬mayWrite i s a → Memory.read t.dmem a = Memory.read s.dmem a

theorem KeepsBytes.of_dmem_eq {s t : State} (i : Instr) (h : t.dmem = s.dmem) : KeepsBytes i s t := fun a _ => by rw [h]

/-- The packer's bytes are written from its next byte on, and within its capacity (42 R352, R367). -/
theorem packedNow_inCapacity {s t : State} (hp : PackerOk t) (hbase : t.bp.base = s.bp.base)
    (hcap : t.bp.cap = s.bp.cap) {a : Nat} (h : packedNow s t a) :
    s.bp.base.toNat + s.bp.bytes.toNat ≤ a ∧ a < s.bp.base.toNat + s.bp.cap.toNat := by
  obtain ⟨hlo, hhi⟩ := h
  have hfits := hp.fits
  simp only [packerBits, hcap] at hfits
  simp only [packerAddr, hbase] at hlo hhi
  omega

theorem Appends.mayWrite_iff {i : Instr} (hi : Appends i) (s : State) (a : Nat) : mayWrite i s a ↔
    s.bp.base.toNat + s.bp.bytes.toNat ≤ a ∧ a < s.bp.base.toNat + s.bp.cap.toNat := by
  cases hi <;> exact Iff.rfl

section
variable {s : State} (hm : DmemOk s) (hp : PackerOk s)
include hm hp

theorem appendSeq_keepsBytes {i : Instr} (hi : Appends i) (seq : Bits) :
    (appendSeq seq s).EndsIn fun _ t => KeepsBytes i s t := by
  rcases appendSeq_cases seq s hm hp with ⟨-, t, h, ha, -, hp', -⟩ | ⟨-, h⟩
  · rw [h]
    obtain ⟨-, hbase, hcap⟩ := ha.latched
    exact .ok _ _ fun a hn =>
      ha.otherBytes a fun hnow => hn ((hi.mayWrite_iff s a).2 (packedNow_inCapacity hp' hbase hcap hnow))
  · rw [h]
    exact .raise _ _ fun _ _ => rfl

theorem bpAppendBitBody_keepsBytes (bit : Bool) :
    (bpAppendBitBody bit s).EndsIn fun _ t => KeepsBytes (.bpAppendBit bit) s t := by
  unfold bpAppendBitBody
  split_ifs
  · exact appendSeq_keepsBytes hm hp (.bit bit) _
  · exact .raise _ _ fun _ _ => rfl

theorem bpAppendSeqBody_keepsBytes : (bpAppendSeqBody s).EndsIn fun _ t => KeepsBytes .bpAppendSeq s t := by
  unfold bpAppendSeqBody
  split_ifs
  · exact .raise _ _ fun _ _ => rfl
  · exact appendSeq_keepsBytes hm hp .seq _
  · exact .raise _ _ fun _ _ => rfl

theorem bpAppendFixedBody_keepsBytes (width : BitVec 6) :
    (bpAppendFixedBody width s).EndsIn fun _ t => KeepsBytes (.bpAppendFixed width) s t := by
  unfold bpAppendFixedBody
  split_ifs
  · exact .raise _ _ fun _ _ => rfl
  · exact .raise _ _ fun _ _ => rfl
  · exact .raise _ _ fun _ _ => rfl
  · exact appendSeq_keepsBytes hm hp (.fixed width) _

theorem bpAppendCodeBody_keepsBytes (sym : Byte) :
    (bpAppendCodeBody sym s).EndsIn fun _ t => KeepsBytes (.bpAppendCode sym) s t := by
  unfold bpAppendCodeBody
  split_ifs
  · split
    · exact .raise _ _ fun _ _ => rfl
    · exact appendSeq_keepsBytes hm hp (.code sym) _
  · exact .raise _ _ fun _ _ => rfl

theorem bpFinishBody_keepsBytes : (bpFinishBody s).EndsIn fun _ t => KeepsBytes .bpFinish s t := by
  by_cases hact : s.bp.active = true
  · obtain ⟨t, h, hf, -, hp', -⟩ := bpFinishBody_active s hm hp hact
    obtain ⟨hbase, hcap⟩ := hf.latched
    rw [h]
    exact .ok _ _ fun a hn => hf.otherBytes a fun hnow => hn (packedNow_inCapacity hp' hbase hcap hnow)
  · rw [bpFinishBody, if_neg hact]
    exact .raise _ _ fun _ _ => rfl

end

/-! ### ENC and DEC -/

/-- ENC writes the container only, and only where it fits the output range (44 R465, R468). -/
theorem encChecked_keepsBytes {s : State} (hm : DmemOk s) (hr : codecRangesOk s = true)
    (hft : s.ft = countBytes (inputBytes s)) : (encChecked s).EndsIn fun _ t => KeepsBytes .enc s t := by
  have hp : payloadBits s.ft s.ct.codes = (payloadSeq s.ct.codes (inputBytes s)).length := by
    rw [hft]
    exact payloadBits_countBytes _ _ (by rw [inputBytes_length]; exact s.inLen.isLt)
  by_cases hn : s.ft.length ≤ 255
  · by_cases hc : containerLen s.ft.length (payloadBits s.ft s.ct.codes) ≤ s.outCap.toNat
    · obtain ⟨t, h, hw, -⟩ := encWrite_fits s hm hr (hp ▸ hc) (payloadBits s.ft s.ct.codes)
      have hlen : t.outLen.toNat ≤ s.outCap.toNat := by rw [hw.length, ← hp]; exact hc
      rw [encChecked_fits s hn hc, h]
      exact .ok _ _ fun a hna => hw.otherBytes a fun ⟨hlo, hhi⟩ => hna ⟨hlo, by omega⟩
    · rw [encChecked_capacity s hn (by omega)]
      exact .raise _ _ fun _ _ => rfl
  · rw [encChecked_range s (by omega)]
    exact .raise _ _ fun _ _ => rfl

theorem encBody_keepsBytes {s : State} (hm : DmemOk s) : (encBody s).EndsIn fun _ t => KeepsBytes .enc s t := by
  rcases encBody_cases s with ⟨-, h⟩ | ⟨-, -, h⟩ | ⟨hr, -, codes, -, -, h⟩
  · rw [h]
    exact .raise _ _ fun _ _ => rfl
  · rw [h]
    exact .raise _ _ fun _ _ => rfl
  · rw [h]
    exact encChecked_keepsBytes (s := encPrepared s codes) (hm.congr rfl rfl) hr rfl

theorem ReadFrame.dmem_eq {s t : State} (h : ReadFrame s t) : t.dmem = s.dmem := by rw [h.rest]

/-- The `n` symbols of a payload go to the `n` bytes from `a` on (44 R484). -/
theorem decPayload_writes (n a : Nat) (s : State) : (decPayload n a s).EndsIn fun _ t =>
    ∀ x, ¬(a ≤ x ∧ x < a + n) → Memory.read t.dmem x = Memory.read s.dmem x := by
  induction n generalizing a s with
  | zero => exact .ok _ _ fun _ _ => rfl
  | succ n ih =>
    unfold decPayload decSymbol
    rcases decWalk_shape s.tree.nodes.length s.tree.root s with ⟨c, t, h, hf⟩ | ⟨t, h, hf⟩ | ⟨f, h⟩
    · rw [h, Res.bind_ok]
      rcases memWrite_shape a c t with hw | ⟨f, hw⟩
      · rw [hw, Res.bind_ok]
        refine (ih (a + 1) (storeByte a c t)).mono fun _ u hu x hx => ?_
        rw [hu x (by omega), storeByte_dmem, Memory.read_write_other _ _ _ _ (by omega), hf.dmem_eq]
      · rw [hw]
        exact .fault f
    · rw [h]
      exact .raise _ _ fun x _ => congrArg (Memory.read · x) hf.dmem_eq
    · rw [h]
      exact .fault f

/-- The symbols are as many as the output range has room for (44 R484). -/
theorem decRest_keepsBytes (s : State) : (decRest s).EndsIn fun _ t => KeepsBytes .dec s t := by
  by_cases hne : s.ft = []
  · rw [decRest, if_pos (by simp [hne])]
    exact .raise _ _ fun _ _ => rfl
  · rw [decRest_ok s s.ft rfl hne]
    split_ifs with hc
    · exact .raise _ _ fun _ _ => rfl
    · have hpay : (decPayload (totalWeight s.ft) s.outBase.toNat (treed s.ft s)).EndsIn fun _ t =>
          KeepsBytes .dec s t :=
        (decPayload_writes _ _ _).mono fun _ t ht a hna => ht a fun ⟨hlo, hhi⟩ => hna ⟨hlo, by omega⟩
      exact hpay.bind (fun _ _ ht => .ok _ _ ht) fun _ _ ht => ht

theorem decBody_keepsBytes (s : State) : (decBody s).EndsIn fun _ t => KeepsBytes .dec s t := by
  unfold decBody
  split_ifs
  · exact .raise _ _ fun _ _ => rfl
  rcases decHeader_shape { clearTable s with br := freshReader s.inBase s.inLen } with
    ⟨x, h, hf, hd⟩ | ⟨e, x, -, h, -, hd⟩ | ⟨f, h⟩
  · rw [h, Res.bind_ok]
    refine (decRest_keepsBytes x).mono fun _ t ht a hna => ?_
    rw [ht a, hd]
    · rfl
    · rw [hf.rest]; exact hna
  · rw [h]
    exact .raise _ _ (.of_dmem_eq _ hd)
  · rw [h]
    exact .fault f

/-! ### Every command -/

/-- A command whose body keeps the bytes it may not write completes with them. -/
theorem Res.EndsIn.keepsBytes {α : Type} {r : Res α} {i : Instr} {s t : State}
    (h : r.EndsIn fun _ u => KeepsBytes i s u) (ht : conclude r = .next t) : KeepsBytes i s t := by
  obtain ⟨e, u, hu, rfl⟩ := h.of_conclude ht
  exact hu

/-- A command that is no append, no BP_FINISH and neither ENC nor DEC leaves DMEM as it is (20 R153). -/
theorem exec_dmem_eq {i : Instr} {s t : State} (h : exec i s = .next t) (hi : i ∉ [.bpFinish, .enc, .dec])
    (happ : ¬Appends i) : t.dmem = s.dmem := by
  obtain ⟨e, u, hu, rfl⟩ := exec_effect h
  exact hu.dmem_eq hi happ

/-- Settles O32: the storing commands by their bodies, every other command by its effects. -/
theorem dmemFrame : Obligations.DmemFrame := by
  intro i s t hinv h
  cases i with
  | bpAppendBit bit => exact (bpAppendBitBody_keepsBytes hinv.dmem hinv.bp bit).keepsBytes h
  | bpAppendSeq => exact (bpAppendSeqBody_keepsBytes hinv.dmem hinv.bp).keepsBytes h
  | bpAppendFixed width => exact (bpAppendFixedBody_keepsBytes hinv.dmem hinv.bp width).keepsBytes h
  | bpAppendCode sym => exact (bpAppendCodeBody_keepsBytes hinv.dmem hinv.bp sym).keepsBytes h
  | bpFinish => exact (bpFinishBody_keepsBytes hinv.dmem hinv.bp).keepsBytes h
  | enc => exact (encBody_keepsBytes hinv.dmem).keepsBytes h
  | dec => exact (decBody_keepsBytes s).keepsBytes h
  | _ => exact KeepsBytes.of_dmem_eq _ (exec_dmem_eq h (by simp) nofun)

end Sys2Proof.Machine
end

section
/-! PROOFS. The statements of spec/30_encoding.md: the decoder by the fields of the word, the words it refuses, and the
completion of a refused word (spec/60_exceptions.md R507). -/

namespace Sys2Proof.Machine

open Sys2Proof.Laws.EncodeFields (opcode)

/-! ### The decoder by the fields of the word -/

/-- The operand fields of the word that the instruction uses hold the instruction's operands (30 R201, R202). -/
def HasOperands (w : Word) : Instr → Prop
  | .ftAdd c | .ctLookup c | .bpAppendCode c => symField w = c
  | .bpAppendBit b => bitField w = b
  | .bpAppendFixed n | .brReadFixed n => widthField w = n
  | _ => True

/-- A word whose reserved bits are 0 is decoded by its opcode (30 R212). -/
theorem decode_of_reserved {w : Word} (h : w &&& 0xFF008000#32 = 0#32) : decode w = decodeOpcode w :=
  if_neg (not_not_intro h)

/-- A word with the opcode and the operands of an instruction that breaks no check decodes to it (30 R203, R210). -/
theorem decode_of_operands {w : Word} {i : Instr} (hres : w &&& 0xFF008000#32 = 0#32) (hopc : opcField w = opcode i)
    (hops : HasOperands w i) (hwf : i.wellFormed = true) : decode w = .ok i := by
  rw [decode_of_reserved hres, decodeOpcode, hopc]
  cases i with
  | ftAdd c | ctLookup c | bpAppendCode c | bpAppendBit b => cases hops; rfl
  | bpAppendFixed n | brReadFixed n => cases hops; exact if_pos (of_decide_eq_true hwf)
  | _ => rfl

theorem encode_reserved (i : Instr) : encode i &&& 0xFF008000#32 = 0#32 := by
  cases i <;> exact assembleWord_reserved _ _ _ _

theorem encode_opcField (i : Instr) : opcField (encode i) = opcode i := by
  cases i <;> exact (assembleWord_fields _ _ _ _).1

theorem encode_hasOperands (i : Instr) : HasOperands (encode i) i := by
  cases i with
  | ftAdd c | ctLookup c | bpAppendCode c => exact (assembleWord_fields _ c _ _).2.1
  | bpAppendBit b => exact (assembleWord_fields _ _ b _).2.2.1
  | bpAppendFixed n | brReadFixed n => exact (assembleWord_fields _ _ _ n).2.2.2
  | _ => trivial

/-- Settles O1: the assembled word has zeros in its reserved fields, and the instruction's opcode and operands. -/
theorem decodeOfEncode : Obligations.DecodeOfEncode := fun i hwf =>
  decode_of_operands (encode_reserved i) (encode_opcField i) (encode_hasOperands i) hwf

/-! ### The mask of the opcode map -/

/-- The mask of the opcode map keeps the reserved fields. -/
theorem mask_reserved (w : Word) : w &&& 0xFF0080FF#32 &&& 0xFF008000#32 = w &&& 0xFF008000#32 :=
  BitVec.and_assoc w _ _

/-- The mask of the opcode map keeps OPC. -/
theorem opcField_mask (w : Word) : opcField (w &&& 0xFF0080FF#32) = opcField w :=
  BitVec.extractLsb'_and.trans BitVec.and_allOnes

/-- The row of an instruction in the opcode map (30 R210). -/
theorem decode_of_match {w r : Word} {i : Instr} (h : w &&& 0xFF0080FF#32 = r) (hops : HasOperands w i)
    (hwf : i.wellFormed = true) (hres : r &&& 0xFF008000#32 = 0#32 := by rfl)
    (hopc : opcField r = opcode i := by rfl) : decode w = .ok i := by
  refine decode_of_operands ?_ ?_ hops hwf
  · rw [← mask_reserved, h, hres]
  · rw [← opcField_mask, h, hopc]

/-- Settles O2, row by row. -/
theorem opcodeMap : Obligations.OpcodeMap := fun _ =>
  ⟨fun h => decode_of_match h trivial rfl,
    fun h => decode_of_match h trivial rfl,
    fun h => decode_of_match h rfl rfl,
    fun h => decode_of_match h trivial rfl,
    fun h => decode_of_match h trivial rfl,
    fun h => decode_of_match h trivial rfl,
    fun h => decode_of_match h trivial rfl,
    fun h => decode_of_match h rfl rfl,
    fun h => decode_of_match h trivial rfl,
    fun h => decode_of_match h rfl rfl,
    fun h => decode_of_match h trivial rfl,
    fun h hw => decode_of_match h rfl (decide_eq_true hw),
    fun h => decode_of_match h rfl rfl,
    fun h => decode_of_match h trivial rfl,
    fun h => decode_of_match h trivial rfl,
    fun h => decode_of_match h trivial rfl,
    fun h hw => decode_of_match h rfl (decide_eq_true hw),
    fun h => decode_of_match h trivial rfl,
    fun h => decode_of_match h trivial rfl,
    fun h => decode_of_match h trivial rfl,
    fun h => decode_of_match h trivial rfl⟩

/-- Below the reserved bits the decoder reads OPC and the operand field that OPC uses, and nothing else (30 R202). -/
theorem decodeOpcode_congr {w w' : Word} (hopc : opcField w = opcField w')
    (hsym : (opcField w).toNat ∈ [0x11, 0x21, 0x34] → symField w = symField w')
    (hbit : (opcField w).toNat = 0x31 → bitField w = bitField w')
    (hwidth : (opcField w).toNat ∈ [0x33, 0x42] → widthField w = widthField w') :
    decodeOpcode w = decodeOpcode w' := by
  unfold decodeOpcode
  rw [← hopc]
  split <;> simp_all

/-- Settles O3: the mask keeps the reserved fields and OPC, and the operand field in use agrees. -/
theorem unusedFieldsAreIgnored : Obligations.UnusedFieldsAreIgnored := by
  intro w w' hmask hsym hbit hwidth
  have hres : w &&& 0xFF008000#32 = w' &&& 0xFF008000#32 := by rw [← mask_reserved w, hmask, mask_reserved]
  have hopc : opcField w = opcField w' := by rw [← opcField_mask w, hmask, opcField_mask]
  rw [decode, decode, hres, decodeOpcode_congr hopc hsym hbit hwidth]

/-! ### The illegal words -/

/-- A check that answers a command or an error answers the error where it fails. -/
theorem check_error_iff {p : Prop} [Decidable p] {i : Instr} {d : DecodeError} :
    (∃ e, (if p then Except.ok i else .error d) = .error e) ↔ ¬p := by
  by_cases h : p <;> simp [h]

/-- With the reserved bits 0, a word is refused for its opcode or for its WIDTH (30 R203, R211). -/
theorem decodeOpcode_error_iff (w : Word) : (∃ e, decodeOpcode w = .error e) ↔
    (opcField w).toNat ∉ [0x00, 0x10, 0x11, 0x12, 0x13, 0x14, 0x20, 0x21, 0x30, 0x31, 0x32, 0x33, 0x34, 0x35,
        0x40, 0x41, 0x42, 0x43, 0x44, 0x50, 0x51] ∨
      ((opcField w).toNat ∈ [0x33, 0x42] ∧ maxWidth < (widthField w).toNat) := by
  unfold decodeOpcode
  split <;> simp_all [check_error_iff]

/-- Settles O4, by the reserved bits and then the opcode. -/
theorem illegalWords : Obligations.IllegalWords := by
  intro w
  by_cases hres : w &&& 0xFF008000#32 = 0#32
  · rw [decode_of_reserved hres, decodeOpcode_error_iff]
    simp only [hres, ne_eq, not_true_eq_false, false_or]
    rfl
  · exact iff_of_true ⟨.reservedBits, if_pos hres⟩ (.inl hres)

/-- Settles O8: the engine's turn is its step, and the step of an illegal word is its completion. -/
theorem illegalWordCompletes : Obligations.IllegalWordCompletes := by
  intro s e hnext hbusy hdec
  have hb : (afterTurn s).busy = true := hbusy
  have hf : fetch (afterTurn s) = .error e := hdec
  rw [step_of_engineNext hnext, engineStep, if_pos hb, hf]
  rfl

/-- Settles O9: a WIDTH of at most 32 by the row of the opcode, a larger one as an illegal word. -/
theorem widthCheck : Obligations.WidthCheck := by
  intro s hmatch
  refine ⟨fun hw => ?_, fun hw hnext hbusy => ?_⟩
  · have hwf : decide ((widthField s.cmd).toNat ≤ maxWidth) = true := decide_eq_true hw
    rcases hmatch with h | h
    · exact ⟨.bpAppendFixed (widthField s.cmd), hwf, decode_of_match h rfl hwf⟩
    · exact ⟨.brReadFixed (widthField s.cmd), hwf, decode_of_match h rfl hwf⟩
  · have hopc : (opcField s.cmd).toNat ∈ [0x33, 0x42] := by
      rw [← opcField_mask]
      rcases hmatch with h | h <;> rw [h] <;> decide
    obtain ⟨e, he⟩ := (illegalWords s.cmd).2 (.inr (.inr ⟨hopc, hw⟩))
    exact illegalWordCompletes s e hnext hbusy he

/-- Settles O5: ten closed words, evaluated. -/
theorem sampleWords : Obligations.SampleWords := by
  unfold Obligations.SampleWords
  decide

end Sys2Proof.Machine
end

section
/-! PROOFS. The statements of spec/40_tree_builder.md and of NOP (spec/45_control.md R490): each body by the condition it
checks, and the tree by what the builder guarantees of it (`TreeOf`). -/

namespace Sys2Proof.Machine

/-! ### A command by how its body ends -/

/-- A command whose body ends with a value completes with OK (60 R506). -/
theorem conclude_of_ok {α : Type} {r : Res α} {a : α} {s : State} (h : r = .ok a s) :
    conclude r = .next (completed .ok s) := by
  subst h
  rfl

/-- A command whose body raises a code completes with the code (60 R506). -/
theorem conclude_of_raise {α : Type} {r : Res α} {e : ErrCode} {s : State} (h : r = .raise e s) :
    conclude r = .next (completed e s) := by
  subst h
  rfl

section
variable {s : State}

/-! ### The frequency table -/

/-- FT_ADD refuses a symbol of the table (40 R253). -/
theorem ftAddBody_of_mem {sym : Byte} (h : sym ∈ s.ft.map FtEntry.sym) :
    ftAddBody sym s = .raise .invalidInput s :=
  if_pos ((ftHas_iff s.ft sym).2 h)

/-- FT_ADD appends a new symbol (40 R253). -/
theorem ftAddBody_of_notMem {sym : Byte} (h : sym ∉ s.ft.map FtEntry.sym) :
    ftAddBody sym s = .ok () (invalidate { s with ft := s.ft ++ [{ sym := sym, w := s.arg0 }] }) :=
  if_neg (mt (ftHas_iff s.ft sym).1 h)

/-- FT_GET reads the entry at its index (40 R256). -/
theorem ftGetBody_of_some {e : FtEntry} (h : s.ft[s.arg0.toNat]? = some e) :
    ftGetBody s = .ok () (setResults e.w (e.sym.setWidth 32) 0 s) := by
  rw [ftGetBody, h]

/-- FT_GET refuses an index past the table (40 R254). -/
theorem ftGetBody_of_none (h : s.ft[s.arg0.toNat]? = none) : ftGetBody s = .raise .stateError s := by
  rw [ftGetBody, h]

/-! ### The tree -/

/-- TB_BUILD refuses the empty table (40 R267). -/
theorem tbBuildBody_of_empty (h : s.ft = []) : tbBuildBody s = .raise .invalidInput s :=
  if_pos (List.isEmpty_iff.2 h)

/-- TB_BUILD stores the table's tree and invalidates the codes (40 R260, R266). -/
theorem tbBuildBody_of_entries (h : s.ft ≠ []) :
    tbBuildBody s = .ok () { s with tree := buildTree s.ft, ct := { s.ct with valid := false } } :=
  if_neg (mt List.isEmpty_iff.1 h)

/-- TB_NODE reads the node at its index (40 R270). -/
theorem tbNodeBody_of_some {nd : Node} (hv : s.tree.valid = true) (h : s.tree.nodes[s.arg0.toNat]? = some nd) :
    tbNodeBody s = .ok () (nodeResults nd s) := by
  rw [tbNodeBody, if_pos hv, h]

/-- TB_NODE refuses a tree that is not valid and an index past the nodes (40 R254, R255). -/
theorem tbNodeBody_of_none (h : s.tree.valid = false ∨ s.tree.nodes[s.arg0.toNat]? = none) :
    tbNodeBody s = .raise .stateError s := by
  rw [tbNodeBody]
  split_ifs with hv
  · rw [h.resolve_left (by simp [hv])]
  · rfl

end

/-- Settles O37: TB_BUILD stores the table's tree, which has the builder's shape. -/
theorem tbBuild : Obligations.TbBuild := fun s hft =>
  ⟨fun hne =>
    have ht := treeOf_buildTree s.ft hne hft
    ⟨buildTree s.ft, conclude_of_ok (tbBuildBody_of_entries hne), ht.valid, ht.nn, ht.root, ht.leaves⟩,
  fun he => conclude_of_raise (tbBuildBody_of_empty he)⟩

/-- Settles O38: the loop's invariant holds every node past the leaves to the merge the rules ask for. -/
theorem treeMerges : Obligations.TreeMerges := fun s hft hne =>
  ⟨_, conclude_of_ok (tbBuildBody_of_entries hne), (treeOf_buildTree s.ft hne hft).merges⟩

/-- The root of a built tree is no node's child: it is the last node, and children stand lower (40 R266, R269). -/
theorem TreeOf.root_ne_child {ft : List FtEntry} {t : Tree} (h : TreeOf ft t) {i : Nat} {zero one : BitVec 9}
    {w : Weight} (hn : t.nodes[i]? = some (.internal zero one w)) : t.root ≠ zero.toNat ∧ t.root ≠ one.toNat := by
  obtain ⟨-, hz, ho⟩ := h.internal_lt hn
  have hi := h.lt_of_some hn
  have hr := h.nodesPos
  omega

/-- Settles O39: a valid tree is the table's built tree, and each bound is a fact about built trees. -/
theorem treeShape : Obligations.TreeShape := by
  intro s hft htree hv
  obtain ⟨hne, htb⟩ := htree hv
  have ht : TreeOf s.ft s.tree := htb ▸ treeOf_buildTree s.ft hne hft
  refine ⟨ht.ftPos, ?_, fun i zero one w hn => ?_, fun j hj hr => ?_, fun i zero one w hn => ht.root_ne_child hn,
    fun path leaf sym w hp _ => ht.follow_length hp⟩
  · have := ft_length_le s.ft hft
    omega
  · obtain ⟨-, hz, ho⟩ := ht.internal_lt hn
    exact ⟨hz, ho, fun heq => ht.children_ne hn (congrArg BitVec.toNat heq)⟩
  · obtain ⟨i, zero, one, w, hn, hc⟩ := ht.exists_parent hj hr
    refine ⟨i, ⟨zero, one, w, hn, hc⟩, ?_⟩
    rintro i' ⟨zero', one', w', hn', hc'⟩
    exact ht.parent_unique hn' hn hc' hc

/-- Settles O40, by the kind of the node at the index. -/
theorem tbNode : Obligations.TbNode := fun _ =>
  ⟨fun _ _ hv hn => conclude_of_ok (tbNodeBody_of_some hv hn),
  fun _ _ _ hv hn => conclude_of_ok (tbNodeBody_of_some hv hn),
  fun h => conclude_of_raise (tbNodeBody_of_none (h.imp_right List.getElem?_eq_none))⟩

/-- Settles O34: neither command checks anything before it completes. -/
theorem nopAndFtClear : Obligations.NopAndFtClear := fun _ => ⟨rfl, rfl⟩

/-- Settles O35, by whether the table has the symbol. -/
theorem ftAdd : Obligations.FtAdd := fun _ _ =>
  ⟨fun h => conclude_of_ok (ftAddBody_of_notMem fun hm =>
    have ⟨e, he, hsym⟩ := List.mem_map.1 hm
    h e he hsym),
  fun h => conclude_of_raise (ftAddBody_of_mem (List.mem_map.2 h))⟩

/-- Settles O36, by whether the table has an entry at the index. -/
theorem ftGet : Obligations.FtGet := fun _ =>
  ⟨fun _ h => conclude_of_ok (ftGetBody_of_some h),
  fun h => conclude_of_raise (ftGetBody_of_none (List.getElem?_eq_none h))⟩

end Sys2Proof.Machine
end

section
/-! PROOFS. The statements of spec/41_code_table.md: each body by the condition it checks, and the codes as the paths from
the root of a built tree to its leaves (`TreeOf`, `leadsTo`). -/

namespace Sys2Proof.Machine

/-! ### Paths to the leaves of a built tree -/

namespace TreeOf

variable {ft : List FtEntry} {t : Tree} {p : Bits} {sym : Byte}

/-- A path to a leaf has fewer bits than the table has entries (41 R305). -/
theorem leadsTo_length_lt (h : TreeOf ft t) (hp : leadsTo t p sym) : p.length < ft.length := by
  obtain ⟨l, w, hl, -⟩ := hp
  have hlen := h.follow_length hl
  have hpos := h.ftPos
  omega

/-- Where the root is a leaf, the table has one entry only: the root is the last node (40 R266). -/
theorem length_of_leadsTo_nil (h : TreeOf ft t) (hp : leadsTo t [] sym) : ft.length = 1 := by
  obtain ⟨l, w, hl, hn⟩ := hp
  obtain rfl : t.root = l := Option.some.inj hl
  obtain ⟨e, he, -⟩ := h.leaf_iff.1 hn
  have hlt := (List.getElem?_eq_some_iff.1 he).1
  have hroot := h.root
  omega

end TreeOf

section
variable {s : State}

/-- A valid tree has the builder's shape (40 R251). -/
theorem TreeOk.treeOf (htree : TreeOk s) (hft : FtOk s) (hv : s.tree.valid = true) : TreeOf s.ft s.tree := by
  obtain ⟨hne, ht⟩ := htree hv
  exact ht ▸ treeOf_buildTree s.ft hne hft

/-- The codes of a valid code table are the paths to the leaves of the table's tree (41 R301, R304). -/
theorem CtOk.codeOf_iff (hct : CtOk s) (hft : FtOk s) (htree : TreeOk s) (hv : s.ct.valid = true) (sym : Byte)
    (p : Bits) : codeOf s.ct.codes sym = some p ↔ leadsTo s.tree p sym := by
  obtain ⟨htv, hder⟩ := hct hv
  obtain ⟨codes, hcodes, hiff⟩ := deriveCodes_spec (htree.treeOf hft htv) hft
  obtain rfl : codes = s.ct.codes := Except.ok.inj (hcodes.symm.trans hder)
  exact hiff sym p

/-! ### The two commands by what they check -/

/-- CT_DERIVE stores the codes of a valid tree (41 R300). -/
theorem ctDeriveBody_of_codes {codes : Codes} (hv : s.tree.valid = true) (h : deriveCodes s.tree = .ok codes) :
    ctDeriveBody s = .ok () { s with ct := { valid := true, codes := codes } } := by
  rw [ctDeriveBody, if_pos hv, h]

/-- CT_DERIVE refuses a tree that is not valid (41 R300). -/
theorem ctDeriveBody_of_invalid (hv : s.tree.valid = false) : ctDeriveBody s = .raise .stateError s :=
  if_neg (Bool.eq_false_iff.1 hv)

/-- CT_LOOKUP gives a code's length and the code in the window (41 R310). -/
theorem ctLookupBody_of_code {sym : Byte} {p : Bits} (hv : s.ct.valid = true) (h : codeOf s.ct.codes sym = some p) :
    ctLookupBody sym s =
      .ok () { setResults (BitVec.ofNat 32 p.length) 0 0 s with bitwin := bitwinOf p } := by
  rw [ctLookupBody, validCode, if_pos hv, h]

/-- CT_LOOKUP refuses a code table that is not valid and a symbol without a code (41 R310). -/
theorem ctLookupBody_of_none {sym : Byte} (h : s.ct.valid = false ∨ codeOf s.ct.codes sym = none) :
    ctLookupBody sym s = .raise .stateError s := by
  rw [ctLookupBody, validCode]
  split_ifs with hv
  · rw [h.resolve_left (by simp [hv])]
  · rfl

end

/-! ### The statements -/

/-- Settles O41: the walk over a built tree records for each symbol the path to its leaf, and every leaf is reached. -/
theorem ctDerive : Obligations.CtDerive := by
  refine fun s => ⟨fun hft htree hv => ?_, fun hv => conclude_of_raise (ctDeriveBody_of_invalid hv)⟩
  have ht := htree.treeOf hft hv
  obtain ⟨codes, hder, hiff⟩ := deriveCodes_spec ht hft
  refine ⟨codes, conclude_of_ok (ctDeriveBody_of_codes hv hder), hiff, fun sym => ?_⟩
  calc codeOf codes sym ≠ none
      ↔ ∃ p, codeOf codes sym = some p := Option.ne_none_iff_exists'
    _ ↔ ∃ p, leadsTo s.tree p sym := exists_congr (hiff sym)
    _ ↔ sym ∈ s.ft.map FtEntry.sym := leadsTo_iff_mem ht sym
    _ ↔ ∃ e ∈ s.ft, e.sym = sym := List.mem_map

/-- Settles O42: codes are paths to leaves of the table's tree, and no path goes on past a leaf. -/
theorem codesArePrefixFree : Obligations.CodesArePrefixFree := by
  intro s hft htree hct hv
  have hpath := hct.codeOf_iff hft htree hv
  have ht := htree.treeOf hft (hct hv).1
  have hlen : ∀ a p, codeOf s.ct.codes a = some p → p.length < s.ft.length := fun a p h =>
    ht.leadsTo_length_lt ((hpath a p).1 h)
  refine ⟨fun a b p q ha hb => leadsTo_prefixFree ((hpath a p).1 ha) ((hpath b q).1 hb), fun a p h => ?_,
    fun a p h htwo => ?_, fun a p h hone => ?_⟩
  · have := hlen a p h
    have := ft_length_le s.ft hft
    omega
  · refine List.length_pos_iff.2 fun hnil => ?_
    have := ht.length_of_leadsTo_nil (hnil ▸ (hpath a p).1 h)
    omega
  · have := hlen a p h
    exact List.length_eq_zero_iff.1 (by omega)

/-- Settles O43: a code of at most 255 bits keeps its length in RESULT0, and the window holds it bit by bit. -/
theorem ctLookup : Obligations.CtLookup := by
  refine fun sym s => ⟨fun p hv hp hlen => ?_, fun h => conclude_of_raise (ctLookupBody_of_none h)⟩
  refine ⟨BitVec.ofNat 32 p.length, bitwinOf p, conclude_of_ok (ctLookupBody_of_code hv hp), ?_, fun i => ?_⟩
  · rw [BitVec.toNat_ofNat, Nat.mod_eq_of_lt (by omega)]
  · rw [← bitwinBit_eq_getLsbD, bitwinBit_bitwinOf p i.val i.isLt]

end Sys2Proof.Machine
end

section
/-! PROOFS. The statements of spec/42_bit_packer.md and of BR_INIT (spec/43_bit_reader.md R403): each body by the
conditions it checks, in their order, and the sequence that every append command hands to the one shared append. -/

namespace Sys2Proof.Machine

section
variable {s : State}

/-! ### A range is latched -/

/-- BP_INIT latches an output range that lies in DMEM (42 R353). -/
theorem bpInitBody_inRange (h : s.outBase.toNat + s.outCap.toNat ≤ s.dmemSize) :
    bpInitBody s = .ok () { s with bp := freshPacker s.outBase s.outCap } :=
  if_pos (decide_eq_true h)

/-- BP_INIT refuses an output range that passes the end of DMEM (42 R353, 20 R157). -/
theorem bpInitBody_outOfRange (h : s.dmemSize < s.outBase.toNat + s.outCap.toNat) :
    bpInitBody s = .raise .address s :=
  if_neg (mt of_decide_eq_true h.not_ge)

/-- BR_INIT latches an input range that lies in DMEM (43 R403). -/
theorem brInitBody_inRange (h : s.inBase.toNat + s.inLen.toNat ≤ s.dmemSize) :
    brInitBody s = .ok () { s with br := freshReader s.inBase s.inLen } :=
  if_pos (decide_eq_true h)

/-- BR_INIT refuses an input range that passes the end of DMEM (43 R403, 20 R157). -/
theorem brInitBody_outOfRange (h : s.dmemSize < s.inBase.toNat + s.inLen.toNat) :
    brInitBody s = .raise .address s :=
  if_neg (mt of_decide_eq_true h.not_ge)

/-! ### The checks of the append commands, in their order -/

/-- BP_APPEND_BIT refuses to run without an active packer (42 R354, R360). -/
theorem bpAppendBitBody_inactive (bit : Bool) (h : s.bp.active = false) :
    bpAppendBitBody bit s = .raise .stateError s :=
  if_neg (Bool.eq_false_iff.1 h)

/-- BP_APPEND_BIT past its checks appends its bit (42 R360). -/
theorem bpAppendBitBody_checked (bit : Bool) (h : s.bp.active = true) : bpAppendBitBody bit s = appendSeq [bit] s :=
  if_pos h

/-- BP_APPEND_SEQ refuses a length that the window does not hold, whatever the packer (42 R362). -/
theorem bpAppendSeqBody_tooLong (h : maxSeq < s.arg1.toNat) : bpAppendSeqBody s = .raise .illegalCommand s := if_pos h

/-- BP_APPEND_SEQ refuses to run without an active packer (42 R354, R362). -/
theorem bpAppendSeqBody_inactive (hlen : s.arg1.toNat ≤ maxSeq) (h : s.bp.active = false) :
    bpAppendSeqBody s = .raise .stateError s := by
  rw [bpAppendSeqBody, if_neg hlen.not_gt, if_neg (Bool.eq_false_iff.1 h)]

/-- BP_APPEND_SEQ past its checks appends the first bits of the window (42 R362). -/
theorem bpAppendSeqBody_checked (hlen : s.arg1.toNat ≤ maxSeq) (h : s.bp.active = true) :
    bpAppendSeqBody s = appendSeq (bitwinSeq s.bitwin s.arg1.toNat) s := by
  rw [bpAppendSeqBody, if_neg hlen.not_gt, if_pos h]

/-- BP_APPEND_FIXED refuses a width over 32, whatever the packer and the value (42 R363). -/
theorem bpAppendFixedBody_tooWide {width : BitVec 6} (h : maxWidth < width.toNat) :
    bpAppendFixedBody width s = .raise .illegalCommand s :=
  if_pos h

/-- BP_APPEND_FIXED refuses to run without an active packer, whatever the value (42 R354, R363). -/
theorem bpAppendFixedBody_inactive {width : BitVec 6} (hwidth : width.toNat ≤ maxWidth) (h : s.bp.active = false) :
    bpAppendFixedBody width s = .raise .stateError s := by
  rw [bpAppendFixedBody, if_neg hwidth.not_gt, if_pos (by rw [h]; rfl)]

/-- BP_APPEND_FIXED with an active packer and a legal width goes on to check the value (42 R363). -/
theorem bpAppendFixedBody_active {width : BitVec 6} (hwidth : width.toNat ≤ maxWidth) (h : s.bp.active = true) :
    bpAppendFixedBody width s =
      if 2 ^ width.toNat ≤ s.arg0.toNat then .raise .range s
      else appendSeq (msbBits s.arg0.toNat width.toNat) s := by
  rw [bpAppendFixedBody, if_neg hwidth.not_gt, if_neg (by rw [h]; decide)]

/-- BP_APPEND_FIXED refuses a value that does not fit the width (42 R363). -/
theorem bpAppendFixedBody_tooLarge {width : BitVec 6} (hwidth : width.toNat ≤ maxWidth) (h : s.bp.active = true)
    (hval : 2 ^ width.toNat ≤ s.arg0.toNat) : bpAppendFixedBody width s = .raise .range s := by
  rw [bpAppendFixedBody_active hwidth h, if_pos hval]

/-- BP_APPEND_FIXED past its checks appends the value, most significant bit first (42 R363). -/
theorem bpAppendFixedBody_checked {width : BitVec 6} (hwidth : width.toNat ≤ maxWidth) (h : s.bp.active = true)
    (hval : s.arg0.toNat < 2 ^ width.toNat) :
    bpAppendFixedBody width s = appendSeq (msbBits s.arg0.toNat width.toNat) s := by
  rw [bpAppendFixedBody_active hwidth h, if_neg hval.not_ge]

/-- BP_APPEND_CODE refuses to run without an active packer, a valid code table and a code for its symbol (42 R364). -/
theorem bpAppendCodeBody_refused {sym : Byte}
    (h : s.bp.active = false ∨ s.ct.valid = false ∨ codeOf s.ct.codes sym = none) :
    bpAppendCodeBody sym s = .raise .stateError s := by
  rw [bpAppendCodeBody, validCode]
  split_ifs with hact hv
  · have hnone := (h.resolve_left (by simp [hact])).resolve_left (by simp [hv])
    rw [hnone]
  · rfl
  · rfl

/-- BP_APPEND_CODE past its checks appends the symbol's code (42 R364). -/
theorem bpAppendCodeBody_checked {sym : Byte} {p : Bits} (hact : s.bp.active = true) (hv : s.ct.valid = true)
    (hp : codeOf s.ct.codes sym = some p) : bpAppendCodeBody sym s = appendSeq p s := by
  rw [bpAppendCodeBody, validCode, if_pos hact, if_pos hv, hp]

/-! ### The shared append, by whether the sequence fits -/

/-- A command that comes to append a sequence which does not fit completes with CapacityError, and appends no bit of it
(42 R352, R361). -/
theorem conclude_append_full {r : Res Unit} {seq : Bits} {n : Nat} (hr : r = appendSeq seq s) (hlen : seq.length = n)
    (hfull : s.bp.cap.toNat < ceilDiv (packerBits s.bp + n) 8) : conclude r = .next (completed .capacity s) := by
  subst hlen
  exact conclude_of_raise (hr.trans (if_neg (mt of_decide_eq_true hfull.not_ge)))

/-- A command that comes to append a sequence which fits completes with OK, and the stream has grown by the sequence
(42 R352, R361). -/
theorem conclude_append_room {r : Res Unit} {seq : Bits} {n : Nat} (hr : r = appendSeq seq s) (hlen : seq.length = n)
    (hm : DmemOk s) (hp : PackerOk s) (hfit : ceilDiv (packerBits s.bp + n) 8 ≤ s.bp.cap.toNat) :
    ∃ t, conclude r = .next (completed .ok t) ∧ Appended seq s t := by
  subst hlen
  have hroom : room seq.length s = true := decide_eq_true hfit
  obtain ⟨t, ht, happ, -⟩ := putBits_inRoom seq s hm hp hroom
  exact ⟨t, conclude_of_ok (hr.trans ((if_pos hroom).trans ht)), happ⟩

/-- BP_FINISH refuses to run without an active packer (42 R354, R365). -/
theorem bpFinishBody_inactive (h : s.bp.active = false) : bpFinishBody s = .raise .stateError s :=
  if_neg (Bool.eq_false_iff.1 h)

end

/-! ### The statements -/

/-- Settles O45, by whether the range ends in DMEM. -/
theorem initCommands : Obligations.InitCommands := fun _ =>
  ⟨fun h => conclude_of_ok (bpInitBody_inRange h), fun h => conclude_of_raise (bpInitBody_outOfRange h),
  fun h => conclude_of_ok (brInitBody_inRange h), fun h => conclude_of_raise (brInitBody_outOfRange h)⟩

/-- Settles O46: an active packer appends the sequence of the one bit. -/
theorem bpAppendBit : Obligations.BpAppendBit := fun b _ =>
  ⟨fun hact => conclude_of_raise (bpAppendBitBody_inactive b hact),
  fun hact hfull => conclude_append_full (bpAppendBitBody_checked b hact) rfl hfull,
  fun hm hp hact hfit => conclude_append_room (bpAppendBitBody_checked b hact) rfl hm hp hfit⟩

/-- Settles O47: past its checks the command appends a sequence of ARG1 bits. -/
theorem bpAppendSeq : Obligations.BpAppendSeq := fun s =>
  have hlen := bitwinSeq_length s.bitwin s.arg1.toNat
  ⟨fun hlong => conclude_of_raise (bpAppendSeqBody_tooLong hlong),
  fun hle hact => conclude_of_raise (bpAppendSeqBody_inactive hle hact),
  fun hle hact hfull => conclude_append_full (bpAppendSeqBody_checked hle hact) hlen hfull,
  fun hm hp hle hact hfit => conclude_append_room (bpAppendSeqBody_checked hle hact) hlen hm hp hfit⟩

/-- Settles O48: past its checks the command appends a sequence of `width` bits. -/
theorem bpAppendFixed : Obligations.BpAppendFixed := fun w s =>
  have hlen := msbBits_length s.arg0.toNat w.toNat
  ⟨fun hwide => conclude_of_raise (bpAppendFixedBody_tooWide hwide),
  fun hle hact => conclude_of_raise (bpAppendFixedBody_inactive hle hact),
  fun hle hact hval => conclude_of_raise (bpAppendFixedBody_tooLarge hle hact hval),
  fun hle hact hval hfull => conclude_append_full (bpAppendFixedBody_checked hle hact hval) hlen hfull,
  fun hm hp hle hact hval hfit =>
    conclude_append_room (bpAppendFixedBody_checked hle hact hval) hlen hm hp hfit⟩

/-- Settles O49: past its checks the command appends the symbol's code, which may have no bit. -/
theorem bpAppendCode : Obligations.BpAppendCode := fun _ _ =>
  ⟨fun h => conclude_of_raise (bpAppendCodeBody_refused h),
  fun _ hact hv hcode hfull => conclude_append_full (bpAppendCodeBody_checked hact hv hcode) rfl hfull,
  fun _ hm hp hact hv hcode hfit =>
    conclude_append_room (bpAppendCodeBody_checked hact hv hcode) rfl hm hp hfit⟩

/-- Settles O50: the body of an active packer finishes the stream. -/
theorem bpFinish : Obligations.BpFinish := by
  refine fun s => ⟨fun hact => conclude_of_raise (bpFinishBody_inactive hact), fun hm hp hact => ?_⟩
  obtain ⟨t, ht, hfin, -⟩ := bpFinishBody_active s hm hp hact
  exact ⟨t, conclude_of_ok ht, hfin⟩

end Sys2Proof.Machine
end

section
/-! PROOFS. The statements of spec/43_bit_reader.md but BR_INIT's: each body by the conditions it checks, in their
order, and past its checks by what the reader's primitives do where the bits remain. -/

namespace Sys2Proof.Machine

section
variable {s : State}

/-! ### BR_READ_BIT -/

/-- BR_READ_BIT refuses to run without an active reader (43 R404, R411). -/
theorem brReadBitBody_inactive (hact : s.br.active = false) : brReadBitBody s = .raise .stateError s := by
  rw [brReadBitBody, if_pos (by rw [hact]; rfl)]

/-- BR_READ_BIT at the end of the buffer consumes nothing (43 R405, R411). -/
theorem brReadBitBody_ended (hact : s.br.active = true) (hend : 8 * s.br.len.toNat ≤ s.br.pos) :
    brReadBitBody s = .raise .endOfStream s := by
  have hrem : remaining s = 0 := Nat.sub_eq_zero_of_le hend
  rw [brReadBitBody, if_neg (by rw [hact]; decide), if_pos hrem]

/-- BR_READ_BIT past its checks gives the bit that the reader gets (43 R411). -/
theorem brReadBitBody_checked {b : Bool} {t : State} (hact : s.br.active = true) (hpos : s.br.pos < 8 * s.br.len.toNat)
    (hget : getBit s = .ok b t) : brReadBitBody s = .ok () (setResults (if b then 1#32 else 0#32) 0 0 t) := by
  have hrem : remaining s ≠ 0 := Nat.sub_ne_zero_of_lt hpos
  rw [brReadBitBody, if_neg (by rw [hact]; decide), if_neg hrem, hget, Res.bind_ok]
  cases b <;> rfl

/-! ### BR_READ_FIXED -/

/-- BR_READ_FIXED refuses a width over 32, whatever the reader (43 R412). -/
theorem brReadFixedBody_tooWide {width : BitVec 6} (hwide : maxWidth < width.toNat) :
    brReadFixedBody width s = .raise .illegalCommand s :=
  if_pos hwide

/-- BR_READ_FIXED refuses to run without an active reader (43 R404, R412). -/
theorem brReadFixedBody_inactive {width : BitVec 6} (hwidth : width.toNat ≤ maxWidth) (hact : s.br.active = false) :
    brReadFixedBody width s = .raise .stateError s := by
  rw [brReadFixedBody, if_neg hwidth.not_gt, if_pos (by rw [hact]; rfl)]

/-- BR_READ_FIXED with too few bits left consumes nothing (43 R405, R412). -/
theorem brReadFixedBody_ended {width : BitVec 6} (hwidth : width.toNat ≤ maxWidth) (hact : s.br.active = true)
    (hend : remaining s < width.toNat) : brReadFixedBody width s = .raise .endOfStream s := by
  rw [brReadFixedBody, if_neg hwidth.not_gt, if_neg (by rw [hact]; decide), if_pos hend]

/-- BR_READ_FIXED past its checks gives the number that `readfixed` reads (43 R412). -/
theorem brReadFixedBody_checked {width : BitVec 6} {v : Nat} {t : State} (hwidth : width.toNat ≤ maxWidth)
    (hact : s.br.active = true) (hrem : width.toNat ≤ remaining s) (hread : readFixed width.toNat s = .ok v t) :
    brReadFixedBody width s = .ok () (setResults (BitVec.ofNat 32 v) 0 0 t) := by
  rw [brReadFixedBody, if_neg hwidth.not_gt, if_neg (by rw [hact]; decide), if_neg hrem.not_gt, hread, Res.bind_ok]

/-- A number of at most 32 bits is what the register holds, as a number and bit by bit (00 R13, R14). -/
theorem word_of_width {v w : Nat} (hv : v < 2 ^ w) (hw : w ≤ 32) :
    (BitVec.ofNat 32 v).toNat = v ∧ ∀ i, (BitVec.ofNat 32 v).getLsbD i = v.testBit i := by
  have hword : (BitVec.ofNat 32 v).toNat = v := Nat.mod_eq_of_lt (hv.trans_le (Nat.pow_le_pow_right two_pos hw))
  exact ⟨hword, fun i => by rw [BitVec.getLsbD, hword]⟩

/-! ### The counts -/

/-- BR_REMAINING refuses to run without an active reader (43 R404, R413). -/
theorem brRemainingBody_inactive (hact : s.br.active = false) : brRemainingBody s = .raise .stateError s :=
  if_neg (Bool.eq_false_iff.1 hact)

/-- BR_REMAINING of an active reader counts the unread bits (43 R413). -/
theorem brRemainingBody_active (hact : s.br.active = true) :
    brRemainingBody s = .ok () (countResults (remaining s) s) :=
  if_pos hact

/-- BR_POSITION refuses to run without an active reader (43 R404, R414). -/
theorem brPositionBody_inactive (hact : s.br.active = false) : brPositionBody s = .raise .stateError s :=
  if_neg (Bool.eq_false_iff.1 hact)

/-- BR_POSITION of an active reader counts the consumed bits (43 R414). -/
theorem brPositionBody_active (hact : s.br.active = true) : brPositionBody s = .ok () (countResults s.br.pos s) :=
  if_pos hact

/-- The two words of a count of at most 35 bits: the upper one holds three bits (10 R63). -/
theorem count_words {n : Nat} (hn : n < 2 ^ 35) :
    (highWord35 n).toNat < 8 ∧ (lowWord n).toNat + 2 ^ 32 * (highWord35 n).toNat = n := by
  have hwords := words_of_35 n hn
  exact ⟨by omega, hwords⟩

/-- A buffer has at most `8·(2^32 − 1)` bits, so that both counts fit 35 bits (43 R402). -/
theorem ReaderOk.counts_lt (hro : ReaderOk s) : remaining s < 2 ^ 35 ∧ s.br.pos < 2 ^ 35 := by
  have hlen := s.br.len.isLt
  have hpos := hro.posLe
  rw [remaining]
  omega

end

/-! ### The statements -/

/-- Settles O51: past the checks `get()` gives the buffer's bit, or a draw's where the byte has changed. -/
theorem brReadBit : Obligations.BrReadBit := by
  refine fun s => ⟨fun hact => conclude_of_raise (brReadBitBody_inactive hact),
    fun hact hend => conclude_of_raise (brReadBitBody_ended hact hend), fun hro hact hpos => ?_⟩
  have hget := getBit_remaining s hro hpos
  exact ⟨fun hkept => conclude_of_ok (brReadBitBody_checked hact hpos (hget.trans (if_neg hkept))),
    fun hchanged => conclude_of_ok (brReadBitBody_checked hact hpos (hget.trans (if_pos hchanged)))⟩

/-- Settles O52: past the checks `readfixed` reads a number of `width` bits, which a register holds. -/
theorem brReadFixed : Obligations.BrReadFixed := by
  refine fun w s => ⟨fun hwide => conclude_of_raise (brReadFixedBody_tooWide hwide),
    fun hle hact => conclude_of_raise (brReadFixedBody_inactive hle hact),
    fun hle hact hend => conclude_of_raise (brReadFixedBody_ended hle hact hend), fun hro hle hact hfit => ?_⟩
  obtain ⟨v, d, hv, hread, hdraws, hbits, hkept⟩ := readFixed_remaining w.toNat s hro hfit
  obtain ⟨hword, hbit⟩ := word_of_width hv hle
  have hrem : w.toNat ≤ remaining s := Nat.le_sub_of_add_le' hfit
  refine ⟨BitVec.ofNat 32 v, d, conclude_of_ok (brReadFixedBody_checked hle hact hrem hread), ?_, ?_, hdraws,
    fun hun => (hkept hun).2⟩
  · rwa [hword]
  · intro i hi hun
    rw [hbit, hbits i hi hun]

/-- Settles O53: both counts fit 35 bits, and the unread and the consumed bits together are the buffer's. -/
theorem brCounts : Obligations.BrCounts := by
  refine fun s => ⟨fun hact => ⟨conclude_of_raise (brRemainingBody_inactive hact),
    conclude_of_raise (brPositionBody_inactive hact)⟩, fun hro hact => ?_⟩
  obtain ⟨hrem, hpos⟩ := hro.counts_lt
  obtain ⟨hremHigh, hremSum⟩ := count_words hrem
  refine ⟨⟨_, _, conclude_of_ok (brRemainingBody_active hact), hremHigh, ?_⟩,
    ⟨_, _, conclude_of_ok (brPositionBody_active hact), count_words hpos⟩⟩
  rw [hremSum, remaining, Nat.sub_add_cancel hro.posLe]

end Sys2Proof.Machine
end

section
/-! PROOFS. The statements of spec/44_codec.md: ENC and DEC by the checks they pass, and the round trip through a copy
of the container. -/

namespace Sys2Proof.Machine

/-! ### ENC by its checks -/

section
variable {s : State}

/-- ENC refuses ranges that leave DMEM or overlap before it changes anything (20 R157, R158). -/
theorem encBody_outOfRange (hr : ¬codecRanges s) : encBody s = .raise .address s := by
  rw [codecRanges_iff, Bool.not_eq_true] at hr
  rw [encBody, if_pos (by rw [hr]; rfl)]

/-- ENC refuses an empty input once its table is counted (44 R470). -/
theorem encBody_empty (hr : codecRanges s) (h0 : s.inLen.toNat = 0) :
    encBody s = .raise .invalidInput { clearTable s with outLen := 0 } := by
  rw [codecRanges_iff] at hr
  rcases encBody_cases s with ⟨hbad, -⟩ | ⟨-, -, hbody⟩ | ⟨-, hpos, -⟩
  · rw [hr] at hbad
    cases hbad
  · exact hbody
  · omega

/-- ENC of some input counts the table, builds its tree and derives its codes, and goes on with the checks (44 R460 to
R463). -/
theorem encBody_counted (hr : codecRanges s) (hpos : 0 < s.inLen.toNat) :
    ∃ codes, deriveCodes (buildTree (countBytes (inputBytes s))) = .ok codes ∧
      encBody s = encChecked (encPrepared s codes) := by
  rw [codecRanges_iff] at hr
  rcases encBody_cases s with ⟨hbad, -⟩ | ⟨-, h0, -⟩ | ⟨-, -, codes, hcodes, -, hbody⟩
  · rw [hr] at hbad
    cases hbad
  · omega
  · exact ⟨codes, hcodes, hbody⟩

end

/-- The count that ENC checks is the number of byte values of the input (44 R461, R464). -/
theorem encPrepared_count (s : State) (codes : Codes) :
    (encPrepared s codes).ft.length = (inputBytes s).dedup.length := countBytes_length _

theorem inputBytes_length_lt (s : State) : (inputBytes s).length < 2 ^ 32 := by
  rw [inputBytes_length]
  exact s.inLen.isLt

/-- The payload bits that ENC checks for are those of the payload (44 R465, R467). -/
theorem encPrepared_payloadBits (s : State) (codes : Codes) :
    payloadBits (encPrepared s codes).ft (encPrepared s codes).ct.codes = (payloadSeq codes (inputBytes s)).length :=
  payloadBits_countBytes codes _ (inputBytes_length_lt s)

/-- Settles O56, in the order of the checks: ranges, an empty input, the count field, the capacity. -/
theorem encErrors : Obligations.EncErrors := by
  refine fun s => ⟨fun hr => conclude_of_raise (encBody_outOfRange hr),
    fun hr h0 => conclude_of_raise (encBody_empty hr h0), fun hr hpos => ?_⟩
  obtain ⟨codes, hcodes, hbody⟩ := encBody_counted hr hpos
  refine ⟨codes, hcodes, fun hall => ?_, fun hle hcap => ?_⟩
  · have hmany : 255 < (encPrepared s codes).ft.length := by rw [encPrepared_count, hall]; decide
    exact conclude_of_raise (hbody.trans (encChecked_range _ hmany))
  · rw [← encPrepared_count s codes] at hle hcap
    rw [← encPrepared_payloadBits] at hcap
    exact conclude_of_raise (hbody.trans (encChecked_capacity _ hle hcap))

/-- Settles O55: past all checks ENC writes the container. -/
theorem encSucceeds : Obligations.EncSucceeds := by
  intro s hm hr hpos hle
  obtain ⟨codes, hcodes, -⟩ := encBody_counted hr hpos
  rw [← countBytes_length] at hle ⊢
  refine ⟨codes, hcodes, fun hfit => ?_⟩
  obtain ⟨t, hbody, henc, -⟩ := encBody_fits s hm codes hcodes ((codecRanges_iff s).1 hr) hpos hle hfit
  exact ⟨t, conclude_of_ok hbody, henc⟩

/-- Once its ranges pass, ENC completes with the table it counted, whatever its outcome (44 R470). -/
theorem exec_enc_table {s : State} (hm : DmemOk s) (hr : codecRanges s) :
    ∃ t, exec .enc s = .next t ∧ t.ft = countBytes (inputBytes s) := by
  obtain ⟨-, hempty, hcounted⟩ := encErrors s
  by_cases h0 : s.inLen.toNat = 0
  · refine ⟨_, hempty hr h0, ?_⟩
    rw [(inputBytes_eq_nil_iff s).2 h0]
    rfl
  have hpos : 0 < s.inLen.toNat := Nat.pos_of_ne_zero h0
  obtain ⟨codes, hcodes, hrange, hcapacity⟩ := hcounted hr hpos
  by_cases hle : (inputBytes s).dedup.length ≤ 255
  · obtain ⟨codes', hcodes', hfits⟩ := encSucceeds s hm hr hpos hle
    obtain rfl : codes = codes' := Except.ok.inj (hcodes.symm.trans hcodes')
    by_cases hfit : containerLen (inputBytes s).dedup.length (payloadSeq codes (inputBytes s)).length ≤ s.outCap.toNat
    · obtain ⟨t, hexec, henc⟩ := hfits hfit
      exact ⟨_, hexec, congrArg State.ft henc.rest⟩
    · exact ⟨_, hcapacity hle (Nat.lt_of_not_le hfit), rfl⟩
  · have hmax := ft_length_le _ (countBytes_nodup (inputBytes s))
    rw [countBytes_length] at hmax
    exact ⟨_, hrange (by omega), rfl⟩

/-- Settles O54: ENC leaves the table it counted, and these are the facts about a counted table. -/
theorem encTable : Obligations.EncTable := by
  intro s hm hr
  obtain ⟨t, hexec, hft⟩ := exec_enc_table hm hr
  refine ⟨t, hexec, ?_⟩
  rw [hft]
  have hlt := inputBytes_length_lt s
  refine ⟨countBytes_nodup _, fun c => ?_, countBytes_weight _ hlt, countBytes_order _, ?_⟩
  · rw [← mem_countBytes_syms, List.mem_map]
  · exact (totalWeight_countBytes _ hlt).trans (inputBytes_length s)

/-! ### DEC of a header that is refused -/

/-- DEC refuses ranges that leave DMEM or overlap before it changes anything (20 R157, R158). -/
theorem decBody_outOfRange {s : State} (hr : ¬codecRanges s) : decBody s = .raise .address s := by
  rw [codecRanges_iff, Bool.not_eq_true] at hr
  rw [decBody, if_pos (by rw [hr]; rfl)]

/-- An input of no byte ends before the count (44 R481). -/
theorem decHeader_empty {s : State} (h0 : s.inLen.toNat = 0) :
    decHeader (decStart s) = failCodec .corruptHeader (decStart s) := by
  have hrem : remaining (decStart s) < 8 := by
    show 8 * s.inLen.toNat - 0 < 8
    omega
  rw [decHeader, if_pos hrem]

/-- DEC stops where its header does (44 R480, R487). -/
theorem decBody_of_header_raise {s t : State} {e : ErrCode} (hr : codecRanges s)
    (h : decHeader (decStart s) = .raise e t) : decBody s = .raise e t := by
  rw [decBody_ranges s hr, h, Res.bind_raise]

/-- A header that fails after some entries, `k` bits further on, leaves these entries (44 R487). -/
theorem exec_dec_stopped {s : State} {e : ErrCode} {ft : List FtEntry} {k : Nat} (hr : codecRanges s)
    (h : decHeader (decStart s) = failCodec e (consumed k (pairsRead ft (consumed 8 (decStart s))))) :
    exec .dec s = .next (completed e (headerStopped ft (8 + 64 * ft.length + k) s)) := by
  rw [failCodec, stopped_eq] at h
  exact conclude_of_raise (decBody_of_header_raise hr h)

/-- A count of 0 leaves an empty table, of which there is no tree (44 R481, R487). -/
theorem exec_dec_count_zero {s : State} (hr : codecRanges s) (h : msbBits 0 8 <+: inputBits s) :
    exec .dec s = .next (completed .invalidInput (headerStopped [] 8 s)) := by
  obtain ⟨r, hb⟩ := h
  obtain ⟨hhead, -, -⟩ := decHeader_prefix s hr 0 (by decide) [] 0 rfl List.nodup_nil r (by simpa using hb.symm)
  refine conclude_of_raise ?_
  rw [decBody_ranges s hr, hhead]
  exact congrArg (Res.raise _) (stopped_eq [] 0 s)

section
variable {s : State} {n : Nat} {ft : List FtEntry} {rest : Bits}
variable (hr : codecRanges s) (hle : ft.length + (n + 1) ≤ 255) (hn : (ft.map FtEntry.sym).Nodup)
variable (hb : inputBits s = msbBits (ft.length + (n + 1)) 8 ++ ft.flatMap entryBits ++ rest)
include hr hle hn hb

/-- A header that ends before the next symbol is read (44 R481, R487). -/
theorem exec_dec_noSymbol (hrest : rest.length < 32) :
    exec .dec s = .next (completed .corruptHeader (headerStopped ft (8 + 64 * ft.length) s)) := by
  obtain ⟨hhead, -, hbits⟩ := decHeader_prefix s hr _ hle ft (n + 1) rfl hn rest hb
  have hrem : remaining (pairsRead ft (consumed 8 (decStart s))) < 32 := by rwa [← restBits_length, hbits]
  exact exec_dec_stopped (k := 0) hr (hhead.trans (decPairs_noSymbol n _ hrem))

/-- A next symbol that is read and refused: over 255, one of the entries, or with no whole weight after it (44 R481,
R482, R487). -/
theorem exec_dec_symbol {v : Nat} (hv : v < 2 ^ 32) (hsym : msbBits v 32 <+: rest) :
    (255 < v → exec .dec s = .next (completed .range (headerStopped ft (8 + 64 * ft.length + 32) s))) ∧
    ((∃ e ∈ ft, e.sym.toNat = v) →
      exec .dec s = .next (completed .corruptHeader (headerStopped ft (8 + 64 * ft.length + 32) s))) ∧
    (v ≤ 255 → (∀ e ∈ ft, e.sym.toNat ≠ v) → rest.length < 64 →
      exec .dec s = .next (completed .corruptHeader (headerStopped ft (8 + 64 * ft.length + 32) s))) := by
  obtain ⟨hhead, hfresh, hbits⟩ := decHeader_prefix s hr _ hle ft (n + 1) rfl hn rest hb
  obtain ⟨r, rfl⟩ := hsym
  obtain ⟨hlarge, hrepeated, hshort⟩ := decPairs_symbol n v hv _ hfresh r hbits
  refine ⟨fun h => exec_dec_stopped hr (hhead.trans (hlarge h)),
    fun h => exec_dec_stopped hr (hhead.trans (hrepeated h)),
    fun hbyte hnew hlen => exec_dec_stopped hr (hhead.trans (hshort hbyte hnew ?_))⟩
  rw [List.length_append, msbBits_length] at hlen
  omega

end

/-! ### DEC of a whole header -/

/-- The state in which DEC has decoded the symbols `out` of a payload (44 R484). -/
def afterSymbols (ft : List FtEntry) (codes : Codes) (out : List Byte) (s : State) : State :=
  symbolsOut (payloadSeq codes out).length s.outBase.toNat out (atPayload ft s)

/-- What DEC leaves where the payload ends early, `bits` bits into it (44 R487). -/
def payloadStopped (ft : List FtEntry) (bits : Nat) (out : List Byte) (s : State) : State :=
  { symbolsOut bits s.outBase.toNat out (atPayload ft s) with outLen := 0 }

/-- Where the payload ends early the symbols decoded so far are out, and RESULT is as it was (44 R487). -/
theorem payloadStopped_decoded (ft : List FtEntry) (bits : Nat) (out : List Byte) {s : State} (hm : DmemOk s) :
    Decoded ft (8 + 64 * ft.length + bits) out s (payloadStopped ft bits out s) ∧
    (payloadStopped ft bits out s).outLen = 0#32 ∧ (payloadStopped ft bits out s).result0 = s.result0 ∧
    (payloadStopped ft bits out s).result1 = s.result1 ∧ (payloadStopped ft bits out s).result2 = s.result2 := by
  refine ⟨decoded_state ft out bits s hm 0 _ _ _, rfl, ?_⟩
  simp [payloadStopped, symbolsOut, consumed, atPayload, treed, pairsRead, decStart, clearTable, invalidate]

theorem consumed_symbolsOut (k bits a : Nat) (out : List Byte) (s : State) :
    consumed k (symbolsOut bits a out s) = symbolsOut (bits + k) a out s := by
  simp [symbolsOut, consumed, Nat.add_assoc]

section
variable {s : State} {ft : List FtEntry} {codes : Codes} {out : List Byte} {tail : Bits}
variable (hr : codecRanges s) (hne : ft ≠ []) (hle : ft.length ≤ 255) (hn : (ft.map FtEntry.sym).Nodup)
include hr hne hle hn

/-- Weights that sum to more than OUT_CAP end DEC once the tree is built (44 R484, R487). -/
theorem exec_dec_capacity (hb : headerBits ft <+: inputBits s) (hcap : s.outCap.toNat < totalWeight ft) :
    exec .dec s =
      .next (completed .capacity { headerStopped ft (8 + 64 * ft.length) s with tree := buildTree ft }) := by
  obtain ⟨r, hb⟩ := hb
  obtain ⟨hbody, -, -⟩ := decBody_header s hr ft hne hle hn r hb.symm
  rw [if_pos hcap] at hbody
  exact conclude_of_raise (hbody.trans (congrArg (fun t => Res.raise .capacity (treed ft t)) (stopped_eq ft 0 s)))

variable (hcodes : deriveCodes (buildTree ft) = .ok codes) (hout : ∀ c ∈ out, ∃ e ∈ ft, e.sym = c)
variable (hcap : totalWeight ft ≤ s.outCap.toNat) (hb : inputBits s = headerBits ft ++ payloadSeq codes out ++ tail)
include hcodes hout hcap hb

/-- DEC past the codes of `out`: these symbols stand in the output, and `m` more are to be read from what follows
(44 R484). -/
theorem decBody_symbols {m : Nat} (hm : totalWeight ft = out.length + m) :
    decBody s = ((decPayload m (s.outBase.toNat + out.length) (afterSymbols ft codes out s)).bind fun _ t =>
      .ok () (decResult (totalWeight ft) (8 + 64 * ft.length) t)) ∧
    Fresh (afterSymbols ft codes out s) ∧ restBits (afterSymbols ft codes out s) = tail := by
  rw [List.append_assoc] at hb
  obtain ⟨hbody, hfresh, hrest⟩ := decBody_header s hr ft hne hle hn _ hb
  obtain ⟨hpath, hcoded⟩ := codes_facts ft hne hn codes hcodes
  have hroom : s.outBase.toNat + out.length ≤ (atPayload ft s).dmemSize := by
    have hrange := hr.2.1
    rw [atPayload_dmemSize]
    omega
  have hmiss := out_disjoint s hr out.length (by omega) ft
  have hlen := congrArg List.length hrest
  rw [restBits_length, List.length_append] at hlen
  have hread := hfresh.consumed (payloadSeq codes out).length (by omega)
  have hkept := restBits_writeAll (consumed _ (atPayload ft s)) _ _ hmiss hread.reader.posLe
  refine ⟨?_, hread.congr rfl rfl, hkept.trans (restBits_consumed _ _ _ hrest)⟩
  rw [hbody, if_neg (by omega), hm, decPayload_symbols codes out m _ _ hfresh tail
    (by rwa [atPayload_tree]) (fun c hc => hcoded c (hout c hc)) hrest hroom hmiss]
  rfl

/-- A payload of as many symbols as the weights sum to is decoded (44 R484 to R486). -/
theorem exec_dec_decoded (hm : DmemOk s) (htotal : out.length = totalWeight ft) :
    ∃ t, exec .dec s = .next (completed .ok t) ∧
      Decoded ft (8 + 64 * ft.length + (payloadSeq codes out).length) out s t ∧
      t.outLen.toNat = out.length ∧
      t.result0.toNat + 2 ^ 32 * t.result1.toNat = (payloadSeq codes out).length ∧ t.result2 = 0#32 := by
  obtain ⟨hbody, -, -⟩ := decBody_symbols hr hne hle hn hcodes hout hcap hb (m := 0) htotal.symm
  have hpos : (afterSymbols ft codes out s).br.pos - (8 + 64 * ft.length) = (payloadSeq codes out).length := by
    simp [afterSymbols, symbolsOut, consumed, atPayload, treed, pairsRead, decStart, freshReader]
  refine ⟨_, conclude_of_ok hbody, decoded_state ft out _ s hm _ _ _ _, ?_, ?_, rfl⟩
  · have hlt := s.outCap.isLt
    show (BitVec.ofNat 32 (totalWeight ft)).toNat = _
    rw [BitVec.toNat_ofNat, ← htotal, Nat.mod_eq_of_lt (by omega)]
  · have hlen := congrArg List.length hb
    have hlt := s.inLen.isLt
    simp only [inputBits, List.length_append, List.length_map, List.length_range] at hlen
    show (lowWord _).toNat + 2 ^ 32 * (highWord35 _).toNat = _
    rw [hpos]
    exact words_of_35 _ (by omega)

/-- A payload that ends inside the walk to a further symbol: the bits of that walk are read too (44 R484, R487). -/
theorem exec_dec_endOfStream (hm : DmemOk s) (htotal : out.length < totalWeight ft)
    (hwalk : ∃ i zero one w, follow (buildTree ft).nodes (buildTree ft).root tail = some i ∧
      (buildTree ft).nodes[i]? = some (.internal zero one w)) :
    ∃ t, exec .dec s = .next (completed .endOfStream t) ∧ Decoded ft (8 * s.inLen.toNat) out s t ∧
      t.outLen = 0#32 ∧ t.result0 = s.result0 ∧ t.result1 = s.result1 ∧ t.result2 = s.result2 := by
  obtain ⟨n, hrem⟩ : ∃ n, totalWeight ft = out.length + (n + 1) := ⟨totalWeight ft - out.length - 1, by omega⟩
  obtain ⟨hbody, hfresh, hrest⟩ := decBody_symbols hr hne hle hn hcodes hout hcap hb hrem
  obtain ⟨i, zero, one, w, hfollow, hnode⟩ := hwalk
  have htree := treeOf_buildTree ft hne hn
  have hdepth : tail.length < (buildTree ft).nodes.length := by
    have hpath := htree.follow_le hfollow
    have hroot := htree.nodesPos
    omega
  have hsymbol : decSymbol (afterSymbols ft codes out s) =
      failCodec .endOfStream (consumed tail.length (afterSymbols ft codes out s)) :=
    decWalk_short tail _ _ i _ hfresh hrest hdepth hfollow zero one w hnode
  rw [decPayload, hsymbol, afterSymbols, consumed_symbolsOut] at hbody
  have hpos : 8 * s.inLen.toNat = 8 + 64 * ft.length + ((payloadSeq codes out).length + tail.length) := by
    have hlen := congrArg List.length hb
    simp only [inputBits, List.length_append, List.length_map, List.length_range, headerBits_length] at hlen
    omega
  rw [hpos]
  exact ⟨payloadStopped ft _ out s, conclude_of_raise hbody, payloadStopped_decoded ft _ out hm⟩

end

/-- Settles O58, clause by clause in the order of the checks. -/
theorem decErrors : Obligations.DecErrors := by
  refine fun s => ⟨fun hr => conclude_of_raise (decBody_outOfRange hr),
    fun hr h0 => conclude_of_raise (decBody_of_header_raise hr (decHeader_empty h0)), exec_dec_count_zero, ?_, ?_⟩
  · intro count ft rest hr hle hlt hn hb
    obtain ⟨n, rfl⟩ : ∃ n, count = ft.length + (n + 1) := ⟨count - ft.length - 1, by omega⟩
    exact ⟨exec_dec_noSymbol hr hle hn hb, fun v hv hsym => exec_dec_symbol hr hle hn hb hv hsym⟩
  · exact fun ft hr hne hle hn hhead => ⟨exec_dec_capacity hr hne hle hn hhead,
      fun codes out tail hm hcap hcodes hout htotal hb hwalk =>
        exec_dec_endOfStream hr hne hle hn hcodes hout hcap hb hm htotal hwalk⟩

/-- Settles O57: the codes decode one by one, and what follows them is not read. -/
theorem decSucceeds : Obligations.DecSucceeds := by
  intro s ft codes out hm hr hne hle hn hcodes hout htotal hcap ⟨tail, hb⟩
  exact exec_dec_decoded hr hne hle hn hcodes hout (htotal ▸ hcap) hb.symm hm htotal

/-! ### DEC of a container -/

/-- What DEC needs of a container: a table of the input with its codes, and both at the start of DEC's input. -/
structure ReadsContainer (input : List Byte) (codes : Codes) (u : State) : Prop where
  entries : countBytes input ≠ []
  count : (countBytes input).length ≤ 255
  short : input.length < 2 ^ 32
  derived : deriveCodes (buildTree (countBytes input)) = .ok codes
  bits : headerBits (countBytes input) ++ payloadSeq codes input <+: inputBits u

/-- A copy of what ENC wrote is read as the container of ENC's input (44 R469, R488). -/
theorem readsContainer_of_copy {s t u : State} (hm : DmemOk s) (hexec : exec .enc s = .next t) (hok : t.errcode = .ok)
    (hlen : u.inLen = t.outLen)
    (hcopy : ∀ k, k < t.outLen.toNat →
      Memory.read u.dmem (u.inBase.toNat + k) = Memory.read t.dmem (s.outBase.toNat + k)) :
    t.ft = countBytes (inputBytes s) ∧ ∃ codes, ReadsContainer (inputBytes s) codes u := by
  obtain ⟨codes, w, henc, rfl, -, hpos, hle⟩ := enc_ok s t hm hexec hok
  have hne : countBytes (inputBytes s) ≠ [] := by
    rw [Ne, countBytes_eq_nil_iff, inputBytes_eq_nil_iff]
    exact hpos.ne'
  exact ⟨congrArg State.ft henc.rest, codes, hne, hle, inputBytes_length_lt s, henc.derived,
    container_prefix s w u codes henc hlen hcopy⟩

section
variable {input : List Byte} {codes : Codes} {u : State} (h : ReadsContainer input codes u) (hm : DmemOk u)
variable (hr : codecRanges u)
include h hm hr

/-- DEC of a container with room for the input gives the input back (44 R488). -/
theorem ReadsContainer.exec_dec (hcap : input.length ≤ u.outCap.toNat) :
    ∃ t pos, exec .dec u = .next (completed .ok t) ∧ Decoded (countBytes input) pos input u t ∧
      t.outLen.toNat = input.length := by
  have htotal := totalWeight_countBytes input h.short
  have hout : ∀ c ∈ input, ∃ e ∈ countBytes input, e.sym = c :=
    fun c hc => List.mem_map.1 ((mem_countBytes_syms input c).2 hc)
  obtain ⟨t, hexec, hdec, hlen, -, -⟩ := decSucceeds u _ codes input hm hr h.entries h.count
    (countBytes_nodup input) h.derived hout htotal.symm hcap h.bits
  exact ⟨t, _, hexec, hdec, hlen⟩

/-- DEC of a container leaves the table of the input, with room for the output or without (44 R489). -/
theorem ReadsContainer.exec_dec_table : ∃ e t, exec .dec u = .next (completed e t) ∧ t.ft = countBytes input := by
  by_cases hcap : input.length ≤ u.outCap.toNat
  · obtain ⟨t, pos, hexec, hdec, -⟩ := h.exec_dec hm hr hcap
    exact ⟨_, t, hexec, congrArg State.ft hdec.rest⟩
  · have hmore : u.outCap.toNat < totalWeight (countBytes input) := by
      rw [totalWeight_countBytes input h.short]
      omega
    exact ⟨_, _, exec_dec_capacity hr h.entries h.count (countBytes_nodup input)
      ((List.prefix_append _ _).trans h.bits) hmore, rfl⟩

end

/-- Settles O59: DEC reads the container of the input, and its output is the input. -/
theorem roundTrip : Obligations.RoundTrip := by
  intro s t u hm hexec hok hmu hru hlen hcap hcopy
  obtain ⟨-, codes, hread⟩ := readsContainer_of_copy hm hexec hok hlen hcopy
  rw [← inputBytes_length s] at hcap
  obtain ⟨v, pos, hdec, hv, hout⟩ := hread.exec_dec hmu hru hcap
  rw [inputBytes_length] at hout
  refine ⟨completed .ok v, hdec, rfl, BitVec.eq_of_toNat_eq hout, fun k hk => ?_⟩
  have hbyte := hv.output k (by rwa [inputBytes_length])
  rw [List.getD_eq_getElem _ _ (by rwa [inputBytes_length])] at hbyte
  simpa [inputBytes, completed] using hbyte

/-- FT_COUNT of an idle core reads the length of a table of distinct symbols (10 R60). -/
theorem ftCount_read {v : State} (hidle : v.busy = false) (hft : FtOk v) :
    ∃ w : Word, hostMove (.regRead 0x2C#8 32) v = .next { v with reply := some (.register w) } ∧
      w.toNat = v.ft.length := by
  have hlen := ft_length_le v.ft hft
  exact ⟨_, regRead_open (r := .ftCount) (.inl hidle), toNat_slice_zero (by omega) (by decide)⟩

/-- FT_GET at the index of an entry reads the entry (40 R256). -/
theorem ftGet_read {v : State} (hft : FtOk v) {i : Nat} {e : FtEntry} (hi : v.ft[i]? = some e) :
    ∃ r, exec .ftGet { v with arg0 := BitVec.ofNat 32 i } = .next r ∧
      r.errcode = .ok ∧ r.result0 = e.w ∧ r.result1 = e.sym.zeroExtend 32 := by
  obtain ⟨hlt, -⟩ := List.getElem?_eq_some_iff.1 hi
  have hlen := ft_length_le v.ft hft
  have hindex : (BitVec.ofNat 32 i).toNat = i := Nat.mod_eq_of_lt (by omega)
  rw [← hindex] at hi
  exact ⟨_, conclude_of_ok (ftGetBody_of_some (s := { v with arg0 := BitVec.ofNat 32 i }) hi), rfl, rfl, rfl⟩

/-- Settles O60: DEC leaves the table of the input, which is the one ENC left, and the host reads it. -/
theorem headerFidelity : Obligations.HeaderFidelity := by
  intro s t u hm hexec hok hmu hru hlen hcopy
  obtain ⟨hft, codes, hread⟩ := readsContainer_of_copy hm hexec hok hlen hcopy
  obtain ⟨e, v, hdec, hv⟩ := hread.exec_dec_table hmu hru
  rw [← hft] at hv
  have hdistinct : FtOk (completed e v) := by
    show (v.ft.map FtEntry.sym).Nodup
    rw [hv, hft]
    exact countBytes_nodup _
  refine ⟨completed e v, hdec, hv, ?_, fun i x hx => ftGet_read hdistinct (by rwa [← hv] at hx)⟩
  rw [← hv]
  exact ftCount_read rfl hdistinct

end Sys2Proof.Machine
end

section
/-! PROOFS. The statements of spec/60_exceptions.md: whose turn a step takes, the interrupt line, and the outcome codes that
each command can report. -/

namespace Sys2Proof.Machine

/-! ### Turns and the interrupt line -/

/-- The host's turn is its move on the rest of the agenda. -/
theorem step_of_hostNext {s : State} {m : HostMove} {rest : List Turn} (h : s.agenda = .host m :: rest) :
    step s = hostMove m (afterTurn s) := by
  rcases takeTurn_cases s with ⟨hnext, -⟩ | ⟨m', rest', h', ht⟩
  · simp [engineNext, h] at hnext
  · obtain ⟨rfl, -⟩ : m = m' ∧ rest = rest' := by simpa [h] using h'
    exact ht

/-- Settles O7: a turn is the host's move or the engine's step, and the engine steps only while BUSY = 1. -/
theorem otherTurns : Obligations.OtherTurns := by
  refine fun s => ⟨fun m rest h => step_of_hostNext h, fun hnext hidle => ?_⟩
  rw [step_of_engineNext hnext]
  exact if_neg (Bool.eq_false_iff.1 hidle)

/-- Settles O19: the line is read off DONE and IRQ_EN, and what each move leaves of the two is known. -/
theorem irqLine : Obligations.IrqLine := by
  intro s
  refine ⟨rfl, fun v hv => ?_, fun v => ?_, fun w hidle => ?_, fun i t h => ?_⟩
  · exact ⟨_, (statusAndCtrlWrites s v).2 hv, rfl, rfl⟩
  · exact ⟨_, (statusAndCtrlWrites s v).1, Bool.and_right_comm _ _ _⟩
  · exact ⟨_, cmdWriteIssues s w hidle, rfl⟩
  · obtain ⟨e, u, hu, rfl⟩ := exec_effect h
    obtain ⟨hen, -⟩ := hu.operands
    exact (Bool.true_and u.irqEn).trans hen

/-! ### The outcome code of a part of a command -/

theorem ok_mem_outcomes (i : Instr) : .ok ∈ outcomes i := by
  cases i <;> exact List.mem_cons_self

/-- Wherever this part of the command ends, its outcome code is one that 60 R504 lists for the command. -/
abbrev Reports (i : Instr) {α : Type} (r : Res α) : Prop := r.EndsIn fun e _ => e ∈ outcomes i

namespace Reports

variable {i : Instr} {α : Type}

theorem done (a : α) (t : State) : Reports i (.ok a t) := .ok a t (ok_mem_outcomes i)

theorem failed (e : ErrCode) (t : State) (he : e ∈ outcomes i := by simp [outcomes]) :
    Reports i (.raise e t : Res α) :=
  .raise e t he

/-- A check of a command, by what the command does where it holds and where it does not. -/
theorem check {c : Prop} {_ : Decidable c} {r q : Res α} (hr : Reports i r) (hq : Reports i q) :
    Reports i (if c then r else q) := by
  split_ifs
  · exact hr
  · exact hq

/-- Bits are read, and the command then ends with OK. -/
theorem read {s : State} {r : Res α} (hr : (∃ a t, r = .ok a t ∧ ReadFrame s t) ∨ ∃ f, r = .fault f)
    (k : α → State → State) : Reports i (r.bind fun a t => .ok () (k a t)) := by
  rcases hr with ⟨a, t, rfl, -⟩ | ⟨f, rfl⟩
  · exact done () (k a t)
  · exact .fault f

/-- The outcome code of a command is the one its body ends with (60 R506). -/
theorem errcode_mem {r : Res α} {t : State} (h : Reports i r) (ht : conclude r = .next t) :
    t.errcode ∈ outcomes i := by
  obtain ⟨e, u, he, rfl⟩ := h.of_conclude ht
  exact he

end Reports

/-! ### The outcome codes of each body -/

section
variable (s : State)

theorem ftAddBody_reports (sym : Byte) : Reports (.ftAdd sym) (ftAddBody sym s) :=
  .check (.failed _ _) (.done _ _)

theorem ftGetBody_reports : Reports .ftGet (ftGetBody s) := by
  unfold ftGetBody
  split
  · exact .failed _ _
  · exact .done _ _

theorem tbBuildBody_reports : Reports .tbBuild (tbBuildBody s) := .check (.failed _ _) (.done _ _)

theorem tbNodeBody_reports : Reports .tbNode (tbNodeBody s) := by
  refine .check ?_ (.failed _ _)
  split
  · exact .failed _ _
  · exact .done _ _

theorem ctDeriveBody_reports : Reports .ctDerive (ctDeriveBody s) := by
  refine .check ?_ (.failed _ _)
  split
  · exact .fault _
  · exact .done _ _

theorem ctLookupBody_reports (sym : Byte) : Reports (.ctLookup sym) (ctLookupBody sym s) := by
  unfold ctLookupBody
  split
  · exact .failed _ _
  · exact .done _ _

theorem bpInitBody_reports : Reports .bpInit (bpInitBody s) := .check (.done _ _) (.failed _ _)

/-- Every append command can report that its sequence does not fit (42 R352). -/
theorem Appends.capacity_mem_outcomes {i : Instr} (hi : Appends i) : .capacity ∈ outcomes i := by
  cases hi <;> simp [outcomes]

theorem appendSeq_reports {i : Instr} (hi : Appends i) (seq : Bits) : Reports i (appendSeq seq s) := by
  rcases appendSeq_shape seq s with ⟨t, h, -⟩ | h | ⟨f, h⟩
  · rw [h]
    exact .done _ _
  · rw [h]
    exact .failed _ _ hi.capacity_mem_outcomes
  · rw [h]
    exact .fault f

theorem bpAppendBitBody_reports (bit : Bool) : Reports (.bpAppendBit bit) (bpAppendBitBody bit s) :=
  .check (appendSeq_reports s (.bit bit) _) (.failed _ _)

theorem bpAppendSeqBody_reports : Reports .bpAppendSeq (bpAppendSeqBody s) :=
  .check (.failed _ _) (.check (appendSeq_reports s .seq _) (.failed _ _))

theorem bpAppendFixedBody_reports (width : BitVec 6) : Reports (.bpAppendFixed width) (bpAppendFixedBody width s) :=
  .check (.failed _ _) (.check (.failed _ _) (.check (.failed _ _) (appendSeq_reports s (.fixed width) _)))

theorem bpAppendCodeBody_reports (sym : Byte) : Reports (.bpAppendCode sym) (bpAppendCodeBody sym s) := by
  refine .check ?_ (.failed _ _)
  split
  · exact .failed _ _
  · exact appendSeq_reports s (.code sym) _

theorem bpFinishBody_reports : Reports .bpFinish (bpFinishBody s) := by
  rcases bpFinish_shape s with ⟨-, t, h, -⟩ | ⟨-, h⟩ | ⟨f, h⟩
  · rw [h]
    exact .done _ _
  · rw [h]
    exact .failed _ _
  · rw [h]
    exact .fault f

theorem brInitBody_reports : Reports .brInit (brInitBody s) := .check (.done _ _) (.failed _ _)

theorem brReadBitBody_reports : Reports .brReadBit (brReadBitBody s) :=
  .check (.failed _ _) (.check (.failed _ _) (.read (getBit_shape s) _))

theorem brReadFixedBody_reports (width : BitVec 6) : Reports (.brReadFixed width) (brReadFixedBody width s) :=
  .check (.failed _ _) (.check (.failed _ _) (.check (.failed _ _) (.read (readFixed_shape width.toNat s) _)))

theorem brRemainingBody_reports : Reports .brRemaining (brRemainingBody s) := .check (.done _ _) (.failed _ _)

theorem brPositionBody_reports : Reports .brPosition (brPositionBody s) := .check (.done _ _) (.failed _ _)

end

/-- Each effect that ENC and DEC can have comes with a code listed for the command (44 R470, R487). -/
theorem Effect.codec_mem_outcomes {s u : State} {i : Instr} {e : ErrCode} (h : Effect s i e u)
    (hi : i = .enc ∨ i = .dec) : e ∈ outcomes i := by
  cases h with
  | unchanged _ _ _ hc =>
    obtain rfl : e = .address := hc.resolve_right fun ⟨henc, hdec⟩ => hi.elim henc hdec
    rcases hi with rfl | rfl <;> simp [outcomes]
  | encEmpty => simp [outcomes]
  | encStopped _ he => rcases he with rfl | rfl <;> simp [outcomes]
  | decHeader _ he => rcases he with rfl | rfl | rfl <;> simp [outcomes]
  | decStopped _ he => rcases he with rfl | rfl <;> simp [outcomes]
  | _ => exact ok_mem_outcomes _

/-! ### The outcome code of a command -/

/-- Settles O29: ENC and DEC by their effects, every other command by what its body reports. -/
theorem commandOutcomes : Obligations.CommandOutcomes := by
  intro i s t h
  cases i with
  | nop | ftClear => cases h; exact ok_mem_outcomes _
  | ftAdd sym => exact (ftAddBody_reports s sym).errcode_mem h
  | ftGet => exact (ftGetBody_reports s).errcode_mem h
  | tbBuild => exact (tbBuildBody_reports s).errcode_mem h
  | tbNode => exact (tbNodeBody_reports s).errcode_mem h
  | ctDerive => exact (ctDeriveBody_reports s).errcode_mem h
  | ctLookup sym => exact (ctLookupBody_reports s sym).errcode_mem h
  | bpInit => exact (bpInitBody_reports s).errcode_mem h
  | bpAppendBit bit => exact (bpAppendBitBody_reports s bit).errcode_mem h
  | bpAppendSeq => exact (bpAppendSeqBody_reports s).errcode_mem h
  | bpAppendFixed width => exact (bpAppendFixedBody_reports s width).errcode_mem h
  | bpAppendCode sym => exact (bpAppendCodeBody_reports s sym).errcode_mem h
  | bpFinish => exact (bpFinishBody_reports s).errcode_mem h
  | brInit => exact (brInitBody_reports s).errcode_mem h
  | brReadBit => exact (brReadBitBody_reports s).errcode_mem h
  | brReadFixed width => exact (brReadFixedBody_reports s width).errcode_mem h
  | brRemaining => exact (brRemainingBody_reports s).errcode_mem h
  | brPosition => exact (brPositionBody_reports s).errcode_mem h
  | enc | dec =>
    obtain ⟨e, u, hu, rfl⟩ := exec_effect h
    exact hu.codec_mem_outcomes (by simp)

end Sys2Proof.Machine
end

section
/-! PROOFS. The statements of spec/70_reset_and_hazards.md: a reset while a command is in flight, the soft reset, and
what the host reads while BUSY = 1. -/

namespace Sys2Proof.Machine

/-! ### A reset and the draws in the write range -/

/-- The number of bytes of the write range that exist from its first address on (70 R552; log entry 6). -/
def drawCount (s : State) : Nat := min (writeRange s).hi s.dmemSize - (writeRange s).lo

theorem reset_def (s : State) : reset s = resetCore (drawBytes (writeRange s).lo (drawCount s) s) := rfl

/-- The number of the draw that a reset puts into a byte of the write range (70 R552; log entry 6). -/
def drawNumber (s : State) (a : Nat) : Nat := s.draws + (a - (writeRange s).lo)

section
variable {s : State} (hm : Memory.wf s.dmem)
include hm

/-- A reset core is where a run starts, on the DMEM that the draws leave (10 R80, 70 R550, R552). -/
theorem reset_eq : reset s = { State.initial s.dmemSize (reset s).dmem with
    draws := (reset s).draws, agenda := s.agenda, reply := s.reply } := by
  obtain ⟨hdraw, -⟩ := drawBytes_spec (writeRange s).lo (drawCount s) s hm
  rw [reset_def, hdraw]
  rfl

theorem reset_draws : (reset s).draws = s.draws + drawCount s := by
  obtain ⟨hdraw, -⟩ := drawBytes_spec (writeRange s).lo (drawCount s) s hm
  rw [reset_def, hdraw]
  rfl

theorem reset_read_other {a : Nat} (ha : ¬(writeRange s).has a = true) :
    Memory.read (reset s).dmem a = Memory.read s.dmem a := by
  rw [AddrRange.has_iff] at ha
  obtain ⟨-, hother, -⟩ := drawBytes_spec (writeRange s).lo (drawCount s) s hm
  exact hother a (by unfold drawCount; omega)

variable {a : Nat} (ha : a < s.dmemSize) (hw : (writeRange s).has a = true)
include ha hw

theorem reset_read_drawn : Memory.read (reset s).dmem a = Config.freeByte (drawNumber s a) := by
  obtain ⟨hlo, hhi⟩ := (AddrRange.has_iff _ a).1 hw
  obtain ⟨-, -, hdrawn, -⟩ := drawBytes_spec (writeRange s).lo (drawCount s) s hm
  exact hdrawn a hlo (by unfold drawCount; omega)

theorem drawNumber_lt_reset_draws : drawNumber s a < (reset s).draws := by
  obtain ⟨hlo, hhi⟩ := (AddrRange.has_iff _ a).1 hw
  rw [reset_draws hm, drawNumber, drawCount]
  omega

end

/-- Two bytes of the write range hold draws of different numbers (70 R552). -/
theorem drawNumber_inj {s : State} {a b : Nat} (ha : (writeRange s).has a = true) (hb : (writeRange s).has b = true)
    (h : drawNumber s a = drawNumber s b) : a = b := by
  rw [AddrRange.has_iff] at ha hb
  unfold drawNumber at h
  omega

/-- Settles O24: the bytes drawn are those of the write range of the command in flight, each with its own number. -/
theorem resetDuringCommand : Obligations.ResetDuringCommand := by
  intro s i hm hb hd
  have hwrite (a : Nat) : mayWrite i s a ↔ (writeRange s).has a = true := by
    rw [writeRange_of_decode hb hd, writeRangeOf_has_iff]
  simp only [hwrite]
  exact ⟨reset s, drawNumber s, hostMove_reset s (.inl rfl), reset_eq hm.canonical,
    fun a => reset_read_other hm.canonical,
    fun a ha hw => ⟨Nat.le_add_right _ _, drawNumber_lt_reset_draws hm.canonical ha hw,
      reset_read_drawn hm.canonical ha hw⟩,
    fun a b _ ha _ hb => drawNumber_inj ha hb⟩

/-- Settles O23: both resets are one move of the core, and bit 0 of CTRL holds nothing to read. -/
theorem softReset : Obligations.SoftReset := by
  refine ⟨fun s v hv => ?_, fun s => ⟨ctrlWord s, regRead_open (r := .ctrl) (.inr rfl), ?_⟩⟩
  · rw [hostMove_reset s (.inl rfl), hostMove_reset s (.inr ⟨v, hv, rfl⟩)]
  · rw [ctrlWord_eq]
    split_ifs <;> rfl

/-! ### Reads while BUSY = 1 -/

/-- A register that is closed to the read answers a draw (10 R65, 70 R575). -/
theorem regRead_closed {r : HostReg} {s : State} (hb : s.busy = true) (hr : readableWhileBusy r = false) :
    hostMove (.regRead (regOffset r) 32) s =
      .next { s with reply := some (.register (Config.freeWord s.draws)), draws := s.draws + 1 } := by
  rw [regRead_regOffset, readReg, if_pos (by simp [hb, hr])]
  rfl

/-- Settles O18: each offset is that of a register, of the first list one closed to the read, of the second one open. -/
theorem readsWhileBusy : Obligations.ReadsWhileBusy := by
  refine fun s o hb => ⟨fun ho => ?_, fun ho => ?_⟩
  · obtain ⟨r, hr, rfl⟩ := regAt_of_mem (p := fun r => !readableWhileBusy r) (by decide) ho
    exact regRead_closed hb (by simpa using hr)
  · obtain ⟨r, hr, rfl⟩ := regAt_of_mem (p := readableWhileBusy) (by decide) ho
    exact ⟨_, regRead_open (.inr hr)⟩

end Sys2Proof.Machine
end
